-- ==== Sys2Proof/Word.lean ====
section
/-! DEFINITION. Words, bytes and strings of the FPE engine block (spec/00_scope.md R10). -/

namespace Sys2Proof

/-- An octet: an element of a byte string, a buffer byte, or one character of a numeral string
(R10; R100: a character is one byte). -/
abbrev Byte := BitVec 8

/-- A 32-bit host register value or command word (10_state.md section 2, 30_encoding.md R60). -/
abbrev Word := BitVec 32

/-- A byte string or a numeral string, indexed from 0 (R10, R49). -/
abbrev Bytes := List Byte

end Sys2Proof
end

