-- ==== Sys2Proof/Syntax.lean ====
section
/-! DEFINITION. The six commands (spec/30_encoding.md R62) and the names of the host's places (R14, R40). -/

namespace Sys2Proof

/-- The commands of the block, one constructor per row of spec/opcode_table.json. No command has an
operand field: every operand comes from the operand registers and buffers (R60, R64). -/
inductive Instr where
  /-- `CTX.FF1`, 0x00000011 (40_context.md R80). -/
  | ctxFF1
  /-- `CTX.FF31`, 0x00000021 (40_context.md R92). -/
  | ctxFF31
  /-- `ENC`, 0x00000002 (44_ff1_engine.md R246). -/
  | enc
  /-- `ENC.T`, 0x00000202 (44_ff1_engine.md R247). -/
  | encT
  /-- `DEC`, 0x00000102 (44_ff1_engine.md R248). -/
  | dec
  /-- `DEC.T`, 0x00000302 (44_ff1_engine.md R249). -/
  | decT
  deriving DecidableEq, Repr

/-- The direction flag `DIR` (10_state.md R28): bit 0 is encrypt, 1 is decrypt. -/
inductive Direction where
  | encrypt
  | decrypt
  deriving DecidableEq, Repr

/-- The five regions of the host space (20_memory.md R40). -/
inductive Region where
  | reg
  | key
  | twk
  | txt
  | out
  deriving DecidableEq, Repr

/-- The four byte buffers (10_state.md R21). -/
inductive BufName where
  | key
  | twk
  | txt
  | out
  deriving DecidableEq, Repr

/-- The sixteen registers of the `REG` region (10_state.md R14). -/
inductive RegName where
  | cmd
  | status
  | errcode
  | outlen
  | radix
  | keylen
  | twkmin
  | twkmax
  | twklen
  | txtlen
  | ctxRadix
  | ctxTwkmin
  | ctxTwkmax
  | ctxTxtmin
  | ctxTxtmax
  | ctxDtwklen
  deriving DecidableEq, Repr

/-- The error names of 60_exceptions.md R200 (`None`, code 0x00, is the absence of one). -/
inductive ErrorName where
  | invalidKeySize
  | invalidRadix
  | invalidTextLength
  | invalidTweakLength
  | invalidNumeral
  | lengthExceeded
  | invalidBlockLength
  | noContext
  | illegalCommand
  deriving DecidableEq, Repr

/-- The host's four access primitives (20_memory.md R41, R42). A word access names the word, `k` for byte
offset `4 * k`, so that a misaligned or narrow access to `REG`, which R45 says does not exist at this
interface, has no term (log 17). -/
inductive Access where
  /-- `MemRead((REG, 4 * k), 4)`. -/
  | regRead (k : Nat)
  /-- `MemWrite((REG, 4 * k), 4, w)`. -/
  | regWrite (k : Nat) (w : Word)
  /-- `MemRead((b, i), 1)`. -/
  | bufRead (b : BufName) (i : Nat)
  /-- `MemWrite((b, i), 1, v)`. -/
  | bufWrite (b : BufName) (i : Nat) (v : Byte)
  deriving DecidableEq, Repr

/-- What can happen next to the block (70_reset_and_hazards.md R244 leaves the interleaving of host and
engine open, so it is data of the environment, log 5 and log 6). -/
inductive Event where
  /-- One host access at its instant. A `CMD` write that is accepted only starts its command (R47); the engine
  goes on in later steps. -/
  | access (a : Access)
  /-- A `CMD` write of `w` whose command, if accepted, runs to its end before anything else happens
  (00_scope.md R9 and R244 allow a model to do so). -/
  | command (w : Word)
  /-- The engine makes one phase transition of 10_state.md R32. -/
  | engine
  /-- The reset input is asserted and released (70_reset_and_hazards.md R230), when the engine has already made `k` of
  the AES requests of the phase transition it is in, or all of them if there are fewer. R232 lets these stand and
  abandons the rest, so `k` shows in the AES-port history alone (log 5). -/
  | reset (k : Nat)
  deriving DecidableEq, Repr

end Sys2Proof
end

