-- ==== Sys2Proof/Config.lean ====
section
/-! DEFINITION. The constants that the spec fixes (spec/00_scope.md R6) and the parameters that it leaves open
(R7, R8). The parameters of the hardware at hand are opaque: no proof can learn a value of them (log 2, log 3,
log 20). -/

namespace Sys2Proof

/-- The parameters of R7. The meanings take them as an argument, so that a test can run them on capacities and
on a finite table of AES blocks of its own. -/
structure Params where
  /-- `N_CAP`: characters of `TXT` and `OUT`. -/
  nCap : Nat
  /-- `T_CAP`: bytes of `TWK` and of the stored default tweak. -/
  tCap : Nat
  /-- `AES(k, x)`: total, of the loaded key and a block, answering a block of 16 bytes (R8). -/
  aes : Bytes → Bytes → Vector Byte 16
  /-- The platform's base address of a region (20_memory.md R55). No rule reads it. -/
  regionBase : Region → Nat

/-- Where the platform maps element `off` of a region (R40, R55). -/
def Params.platformAddress (p : Params) (r : Region) (off : Nat) : Nat := p.regionBase r + off

/-- `BLK`, bytes of a block (R6). -/
abbrev Config.blockBytes : Nat := 16
/-- `ROUNDS_FF1` (R6). -/
abbrev Config.roundsFF1 : Nat := 10
/-- `ROUNDS_FF31` (R6). -/
abbrev Config.roundsFF31 : Nat := 8
/-- `RADIX_MIN` (R6). -/
abbrev Config.radixMin : Nat := 2
/-- `RADIX_MAX` (R6). -/
abbrev Config.radixMax : Nat := 36
/-- `FF31_TWK_LEN` (R6). -/
abbrev Config.ff31TweakBytes : Nat := 7
/-- `FF31_NUM_BYTES` (R6). -/
abbrev Config.ff31NumBytes : Nat := 12
/-- `FF1_TXT_MAX_DOC` (R6). -/
abbrev Config.ff1TextMax : Nat := 2 ^ 32
/-- `TXT_MIN_DIGITS` (R6). -/
abbrev Config.textMinDomain : Nat := 10 ^ 6
/-- Bytes of the `KEY` buffer (10_state.md R21). -/
abbrev Config.keyBufferBytes : Nat := 32

/-- What `N_CAP` adds to its lower bound 20; any value up to `2^32 - 1 - 20` (R7). -/
opaque Config.textCapacityOver : Fin 4294967276
/-- What `T_CAP` adds to its lower bound 7; any value up to `2^32 - 1 - 7` (R7). -/
opaque Config.tweakCapacityOver : Fin 4294967289
/-- The external AES primitive (R8). -/
opaque Config.aesBlock : Bytes → Bytes → Vector Byte 16
/-- The platform's region bases (20_memory.md R55). -/
opaque Config.platformBase : Region → Nat

/-- The parameters of the hardware at hand: any that R7 allows. -/
def Config.hardware : Params where
  nCap := 20 + Config.textCapacityOver.val
  tCap := 7 + Config.tweakCapacityOver.val
  aes := Config.aesBlock
  regionBase := Config.platformBase

end Sys2Proof
end

