-- ==== Sys2Proof/Machine/ByteOps.lean ====
section
/-! DEFINITION. The byte utilities (spec/42_byte_utilities.md). -/

namespace Sys2Proof.Machine

/-- `revb(x)`: byte-order reversal (R120). -/
def revb (x : Bytes) : Bytes := x.reverse

/-- `revs(s)`: character-order reversal (R121). -/
def revs (s : Bytes) : Bytes := s.reverse

/-- `xor(a, b, len)`: byte-wise exclusive-or of the first `len` bytes (R122). DESIGN CHOICE: with `len` larger than an
argument, a call that R122 says does not occur and gives no meaning, the result ends with the shorter argument
(log 23). -/
def xorBytes (a b : Bytes) (len : Nat) : Bytes :=
  List.zipWith (fun x y => x ^^^ y) (a.take len) (b.take len)

/-- The bytes `e[k] = (x div 256^(w-1-k)) mod 256` of R123. -/
def beBytes (x w : Nat) : Bytes :=
  (List.range w).map fun k => BitVec.ofNat 8 (x / 256 ^ (w - 1 - k) % 256)

/-- `BE(x, w)`; `none` is `raise LengthExceeded`: it never truncates (R123). -/
def be (x w : Nat) : Option Bytes :=
  if 256 ^ w ≤ x then none else some (beBytes x w)

/-- `buf[off .. off+len(e)) <- e`: replaces exactly those bytes (R123). DESIGN CHOICE: where they do not all lie in
`buf`, which R123 rules out, they follow what `buf` has before them (log 23). The first store into the empty `P` of
FF3-1 is read from the spec (log 12). -/
def storeAt (buf : Bytes) (off : Nat) (e : Bytes) : Bytes :=
  buf.take off ++ e ++ buf.drop (off + e.length)

/-- `s[a..b)` (R125). DESIGN CHOICE: with indices out of range, which R125 says no use has, the result is the part
that exists (log 23). -/
def slice (s : Bytes) (a b : Nat) : Bytes := (s.take b).drop a

/-- `0^k` (R10). -/
def zeroBytes (k : Nat) : Bytes := List.replicate k 0

/-- The first `k` blocks of 16 bytes of a byte string (R131: `X[16*(j-1) .. 16*j)` for j = 1 .. k). -/
def blocksOf : Nat → Bytes → List Bytes
  | 0, _ => []
  | k + 1, x => x.take Config.blockBytes :: blocksOf k (x.drop Config.blockBytes)

end Sys2Proof.Machine
end

