-- ==== Sys2Proof/Machine/Codec.lean ====
section
/-! DEFINITION. The numeral codec and its integer functions (spec/41_numeral_codec.md, 40_context.md R83 to R87). -/

namespace Sys2Proof.Machine

/-- The digit value of a character in the 36-digit alphabet, upper case read as lower case (R71, R100, R101). -/
def digitValue (ch : Byte) : Option Nat :=
  if 0x30 ≤ ch.toNat ∧ ch.toNat ≤ 0x39 then some (ch.toNat - 0x30)
  else if 0x61 ≤ ch.toNat ∧ ch.toNat ≤ 0x7A then some (ch.toNat - 0x61 + 10)
  else if 0x41 ≤ ch.toNat ∧ ch.toNat ≤ 0x5A then some (ch.toNat - 0x41 + 10)
  else none

/-- `digit(ch, radix)`; `none` is `raise InvalidNumeral` (R101). -/
def digit (ch : Byte) (radix : Nat) : Option Nat :=
  match digitValue ch with
  | some dv => if dv < radix then some dv else none
  | none => none

/-- The accumulation of R102: `acc <- acc * radix + digit(s[k], radix)` over the string. -/
def accumulate (radix : Nat) : Nat → Bytes → Option Nat
  | acc, [] => some acc
  | acc, ch :: rest =>
    match digit ch radix with
    | some d => accumulate radix (acc * radix + d) rest
    | none => none

/-- `decode(s, radix)` = `NUM_radix(s)`; `none` is `raise InvalidNumeral`, which the empty string raises too
(R102, R103). -/
def decodeNumeral (s : Bytes) (radix : Nat) : Option Nat :=
  match s with
  | [] => none
  | _ :: _ => accumulate radix 0 s

/-- `char(dv)`: the character of a digit value, lower case (R104, R107). DESIGN CHOICE: a value above 35, for which R104
gives no character, goes on in the same codes (log 25). -/
def charOf (dv : Nat) : Byte :=
  if dv ≤ 9 then BitVec.ofNat 8 (0x30 + dv) else BitVec.ofNat 8 (0x61 + (dv - 10))

/-- The characters `s[k] = char((value div radix^(width-1-k)) mod radix)` of R104. -/
def render (value radix width : Nat) : Bytes :=
  (List.range width).map fun k => charOf (value / radix ^ (width - 1 - k) % radix)

/-- `encode(value, radix, width)` = `STR_radix^width(value)`; `none` is `raise LengthExceeded`: it never
truncates (R104, R105). DESIGN CHOICE: a radix outside 2..36, for which R104 says nothing, follows the same formula
(log 25). -/
def encodeNumeral (value radix width : Nat) : Option Bytes :=
  if width = 0 ∨ radix ^ width ≤ value then none else some (render value radix width)

/-- `lower` of R106 for one character: 'A'..'Z' become 'a'..'z', the rest stay. -/
def lowerChar (ch : Byte) : Byte :=
  if 0x41 ≤ ch.toNat ∧ ch.toNat ≤ 0x5A then ch + 0x20 else ch

/-- `lower` of R106. -/
def lower (s : Bytes) : Bytes := s.map lowerChar

/-- `NUM(bytes)`: the big-endian value (R108). -/
def numBytes (x : Bytes) : Nat := x.foldl (fun acc b => acc * 256 + b.toNat) 0

/-- `bitlen(x)`: the least k with `x < 2^k` (00_scope.md R10). -/
def bitlen (x : Nat) : Nat := if x = 0 then 0 else Nat.log2 x + 1

/-- `clog2pow(radix, v) = bitlen(radix^v - 1)` (R112). DESIGN CHOICE: so also for a radix below 2 or `v = 0`, where R112
does not define it (log 25). -/
def clog2pow (radix v : Nat) : Nat := bitlen (radix ^ v - 1)

/-- The least `L` with `radix^L >= 10^6` (40_context.md R83); 20 lengths suffice for every radix above 1 (log 16). -/
def textMinDoc (radix : Nat) : Nat :=
  ((List.range 20).find? fun l => decide (Config.textMinDomain ≤ radix ^ l)).getD 20

/-- `txt_min(radix)`, enforced to be at least 2 (40_context.md R83, R84). -/
def textMin (radix : Nat) : Nat := max 2 (textMinDoc radix)

/-- `floor(192 / log2(radix))`: the greatest `L` with `radix^L <= 2^192` (40_context.md R85, log 16). -/
def ff31TextMaxDoc (radix : Nat) : Nat :=
  192 - ((List.range 192).find? fun k => decide (radix ^ (192 - k) ≤ 2 ^ 192)).getD 192

end Sys2Proof.Machine
end

