-- ==== Sys2Proof/Machine/State.lean ====
section
/-! DEFINITION. The state of the block (spec/10_state.md R13 to R38), the reasons a step can stop, and one update
function per field. -/

namespace Sys2Proof.Machine

/-- A byte buffer: a list of cells in canonical form (`Memory.Canonical` in Machine/Ops.lean). -/
abbrev Memory := List Host.Cell

/-- `CTX.alg` (10_state.md R22): 0 none, 1 FF1, 2 FF3-1; 3 never occurs (R16). -/
inductive Alg where
  | none
  | ff1
  | ff31
  deriving DecidableEq, Repr

/-- The sequencer's phase `PH` (10_state.md R31). -/
inductive Phase where
  | idle
  | check
  | setup
  | round
  | finish
  | fatal
  deriving DecidableEq, Repr

/-- The host registers that hold a value (10_state.md R16 to R19). `CMD` stores nothing (R15), the `CTX_*` registers
mirror the context store (R20), and the other `STATUS` bits are views (log 8). -/
structure HostRegs where
  /-- `STATUS.DONE`. -/
  done : Bool
  /-- `STATUS.ERR`. -/
  err : Bool
  /-- `ERRCODE[7:0]`. -/
  errcode : BitVec 8
  /-- `OUTLEN`. -/
  outlen : Word
  /-- `RADIX`. -/
  radix : Word
  /-- `KEYLEN`. -/
  keylen : Word
  /-- `TWKMIN`. -/
  twkmin : Word
  /-- `TWKMAX`. -/
  twkmax : Word
  /-- `TWKLEN`. -/
  twklen : Word
  /-- `TXTLEN`. -/
  txtlen : Word
  deriving DecidableEq, Repr

/-- The host buffers (10_state.md R21). -/
structure Buffers where
  key : Memory
  twk : Memory
  txt : Memory
  out : Memory
  deriving DecidableEq, Repr

/-- The context store (10_state.md R22). -/
structure Context where
  valid : Bool
  alg : Alg
  klen : Nat
  key : Bytes
  radix : Nat
  dtwklen : Nat
  dtwk : Bytes
  twkMin : Nat
  twkMax : Nat
  txtMin : Nat
  txtMax : Nat
  deriving DecidableEq, Repr

/-- The command latches (10_state.md R24). -/
structure Latches where
  cmd : Word
  radix : Word
  keylen : Word
  twkmin : Word
  twkmax : Word
  twklen : Word
  txtlen : Word
  key : Bytes
  twk : Bytes
  txt : Bytes
  deriving DecidableEq, Repr

/-- The working registers (10_state.md R25). -/
structure Work where
  /-- `DIR`. -/
  dir : Direction
  /-- `N`. -/
  n : Nat
  /-- `TL`. -/
  tl : Nat
  /-- `T`. -/
  t : Bytes
  /-- `U`. -/
  u : Nat
  /-- `V`. -/
  v : Nat
  /-- `BB`. -/
  bb : Nat
  /-- `DD`. -/
  dd : Nat
  /-- `QL`. -/
  ql : Nat
  /-- `A`. -/
  a : Bytes
  /-- `B`. -/
  b : Bytes
  /-- `P`. -/
  p : Bytes
  /-- `Q`. -/
  q : Bytes
  /-- `R`. -/
  r : Bytes
  /-- `S`. -/
  s : Bytes
  /-- `Y`. -/
  y : Nat
  /-- `M`. -/
  m : Nat
  /-- `C`. -/
  c : Nat
  /-- `TW0`. -/
  tw0 : Bytes
  /-- `TW1`. -/
  tw1 : Bytes
  deriving DecidableEq, Repr

/-- The whole machine: the classes of 10_state.md R13, and the model's own field `pending`. -/
structure State where
  /-- Host registers (R14 to R20). -/
  reg : HostRegs
  /-- Host buffers (R21). -/
  buf : Buffers
  /-- Context store (R22, R23). -/
  ctx : Context
  /-- Command latches (R24). -/
  lat : Latches
  /-- Working registers (R25 to R28). -/
  work : Work
  /-- `PH` (R31, R32). -/
  ph : Phase
  /-- `RND` (R31, R33). -/
  rnd : Nat
  /-- `CHAIN` (R34). -/
  chain : Bytes
  /-- `AESP.key`, which belongs to the AES primitive (R35). -/
  aespKey : Option Bytes
  /-- THE MODEL'S OWN: what the host does from here on and which agent moves next (log 1, log 6). -/
  pending : List Event
  deriving DecidableEq, Repr

/-- Why a step stops. -/
inductive Fault where
  /-- Raised by `step` alone, for a move of the engine in a phase for which 10_state.md R32 lists no transition:
  SETUP or ROUND with `CTX.alg = 0`, FINISH with an illegal `LAT.cmd`. SAFE: the model stops where the spec says
  nothing, and no state that a run reaches is such a state (log 9). -/
  | noTransition
  deriving DecidableEq, Repr

/-- Why an instruction has no meaning here. -/
inductive Refusal where
  /-- Raised by an arm of `exec` whose command has no meaning yet. SAFE: nothing is claimed of it. No arm of this
  model raises it. -/
  | notModelled (mnemonic : String)
  deriving DecidableEq, Repr

/-- No context (10_state.md R38). -/
def Context.empty : Context :=
  ⟨false, .none, 0, [], 0, 0, [], 0, 0, 0, 0⟩

/-- Latches after reset and after every completion (10_state.md R36, R38). -/
def Latches.zero : Latches :=
  ⟨0, 0, 0, 0, 0, 0, 0, [], [], []⟩

/-- Working registers after reset and after every completion (10_state.md R36, R38). -/
def Work.zero : Work :=
  ⟨.encrypt, 0, 0, [], 0, 0, 0, 0, 0, [], [], [], [], [], [], 0, 0, 0, [], []⟩

/-- The machine right after reset (10_state.md R38, 70_reset_and_hazards.md R231). -/
def State.reset : State where
  reg := ⟨false, false, 0, 0, 0, 0, 0, 0, 0, 0⟩
  buf := ⟨[], [], [], []⟩
  ctx := Context.empty
  lat := Latches.zero
  work := Work.zero
  ph := .idle
  rnd := 0
  chain := List.replicate 16 0
  aespKey := Option.none
  pending := []

/-- Write the host registers. -/
def State.withReg (s : State) (r : HostRegs) : State := { s with reg := r }
/-- Write the host buffers. -/
def State.withBuf (s : State) (b : Buffers) : State := { s with buf := b }
/-- Write the context store. -/
def State.withCtx (s : State) (c : Context) : State := { s with ctx := c }
/-- Write the latches. -/
def State.withLat (s : State) (l : Latches) : State := { s with lat := l }
/-- Write the working registers. -/
def State.withWork (s : State) (w : Work) : State := { s with work := w }
/-- `PH <- ph`. -/
def State.withPhase (s : State) (ph : Phase) : State := { s with ph := ph }
/-- `RND <- i`. -/
def State.withRound (s : State) (i : Nat) : State := { s with rnd := i }
/-- `CHAIN <- c`. -/
def State.withChain (s : State) (c : Bytes) : State := { s with chain := c }
/-- `AESP.key <- k`. -/
def State.withAespKey (s : State) (k : Option Bytes) : State := { s with aespKey := k }
/-- Replace what is still to happen. -/
def State.withPending (s : State) (es : List Event) : State := { s with pending := es }

end Sys2Proof.Machine
end

