-- ==== Sys2Proof/Machine/Flags.lean ====
section
/-! DEFINITION. The flag-like state (spec/10_state.md R16, R29): the fields of `STATUS`, how acceptance and the three
completions set them, and the error codes. No command computes an arithmetic flag (R29). -/

namespace Sys2Proof.Machine

/-- `STATUS.BUSY`: 1 while `PH` is not IDLE or FATAL (R16). -/
def Phase.busy : Phase → Bool
  | .idle => false
  | .check => true
  | .setup => true
  | .round => true
  | .finish => true
  | .fatal => false

/-- `STATUS.BUSY` (R16). -/
def State.busy (s : State) : Bool := s.ph.busy

/-- `STATUS.FATAL`: 1 when `PH = FATAL` (R16). -/
def State.fatal (s : State) : Bool := decide (s.ph = .fatal)

/-- The 2-bit code of `CTX.alg` (R16, R22). -/
def Alg.code : Alg → Nat
  | .none => 0
  | .ff1 => 1
  | .ff31 => 2

/-- `STATUS` as the host reads it; bits 31:7 read 0 (R16). -/
def State.statusWord (s : State) : Word :=
  BitVec.ofNat 32
    (s.busy.toNat + 2 * s.reg.done.toNat + 4 * s.reg.err.toNat + 8 * s.fatal.toNat + 16 * s.ctx.valid.toNat
      + 32 * s.ctx.alg.code)

/-- `code(E)` (60_exceptions.md R200). -/
def errorCode : ErrorName → BitVec 8
  | .invalidKeySize => 0x01
  | .invalidRadix => 0x02
  | .invalidTextLength => 0x03
  | .invalidTweakLength => 0x04
  | .invalidNumeral => 0x05
  | .lengthExceeded => 0x06
  | .invalidBlockLength => 0x07
  | .noContext => 0x10
  | .illegalCommand => 0x11

/-- Whether an error's class is fatal (60_exceptions.md R200, R205). -/
def errorIsFatal : ErrorName → Bool
  | .invalidKeySize => false
  | .invalidRadix => false
  | .invalidTextLength => false
  | .invalidTweakLength => false
  | .invalidNumeral => false
  | .lengthExceeded => true
  | .invalidBlockLength => true
  | .noContext => false
  | .illegalCommand => false

/-- What acceptance does to the host registers: `DONE`, `ERR`, `ERRCODE`, `OUTLEN` become 0 (20_memory.md R47). -/
def regsAccepted (r : HostRegs) : HostRegs :=
  { r with done := false, err := false, errcode := 0, outlen := 0 }

/-- What completion without error does to the host registers (60_exceptions.md R203). -/
def regsCompleted (r : HostRegs) : HostRegs :=
  { r with done := true, err := false, errcode := 0 }

/-- What ending with error `e`, recoverable or fatal, does to the host registers (60_exceptions.md R203, R205). -/
def regsFailed (e : ErrorName) (r : HostRegs) : HostRegs :=
  { r with done := true, err := true, errcode := errorCode e }

end Sys2Proof.Machine
end

