-- ==== Sys2Proof/Machine/Ops.lean ====
section
/-! DEFINITION. The shared operations: buffers, host accesses, acceptance of a command, and the ways a command ends
(spec/20_memory.md, spec/60_exceptions.md). -/

namespace Sys2Proof.Machine

/-! ### Buffers -/

/-- What a buffer byte that no cell lists reads as: 0x00, the reset value (10_state.md R38). -/
def Memory.unlisted : Byte := 0

/-- One byte of a buffer. -/
def Memory.read : Memory → Nat → Byte
  | [], _ => Memory.unlisted
  | (a, b) :: m, i => if a = i then b else Memory.read m i

/-- `BUF[i] <- v`, keeping the canonical form: writing the value of an unlisted byte removes the cell. -/
def Memory.write : Memory → Nat → Byte → Memory
  | [], i, v => if v = Memory.unlisted then [] else [(i, v)]
  | (a, b) :: m, i, v =>
    if i < a then
      if v = Memory.unlisted then (a, b) :: m else (i, v) :: (a, b) :: m
    else if i = a then
      if v = Memory.unlisted then m else (i, v) :: m
    else (a, b) :: Memory.write m i v

/-- `BUF[off .. off+len(vs)) <- vs`. -/
def Memory.store : Memory → Nat → Bytes → Memory
  | m, _, [] => m
  | m, off, v :: vs => Memory.store (Memory.write m off v) (off + 1) vs

/-- `BUF[0..n)`. -/
def Memory.load (m : Memory) (n : Nat) : Bytes := (List.range n).map fun i => Memory.read m i

/-- The canonical form: addresses strictly rising and no cell equal to what an unlisted byte reads as. -/
abbrev Memory.Canonical (m : Memory) : Prop :=
  m.Pairwise (fun x y => x.1 < y.1) ∧ ∀ c ∈ m, c.2 ≠ Memory.unlisted

/-- Every listed address is below `size`. -/
abbrev Memory.Within (m : Memory) (size : Nat) : Prop := ∀ c ∈ m, c.1 < size

/-- The bytes of a buffer (10_state.md R21). -/
def bufSize (p : Params) : BufName → Nat
  | .key => Config.keyBufferBytes
  | .twk => p.tCap
  | .txt => p.nCap
  | .out => p.nCap

/-- The cells of a buffer. -/
def Buffers.get (bs : Buffers) : BufName → Memory
  | .key => bs.key
  | .twk => bs.twk
  | .txt => bs.txt
  | .out => bs.out

/-- `BUF.b[i] <- v` for a host write: `OUT` ignores it (20_memory.md R42). -/
def Buffers.hostWrite (bs : Buffers) (b : BufName) (i : Nat) (v : Byte) : Buffers :=
  match b with
  | .key => { bs with key := bs.key.write i v }
  | .twk => { bs with twk := bs.twk.write i v }
  | .txt => { bs with txt := bs.txt.write i v }
  | .out => bs

/-! ### Moves of the engine and what they send on the AES port -/

/-- One AES-port transaction (43_keyed_block_function.md R133). Not state of the block (10_state.md R39). -/
inductive PortTxn where
  /-- `AesKeyLoad(k)`. -/
  | keyLoad (k : Bytes)
  /-- `AesEnc(x)` with the response it got. -/
  | enc (x y : Bytes)
  deriving DecidableEq, Repr

/-- A state that the engine has reached, with the AES-port transactions it made on the way, oldest first. -/
structure Move where
  state : State
  txns : List PortTxn
  deriving DecidableEq, Repr

/-- No move yet. -/
def Move.start (s : State) : Move := ⟨s, []⟩

/-- Change the state of a move. -/
def Move.update (m : Move) (f : State → State) : Move := ⟨f m.state, m.txns⟩

/-- Change the working registers. -/
def Move.updateWork (m : Move) (f : Work → Work) : Move := m.update fun s => s.withWork (f s.work)

/-- Record a transaction. -/
def Move.record (m : Move) (t : PortTxn) : Move := ⟨m.state, m.txns ++ [t]⟩

/-- A numbered step of a rule: it answers a value and goes on, or it raises an error (00_scope.md R10). -/
inductive Flow (α : Type) where
  | ok (a : α) (m : Move)
  | raised (e : ErrorName) (m : Move)

/-- Do one step and then the next; an error ends the sequence. -/
def Flow.andThen {α β : Type} (x : Flow α) (f : α → Move → Flow β) : Flow β :=
  match x with
  | .ok a m => f a m
  | .raised e m => .raised e m

/-- Take the value of an operation that may fail, raising `e` if it does. -/
def Flow.need {α : Type} (e : ErrorName) (x : Option α) (m : Move) : Flow α :=
  match x with
  | some a => .ok a m
  | none => .raised e m

/-- A step that cannot fail. -/
def Flow.set (m : Move) : Flow Unit := .ok () m

/-! ### Acceptance and completion -/

/-- The latches that acceptance of word `w` fills (10_state.md R24, 20_memory.md R47). -/
def latchOperands (p : Params) (w : Word) (r : HostRegs) (b : Buffers) : Latches where
  cmd := w
  radix := r.radix
  keylen := r.keylen
  twkmin := r.twkmin
  twkmax := r.twkmax
  twklen := r.twklen
  txtlen := r.txtlen
  key := b.key.load Config.keyBufferBytes
  twk := b.twk.load (min r.twklen.toNat p.tCap)
  txt := b.txt.load (min r.txtlen.toNat p.nCap)

/-- Acceptance of a `CMD` write in IDLE (20_memory.md R47). -/
def accept (p : Params) (w : Word) (s : State) : State :=
  ((s.withLat (latchOperands p w s.reg s.buf)).withReg (regsAccepted s.reg)).withPhase .check

/-- `MemWrite((REG, 0x00), 4, w)`: accepted in IDLE, ignored in every other phase (20_memory.md R47,
60_exceptions.md R218). -/
def writeCmd (p : Params) (w : Word) (s : State) : State :=
  match s.ph with
  | .idle => accept p w s
  | .check => s
  | .setup => s
  | .round => s
  | .finish => s
  | .fatal => s

/-- Zero the latches, the working registers, `CHAIN` and `RND` (10_state.md R36, 60_exceptions.md R203). -/
def zeroCommand (s : State) : State :=
  (((s.withLat Latches.zero).withWork Work.zero).withChain (zeroBytes Config.blockBytes)).withRound 0

/-- Complete without error (60_exceptions.md R203). -/
def completeOk (s : State) : State :=
  ((zeroCommand s).withReg (regsCompleted s.reg)).withPhase .idle

/-- Complete with the recoverable error `e` (60_exceptions.md R203). -/
def completeError (e : ErrorName) (s : State) : State :=
  ((zeroCommand s).withReg (regsFailed e s.reg)).withPhase .idle

/-- Stop with the fatal error `e` (60_exceptions.md R205). -/
def stopFatal (e : ErrorName) (s : State) : State :=
  ((zeroCommand s).withReg (regsFailed e s.reg)).withPhase .fatal

/-- `raise e`: this hardware's taking of an exception, by the error's class (00_scope.md R10, 60_exceptions.md R203,
R205). There is no handler and nothing to return to; the only way out of the fatal stop is `resetInput` (R206). -/
def raiseError (e : ErrorName) (s : State) : State :=
  if errorIsFatal e then stopFatal e s else completeError e s

/-- The move that a sequence of steps makes, its error settled. -/
def Flow.settle (x : Flow Unit) : Move :=
  match x with
  | .ok _ m => m
  | .raised e m => m.update (raiseError e)

/-- The reset input is asserted and released: every piece of state takes its reset value, in any phase; what the
host does afterwards stays (70_reset_and_hazards.md R230 to R233). -/
def resetInput (s : State) : State := State.reset.withPending s.pending

end Sys2Proof.Machine
end

