-- ==== Sys2Proof/Machine/Keyed.lean ====
section
/-! DEFINITION. The keyed block function and the AES port (spec/43_keyed_block_function.md). -/

namespace Sys2Proof.Machine

/-- The response of the AES primitive to `AesEnc(x)`: `AES(AESP.key, x)` (R133). With no key loaded, which R133
says does not occur, the response is the unspecified function at the empty key (log 4). DESIGN CHOICE: a request that
is not 16 bytes, which R133 does not have, gets that function's answer at it (log 25). -/
def aesResponse (p : Params) (key : Option Bytes) (x : Bytes) : Bytes := (p.aes (key.getD []) x).toList

/-- One `AesEnc` of `x`, its response put into `CHAIN` (R131 step 3, R133). -/
def chainBlock (p : Params) (x : Bytes) (m : Move) : Move :=
  (m.record (.enc x (aesResponse p m.state.aespKey x))).update fun s => s.withChain (aesResponse p s.aespKey x)

/-- R131 step 3 over the blocks in order. -/
def chainBlocks (p : Params) : List Bytes → Move → Move
  | [], m => m
  | blk :: rest, m => chainBlocks p rest (chainBlock p (xorBytes m.state.chain blk Config.blockBytes) m)

/-- `CHAIN <- 0^16` (R131 steps 2 and 5, R136). -/
def clearChain (m : Move) : Move := m.update fun s => s.withChain (zeroBytes Config.blockBytes)

/-- Steps 2 to 6 of R131 for an input of `k` blocks. -/
def prfBody (p : Params) (k : Nat) (x : Bytes) (m : Move) : Flow Bytes :=
  .ok (chainBlocks p (blocksOf k x) (clearChain m)).state.chain
    (clearChain (chainBlocks p (blocksOf k x) (clearChain m)))

/-- `prf(X)` (R131); a length that is not a positive multiple of 16 raises `InvalidBlockLength` before any
transaction (R137). -/
def prf (p : Params) (x : Bytes) (m : Move) : Flow Bytes :=
  if x.length = 0 ∨ x.length % Config.blockBytes ≠ 0 then .raised .invalidBlockLength m
  else prfBody p (x.length / Config.blockBytes) x m

/-- `ciph(x)`, the single-block `prf` (R132). DESIGN CHOICE: of an argument that is not exactly 16 bytes, for which R132
does not define it and which no engine gives it, it is `prf` too: the chain over 32, 48, ... bytes, and
`InvalidBlockLength` over any length that `prf` refuses (log 25). -/
def ciph (p : Params) (x : Bytes) (m : Move) : Flow Bytes := prf p x m

/-- `AesKeyLoad(k)` (R133, R134). DESIGN CHOICE: a key that is not 16, 24 or 32 bytes, which R133 does not have, is
loaded like any other (log 25). -/
def aesKeyLoad (k : Bytes) (m : Move) : Move :=
  (m.record (.keyLoad k)).update fun s => s.withAespKey (some k)

end Sys2Proof.Machine
end

