-- ==== Sys2Proof/Decode.lean ====
section
/-! DEFINITION. The command word: its fields, the decoder and the encoder (spec/30_encoding.md section 1). -/

namespace Sys2Proof

/-- `OP = w[3:0]` (R61). -/
def fieldOp (w : Word) : Nat := w.toNat % 16
/-- `ALG = w[5:4]` (R61). -/
def fieldAlg (w : Word) : Nat := w.toNat / 16 % 4
/-- `DIR = w[8]` (R61). -/
def fieldDir (w : Word) : Nat := w.toNat / 256 % 2
/-- `TWO = w[9]` (R61). -/
def fieldTwo (w : Word) : Nat := w.toNat / 512 % 2
/-- `RSV = w[7:6] + 4 * w[31:10]`, non-zero exactly when a must-be-zero bit is set (R61). -/
def fieldRsv (w : Word) : Nat := w.toNat / 64 % 4 + 4 * (w.toNat / 1024)

/-- Why a word is none of the six (R63). Each of them makes the command end with `IllegalCommand`. -/
inductive DecodeError where
  /-- `OP` is not 1 or 2. -/
  | reservedOp
  /-- `OP = 1` with `ALG` not 1 or 2. -/
  | contextAlg
  /-- `OP = 1` with `DIR` or `TWO` set. -/
  | contextFlag
  /-- `OP = 2` with `ALG` not 0. -/
  | cipherAlg
  /-- A must-be-zero bit is set. -/
  | mustBeZero
  deriving DecidableEq, Repr

/-- A context word whose must-be-zero bits are clear (R60, R63). -/
def decodeContext (w : Word) : Except DecodeError Instr :=
  if fieldDir w ≠ 0 ∨ fieldTwo w ≠ 0 then .error .contextFlag
  else if fieldAlg w = 1 then .ok .ctxFF1
  else if fieldAlg w = 2 then .ok .ctxFF31
  else .error .contextAlg

/-- A cipher word whose must-be-zero bits are clear (R60, R63). -/
def decodeCipher (w : Word) : Except DecodeError Instr :=
  if fieldAlg w ≠ 0 then .error .cipherAlg
  else if fieldDir w = 0 then
    if fieldTwo w = 0 then .ok .enc else .ok .encT
  else
    if fieldTwo w = 0 then .ok .dec else .ok .decT

/-- The decoder: total on words, and it refuses by name (R60 to R63). -/
def decode (w : Word) : Except DecodeError Instr :=
  if fieldRsv w ≠ 0 then .error .mustBeZero
  else if fieldOp w = 1 then decodeContext w
  else if fieldOp w = 2 then decodeCipher w
  else .error .reservedOp

/-- The word with the given fields, every other bit zero (R60). -/
def assemble (op alg dir two : Nat) : Word :=
  BitVec.ofNat 32 (op + 16 * alg + 256 * dir + 512 * two)

/-- The command's word, from its row of R62. -/
def encode : Instr → Word
  | .ctxFF1 => assemble 1 1 0 0
  | .ctxFF31 => assemble 1 2 0 0
  | .enc => assemble 2 0 0 0
  | .encT => assemble 2 0 0 1
  | .dec => assemble 2 0 1 0
  | .decT => assemble 2 0 1 1

/-- The direction flag that a word carries, `DIR <- LAT.cmd[8]` (10_state.md R28). -/
def wordDirection (w : Word) : Direction := if fieldDir w = 0 then .encrypt else .decrypt

/-- The 32-bit word whose low `nbits` bits are those of `w`, every higher bit zero. -/
def tableWord (nbits w : Nat) : Word := BitVec.ofNat 32 (w % 2 ^ nbits)

/-- What the decoder reads from the bits of an opcode-table row. A command is one 32-bit word (R60, R73), so
a row of more bits is none (log 19). -/
def decodeTableWord (nbits w : Nat) : Option Instr :=
  if 32 < nbits then none
  else
    match decode (tableWord nbits w) with
    | .ok i => some i
    | .error _ => none

end Sys2Proof
end

