-- ==== Sys2Proof/Machine/Operands.lean ====
section
/-! DEFINITION. Where a command's operands come from (spec/30_encoding.md R64): the latches, never the host registers or
buffers. -/

namespace Sys2Proof.Machine

/-- The key: `LAT.key[0..LAT.keylen)` (R64). -/
def Latches.keyOperand (l : Latches) : Bytes := slice l.key 0 l.keylen.toNat

/-- The default tweak of a context command: `LAT.twk[0..LAT.twklen)` (R64). -/
def Latches.tweakOperand (l : Latches) : Bytes := slice l.twk 0 l.twklen.toNat

/-- The input numeral string of a cipher command, `X = LAT.txt[0..LAT.txtlen)` (R64, 44_ff1_engine.md R147). -/
def Latches.textOperand (l : Latches) : Bytes := slice l.txt 0 l.txtlen.toNat

/-- The effective tweak's length `TL`: the override's for a word with `TWO` set, else the default's
(44_ff1_engine.md R146). -/
def effectiveTweakLength (l : Latches) (c : Context) : Nat :=
  if fieldTwo l.cmd = 1 then l.twklen.toNat else c.dtwklen

/-- The effective tweak `T` (44_ff1_engine.md R146). -/
def effectiveTweak (l : Latches) (c : Context) : Bytes :=
  if fieldTwo l.cmd = 1 then l.twk else c.dtwk

end Sys2Proof.Machine
end

