-- ==== Sys2Proof/Machine/Context.lean ====
section
/-! DEFINITION. FFX context construction (spec/40_context.md): the checks of phase CHECK and the commit of phase FINISH. -/

namespace Sys2Proof.Machine

/-- Key size (R81): the whole number in `LAT.keylen` is one of 16, 24, 32. -/
abbrev keySizeLegal (l : Latches) : Prop :=
  l.keylen.toNat = 16 ∨ l.keylen.toNat = 24 ∨ l.keylen.toNat = 32

/-- Radix (R82): the whole number in `LAT.radix` is in 2..36. -/
abbrev radixLegal (l : Latches) : Prop :=
  Config.radixMin ≤ l.radix.toNat ∧ l.radix.toNat ≤ Config.radixMax

/-- `tmax` of an FF1 context (R85, R87): `min(2^32, N_CAP)`. -/
def ff1TextMax (p : Params) : Nat := min Config.ff1TextMax p.nCap

/-- `tmax` of an FF3-1 context (R85, R87). -/
def ff31TextMax (p : Params) (radix : Nat) : Nat := min (ff31TextMaxDoc radix) p.nCap

/-- Steps 1 and 2 of R80 and R92 (R81, R82). -/
def keyRadixError (l : Latches) : Option ErrorName :=
  if ¬keySizeLegal l then some .invalidKeySize
  else if ¬radixLegal l then some .invalidRadix
  else none

/-- Steps 5 and 6 of R80: the tweak bounds and the default tweak (R89, R90). -/
def ff1TweakError (p : Params) (l : Latches) : Option ErrorName :=
  if l.twkmax.toNat < l.twkmin.toNat ∧ l.twkmax.toNat ≠ 0 then some .invalidTweakLength
  else if p.tCap < l.twklen.toNat then some .invalidTweakLength
  else if l.twklen.toNat < l.twkmin.toNat then some .invalidTweakLength
  else if l.twkmax.toNat ≠ 0 ∧ l.twkmax.toNat < l.twklen.toNat then some .invalidTweakLength
  else none

/-- The first failing check of `CTX.FF1`, in the order of R80 (R93). -/
def ctxFF1Error (p : Params) (l : Latches) : Option ErrorName :=
  match keyRadixError l with
  | some e => some e
  | none =>
    if ff1TextMax p < textMin l.radix.toNat then some .invalidTextLength else ff1TweakError p l

/-- The first failing check of `CTX.FF31`, in the order of R92 (R93). -/
def ctxFF31Error (p : Params) (l : Latches) : Option ErrorName :=
  match keyRadixError l with
  | some e => some e
  | none =>
    if ff31TextMax p l.radix.toNat < textMin l.radix.toNat then some .invalidTextLength
    else if l.twklen.toNat ≠ Config.ff31TweakBytes then some .invalidTweakLength
    else none

/-- Phase CHECK of a context command: fail, or go on to FINISH (10_state.md R32). -/
def settleCheck (e : Option ErrorName) (s : State) : State :=
  match e with
  | some e => raiseError e s
  | none => s.withPhase .finish

/-- Phase CHECK of `CTX.FF1` (R80). -/
def checkCtxFF1 (p : Params) (s : State) : State := settleCheck (ctxFF1Error p s.lat) s

/-- Phase CHECK of `CTX.FF31` (R92). -/
def checkCtxFF31 (p : Params) (s : State) : State := settleCheck (ctxFF31Error p s.lat) s

/-- The context that a successful `CTX.FF1` stores (R91): the raw input key. -/
def ctxFF1Context (p : Params) (l : Latches) : Context where
  valid := true
  alg := .ff1
  klen := l.keylen.toNat
  key := l.keyOperand
  radix := l.radix.toNat
  dtwklen := l.twklen.toNat
  dtwk := l.tweakOperand
  twkMin := l.twkmin.toNat
  twkMax := l.twkmax.toNat
  txtMin := textMin l.radix.toNat
  txtMax := ff1TextMax p

/-- The context that a successful `CTX.FF31` stores (R92): the key byte-reversed, the tweak bounds 7 and 7. -/
def ctxFF31Context (p : Params) (l : Latches) : Context where
  valid := true
  alg := .ff31
  klen := l.keylen.toNat
  key := revb l.keyOperand
  radix := l.radix.toNat
  dtwklen := Config.ff31TweakBytes
  dtwk := slice l.twk 0 Config.ff31TweakBytes
  twkMin := Config.ff31TweakBytes
  twkMax := Config.ff31TweakBytes
  txtMin := textMin l.radix.toNat
  txtMax := ff31TextMax p l.radix.toNat

/-- Store a context, load its key into the AES primitive and complete without error (R91, R134). -/
def commitContext (c : Context) (m : Move) : Move :=
  (aesKeyLoad c.key (m.update fun s => s.withCtx c)).update completeOk

/-- Phase FINISH of `CTX.FF1` (R91). -/
def commitCtxFF1 (p : Params) (m : Move) : Move := commitContext (ctxFF1Context p m.state.lat) m

/-- Phase FINISH of `CTX.FF31` (R92 step 6). -/
def commitCtxFF31 (p : Params) (m : Move) : Move := commitContext (ctxFF31Context p m.state.lat) m

end Sys2Proof.Machine
end

