-- ==== Sys2Proof/Machine/Cipher.lean ====
section
/-! DEFINITION. What the two engines share of a cipher command (spec/44_ff1_engine.md R145 to R149, R163; 45 R175, R190):
the front end, the round index, the width and the residue of a round, and the commit of a result. -/

namespace Sys2Proof.Machine

/-- Steps 2 to 4 of R145 up to `N`: `DIR`, the effective tweak and the text length (R146, R147, 10_state.md R28). -/
def takeOperands (s : State) : State :=
  s.withWork
    { s.work with
      dir := wordDirection s.lat.cmd
      tl := effectiveTweakLength s.lat s.ctx
      t := effectiveTweak s.lat s.ctx
      n := s.lat.txtlen.toNat }

/-- The text length check (R147). -/
def textLengthError (c : Context) (n : Nat) : Option ErrorName :=
  if n < c.txtMin ∨ c.txtMax < n then some .invalidTextLength else none

/-- The tweak length check (R148). -/
def tweakLengthError (p : Params) (c : Context) (tl : Nat) : Option ErrorName :=
  if p.tCap < tl then some .invalidTweakLength
  else if tl < c.twkMin then some .invalidTweakLength
  else if c.twkMax ≠ 0 ∧ c.twkMax < tl then some .invalidTweakLength
  else none

/-- Whether every character is a digit of the radix. -/
def allDigits (radix : Nat) (x : Bytes) : Bool := x.all fun ch => (digit ch radix).isSome

/-- The eager numeral check over the whole of X (R149). -/
def numeralError (c : Context) (x : Bytes) : Option ErrorName :=
  if allDigits c.radix x then none else some .invalidNumeral

/-- The first failing check of R145 steps 4 to 6, in that order. -/
def operandError (p : Params) (s : State) : Option ErrorName :=
  match textLengthError s.ctx s.work.n with
  | some e => some e
  | none =>
    match tweakLengthError p s.ctx s.work.tl with
    | some e => some e
    | none => numeralError s.ctx (slice s.lat.txt 0 s.work.n)

/-- Phase CHECK of a cipher command (R145). -/
def cipherFrontEnd (p : Params) (s : State) : State :=
  if s.ctx.valid = false then raiseError .noContext s
  else
    match operandError p (takeOperands s) with
    | some e => raiseError e (takeOperands s)
    | none => (takeOperands s).withPhase .setup

/-- Phase CHECK of `ENC` (R246). -/
def checkEnc (p : Params) (s : State) : State := cipherFrontEnd p s

/-- Phase CHECK of `ENC.T` (R247). -/
def checkEncT (p : Params) (s : State) : State := cipherFrontEnd p s

/-- Phase CHECK of `DEC` (R248). -/
def checkDec (p : Params) (s : State) : State := cipherFrontEnd p s

/-- Phase CHECK of `DEC.T` (R249). -/
def checkDecT (p : Params) (s : State) : State := cipherFrontEnd p s

/-- The round index r: the loop counter for encrypt, `rounds - 1 - RND` for decrypt (R155, 45 R178). DESIGN CHOICE: for
decrypt it is 0 once `RND` has reached `rounds`, where 10_state.md R33 has no round (log 25). -/
def roundIndex (rounds : Nat) (d : Direction) (rnd : Nat) : Nat :=
  match d with
  | .encrypt => rnd
  | .decrypt => rounds - 1 - rnd

/-- `M`: U when the round index is even, V when it is odd (R160, 45 R186). -/
def roundWidth (r u v : Nat) : Nat := if r % 2 = 0 then u else v

/-- `(a + y) mod k` for encrypt, `(a - y) mod k` for decrypt, the residue never negative (R161, 45 R188, R109). DESIGN
CHOICE: with `k = 0`, a division that 41_numeral_codec.md R109 says there is not, nothing is reduced, and a negative
difference counts as 0 (log 25). -/
def combine (d : Direction) (a y k : Nat) : Nat :=
  match d with
  | .encrypt => (a + y) % k
  | .decrypt => (((a : Int) - (y : Int)) % (k : Int)).toNat

/-- The two parts of X in the direction's order: the first is `A`, the second `B` (R150, 45 R176). -/
def splitHalves (d : Direction) (x : Bytes) (cut n : Nat) : Bytes × Bytes :=
  match d with
  | .encrypt => (slice x 0 cut, slice x cut n)
  | .decrypt => (slice x cut n, slice x 0 cut)

/-- The result: `A ++ B` for encrypt, `B ++ A` for decrypt (R163, 45 R190). -/
def joinHalves (d : Direction) (a b : Bytes) : Bytes :=
  match d with
  | .encrypt => a ++ b
  | .decrypt => b ++ a

/-- `RND <- RND + 1` and stay in ROUND, or go to FINISH after the last round (R162, 45 R189, 10_state.md R33, log 10). -/
def advanceRound (rounds : Nat) (s : State) : State :=
  if s.rnd + 1 < rounds then s.withRound (s.rnd + 1) else s.withPhase .finish

/-- `BUF.OUT[0..N) <- res; REG[OUTLEN] <- N` (R163, 45 R190). -/
def storeResult (res : Bytes) (n : Nat) (s : State) : State :=
  (s.withBuf { s.buf with out := s.buf.out.store 0 res }).withReg { s.reg with outlen := BitVec.ofNat 32 n }

/-- Phase FINISH of a cipher command (R163, 45 R190). -/
def commitResult (m : Move) : Move :=
  m.update fun s => completeOk (storeResult (joinHalves s.work.dir s.work.a s.work.b) s.work.n s)

end Sys2Proof.Machine
end

