-- ==== Sys2Proof/Machine/FF1.lean ====
section
/-! DEFINITION. The FF1 engine sequencer (spec/44_ff1_engine.md R150 to R162; block layouts 30_encoding.md R65 to R68). -/

namespace Sys2Proof.Machine

/-! ### Setup -/

/-- `BB = (clog2pow(radix, V) + 7) div 8` (R151). -/
def ff1ByteWidth (radix v : Nat) : Nat := (clog2pow radix v + 7) / 8

/-- `DD = 4 * ((BB + 3) div 4) + 4` (R152). -/
def ff1RandomBytes (bb : Nat) : Nat := 4 * ((bb + 3) / 4) + 4

/-- `pad = (-(t + b + 1)) mod 16` (R154, R66). -/
def ff1Pad (t b : Nat) : Nat := ((-((t : Int) + b + 1)) % 16).toNat

/-- The format version markers and the round-count constant of `P` (R65). -/
def ff1Markers : Bytes := [0x01, 0x02, 0x01]

/-- The header block `P` from its encoded fields (R65, R153). -/
def ff1HeaderBlock (radix3 : Bytes) (u : Nat) (n4 t4 : Bytes) : Bytes :=
  ff1Markers ++ radix3 ++ [BitVec.ofNat 8 Config.roundsFF1] ++ [BitVec.ofNat 8 (u % 256)] ++ n4 ++ t4

/-- R150: the split. -/
def ff1SplitStep (m : Move) : Flow Unit :=
  .set (m.update fun s =>
    s.withWork
      { s.work with
        u := s.work.n / 2
        v := s.work.n - s.work.n / 2
        a := (splitHalves s.work.dir s.lat.txt (s.work.n / 2) s.work.n).1
        b := (splitHalves s.work.dir s.lat.txt (s.work.n / 2) s.work.n).2 })

/-- R151: `BB`. -/
def ff1ByteWidthStep (m : Move) : Flow Unit :=
  .set (m.update fun s => s.withWork { s.work with bb := ff1ByteWidth s.ctx.radix s.work.v })

/-- R152: `DD`. -/
def ff1RandomBytesStep (m : Move) : Flow Unit :=
  .set (m.updateWork fun w => { w with dd := ff1RandomBytes w.bb })

/-- R153: the header block `P`. No field can fail to fit (42_byte_utilities.md R124). -/
def ff1HeaderStep (m : Move) : Flow Unit :=
  (Flow.need .lengthExceeded (be m.state.ctx.radix 3) m).andThen fun radix3 m =>
  (Flow.need .lengthExceeded (be m.state.work.n 4) m).andThen fun n4 m =>
  (Flow.need .lengthExceeded (be m.state.work.tl 4) m).andThen fun t4 m =>
  .set (m.updateWork fun w => { w with p := ff1HeaderBlock radix3 w.u n4 t4 })

/-- R154: the skeleton of `Q`. -/
def ff1SkeletonStep (m : Move) : Flow Unit :=
  .set (m.updateWork fun w =>
    { w with
      ql := w.tl + ff1Pad w.tl w.bb + 1 + w.bb
      q := w.t ++ zeroBytes (ff1Pad w.tl w.bb) ++ zeroBytes 1 ++ zeroBytes w.bb })

/-- `RND <- 0; PH <- ROUND` (R154, 45 R177). -/
def enterRounds (m : Move) : Flow Unit := .set (m.update fun s => (s.withRound 0).withPhase .round)

/-- Phase SETUP of an FF1 command (R150 to R154). -/
def ff1Setup (m : Move) : Move :=
  Flow.settle <|
    (ff1SplitStep m).andThen fun _ m =>
    (ff1ByteWidthStep m).andThen fun _ m =>
    (ff1RandomBytesStep m).andThen fun _ m =>
    (ff1HeaderStep m).andThen fun _ m =>
    (ff1SkeletonStep m).andThen fun _ m =>
    enterRounds m

/-! ### One round -/

/-- The round index of the present FF1 round (R155). -/
def ff1RoundIndex (s : State) : Nat := roundIndex Config.roundsFF1 s.work.dir s.rnd

/-- Step 1 (R155): `Q[QL - BB - 1] <- r`. -/
def ff1IndexStep (m : Move) : Flow Unit :=
  .set (m.update fun s =>
    s.withWork
      { s.work with q := storeAt s.work.q (s.work.ql - s.work.bb - 1) [BitVec.ofNat 8 (ff1RoundIndex s)] })

/-- Step 2 (R156): `Q[QL - BB .. QL) <- BE(NUM_radix(B), BB)`. -/
def ff1NumeralStep (m : Move) : Flow Unit :=
  (Flow.need .invalidNumeral (decodeNumeral m.state.work.b m.state.ctx.radix) m).andThen fun nb m =>
  (Flow.need .lengthExceeded (be nb m.state.work.bb) m).andThen fun e m =>
  .set (m.updateWork fun w => { w with q := storeAt w.q (w.ql - w.bb) e })

/-- Step 3 (R157): `R <- prf(P ++ Q)`. -/
def ff1PrfStep (p : Params) (m : Move) : Flow Unit :=
  (prf p (m.state.work.p ++ m.state.work.q) m).andThen fun r m =>
  .set (m.updateWork fun w => { w with r := r })

/-- `k`, the number of extension blocks: `ceil(DD / 16) - 1` (R158). -/
def ff1ExtensionCount (dd : Nat) : Nat := (dd + 15) / 16 - 1

/-- The extension block number `j`: `ciph(xor(R, 0^12 ++ BE(j, 4), 16))` appended to `S` (R158, 30 R67, R68). -/
def ff1ExtensionBlock (p : Params) (j : Nat) (m : Move) : Flow Unit :=
  (Flow.need .lengthExceeded (be j 4) m).andThen fun cnt m =>
  (ciph p (xorBytes m.state.work.r (zeroBytes 12 ++ cnt) Config.blockBytes) m).andThen fun ej m =>
  .set (m.updateWork fun w => { w with s := w.s ++ ej })

/-- The extension blocks in the order of the list. -/
def ff1ExtensionBlocks (p : Params) : List Nat → Move → Flow Unit
  | [], m => .set m
  | j :: js, m => (ff1ExtensionBlock p j m).andThen fun _ m => ff1ExtensionBlocks p js m

/-- Step 4 (R158): `S <- R ++ E_1 ++ ... ++ E_k`. -/
def ff1ExtendStep (p : Params) (m : Move) : Flow Unit :=
  ff1ExtensionBlocks p ((List.range (ff1ExtensionCount m.state.work.dd)).map (· + 1))
    (m.updateWork fun w => { w with s := w.r })

/-- Step 5 (R159): `Y <- NUM(S[0..DD)) mod 2^(8 * DD)`. -/
def ff1RandomStep (m : Move) : Flow Unit :=
  .set (m.updateWork fun w => { w with y := numBytes (slice w.s 0 w.dd) % 2 ^ (8 * w.dd) })

/-- Step 6 (R160): `M`. -/
def ff1WidthStep (m : Move) : Flow Unit :=
  .set (m.update fun s => s.withWork { s.work with m := roundWidth (ff1RoundIndex s) s.work.u s.work.v })

/-- Step 7 (R161): `C`. -/
def ff1ResidueStep (m : Move) : Flow Unit :=
  (Flow.need .invalidNumeral (decodeNumeral m.state.work.a m.state.ctx.radix) m).andThen fun na m =>
  .set (m.update fun s =>
    s.withWork { s.work with c := combine s.work.dir na s.work.y (s.ctx.radix ^ s.work.m) })

/-- Step 8 (R162): `A <- B; B <- encode(C, radix, M)`, and loop control. -/
def ff1SwapStep (m : Move) : Flow Unit :=
  (Flow.need .lengthExceeded (encodeNumeral m.state.work.c m.state.ctx.radix m.state.work.m) m).andThen fun e m =>
  .set ((m.updateWork fun w => { w with a := w.b, b := e }).update (advanceRound Config.roundsFF1))

/-- One FF1 round (R155 to R162). -/
def ff1Round (p : Params) (m : Move) : Move :=
  Flow.settle <|
    (ff1IndexStep m).andThen fun _ m =>
    (ff1NumeralStep m).andThen fun _ m =>
    (ff1PrfStep p m).andThen fun _ m =>
    (ff1ExtendStep p m).andThen fun _ m =>
    (ff1RandomStep m).andThen fun _ m =>
    (ff1WidthStep m).andThen fun _ m =>
    (ff1ResidueStep m).andThen fun _ m =>
    ff1SwapStep m

end Sys2Proof.Machine
end

