-- ==== Sys2Proof/Machine/FF31.lean ====
section
/-! DEFINITION. The FF3-1 engine sequencer (spec/45_ff3_1_engine.md R176 to R189; block layouts 30_encoding.md R69, R70).
It shares with FF1 only what spec/44_ff1_engine.md R174 says, and the entry to the rounds. -/

namespace Sys2Proof.Machine

/-! ### Setup -/

/-- `Tw[0] = T[0..3) ++ [16 * (T[3] div 16)]` (R177, 30 R70). DESIGN CHOICE: a byte 3 that a shorter tweak lacks, which
R148 rules out, counts as 0 (log 23). -/
def ff31TweakLeft (t : Bytes) : Bytes :=
  slice t 0 3 ++ [BitVec.ofNat 8 (16 * ((t.getD 3 0).toNat / 16))]

/-- `Tw[1] = T[4..7) ++ [16 * (T[3] mod 16)]` (R177, 30 R70). DESIGN CHOICE: a missing byte 3 counts as 0 (log 23). -/
def ff31TweakRight (t : Bytes) : Bytes :=
  slice t 4 7 ++ [BitVec.ofNat 8 (16 * ((t.getD 3 0).toNat % 16))]

/-- R176: the split; U is the larger half. -/
def ff31SplitStep (m : Move) : Flow Unit :=
  .set (m.update fun s =>
    s.withWork
      { s.work with
        v := s.work.n / 2
        u := s.work.n - s.work.n / 2
        a := (splitHalves s.work.dir s.lat.txt (s.work.n - s.work.n / 2) s.work.n).1
        b := (splitHalves s.work.dir s.lat.txt (s.work.n - s.work.n / 2) s.work.n).2 })

/-- R177: the tweak halves. -/
def ff31TweakStep (m : Move) : Flow Unit :=
  .set (m.updateWork fun w => { w with tw0 := ff31TweakLeft w.t, tw1 := ff31TweakRight w.t })

/-- Phase SETUP of an FF3-1 command (R176, R177). -/
def ff31Setup (m : Move) : Move :=
  Flow.settle <|
    (ff31SplitStep m).andThen fun _ m =>
    (ff31TweakStep m).andThen fun _ m =>
    enterRounds m

/-! ### One round -/

/-- The round index of the present FF3-1 round (R178). -/
def ff31RoundIndex (s : State) : Nat := roundIndex Config.roundsFF31 s.work.dir s.rnd

/-- `direction_offset`: 1 for encrypt, 0 for decrypt (R180). -/
def ff31Offset : Direction → Nat
  | .encrypt => 1
  | .decrypt => 0

/-- The selected tweak half, `Tw[(RND + off) mod 2]` (R179). -/
def ff31Half (s : State) : Bytes :=
  if (s.rnd + ff31Offset s.work.dir) % 2 = 0 then s.work.tw0 else s.work.tw1

/-- Byte 3 of a block exclusive-or'ed with the round index (R179). DESIGN CHOICE: a missing byte 3 counts as 0
(log 23). -/
def xorIndexByte (pblk : Bytes) (r : Nat) : Bytes :=
  storeAt pblk 3 [pblk.getD 3 0 ^^^ BitVec.ofNat 8 r]

/-- Step 1 (R179): `P[0..4) <- Tw[sel]; P[3] <- P[3] xor r`. -/
def ff31TweakBlockStep (m : Move) : Flow Unit :=
  .set (m.update fun s =>
    s.withWork { s.work with p := xorIndexByte (storeAt s.work.p 0 (ff31Half s)) (ff31RoundIndex s) })

/-- Step 2 (R181): `P[4..16) <- BE(NUM_radix(revs(B)), 12)`; `LengthExceeded` from 2^96 on (R182). -/
def ff31NumeralStep (m : Move) : Flow Unit :=
  (Flow.need .invalidNumeral (decodeNumeral (revs m.state.work.b) m.state.ctx.radix) m).andThen fun nb m =>
  (Flow.need .lengthExceeded (be nb Config.ff31NumBytes) m).andThen fun e m =>
  .set (m.updateWork fun w => { w with p := storeAt w.p 4 e })

/-- Step 3 (R183): `S <- revb(ciph(revb(P)))`. -/
def ff31CiphStep (p : Params) (m : Move) : Flow Unit :=
  (ciph p (revb m.state.work.p) m).andThen fun x m =>
  .set (m.updateWork fun w => { w with s := revb x })

/-- Step 4 (R185): `Y <- NUM(S) mod 2^128`. -/
def ff31RandomStep (m : Move) : Flow Unit :=
  .set (m.updateWork fun w => { w with y := numBytes w.s % 2 ^ 128 })

/-- Step 5 (R186): `M`. -/
def ff31WidthStep (m : Move) : Flow Unit :=
  .set (m.update fun s => s.withWork { s.work with m := roundWidth (ff31RoundIndex s) s.work.u s.work.v })

/-- Step 6 (R188): `C`. -/
def ff31ResidueStep (m : Move) : Flow Unit :=
  (Flow.need .invalidNumeral (decodeNumeral (revs m.state.work.a) m.state.ctx.radix) m).andThen fun na m =>
  .set (m.update fun s =>
    s.withWork { s.work with c := combine s.work.dir na s.work.y (s.ctx.radix ^ s.work.m) })

/-- Step 7 (R189): `A <- B; B <- revs(encode(C, radix, M))`, and loop control. -/
def ff31SwapStep (m : Move) : Flow Unit :=
  (Flow.need .lengthExceeded (encodeNumeral m.state.work.c m.state.ctx.radix m.state.work.m) m).andThen fun e m =>
  .set ((m.updateWork fun w => { w with a := w.b, b := revs e }).update (advanceRound Config.roundsFF31))

/-- One FF3-1 round (R178 to R189). -/
def ff31Round (p : Params) (m : Move) : Move :=
  Flow.settle <|
    (ff31TweakBlockStep m).andThen fun _ m =>
    (ff31NumeralStep m).andThen fun _ m =>
    (ff31CiphStep p m).andThen fun _ m =>
    (ff31RandomStep m).andThen fun _ m =>
    (ff31WidthStep m).andThen fun _ m =>
    (ff31ResidueStep m).andThen fun _ m =>
    ff31SwapStep m

end Sys2Proof.Machine
end

