-- ==== Sys2Proof/Machine/Sequencer.lean ====
section
/-! DEFINITION. The sequencer (spec/10_state.md R31 to R33): one phase transition of the engine, and a command run to its
end. -/

namespace Sys2Proof.Machine

/-- Phase CHECK of each command (30_encoding.md R62). -/
def checkCommand (p : Params) (i : Instr) (s : State) : State :=
  match i with
  | .ctxFF1 => checkCtxFF1 p s
  | .ctxFF31 => checkCtxFF31 p s
  | .enc => checkEnc p s
  | .encT => checkEncT p s
  | .dec => checkDec p s
  | .decT => checkDecT p s

/-- Phase CHECK: an illegal word fails before any operand is looked at (30_encoding.md R63). -/
def checkPhase (p : Params) (s : State) : State :=
  match decode s.lat.cmd with
  | .ok i => checkCommand p i s
  | .error _ => raiseError .illegalCommand s

/-- Phase SETUP, by the context's algorithm (44_ff1_engine.md R145 step 7). With `CTX.alg = 0`, which no run
reaches, there is no transition (log 9). -/
def setupPhase (m : Move) : Move :=
  match m.state.ctx.alg with
  | .none => m
  | .ff1 => ff1Setup m
  | .ff31 => ff31Setup m

/-- Phase ROUND: one round, by the context's algorithm (10_state.md R32, log 9). -/
def roundPhase (p : Params) (m : Move) : Move :=
  match m.state.ctx.alg with
  | .none => m
  | .ff1 => ff1Round p m
  | .ff31 => ff31Round p m

/-- Phase FINISH of each command: the commit (40_context.md R91, R92; 44_ff1_engine.md R163; 45 R190). -/
def finishCommand (p : Params) (i : Instr) (m : Move) : Move :=
  match i with
  | .ctxFF1 => commitCtxFF1 p m
  | .ctxFF31 => commitCtxFF31 p m
  | .enc => commitResult m
  | .encT => commitResult m
  | .dec => commitResult m
  | .decT => commitResult m

/-- Phase FINISH, by the command in `LAT.cmd` (log 13). With an illegal word there, which no run reaches, there is
no transition (log 9). -/
def finishPhase (p : Params) (m : Move) : Move :=
  match decode m.state.lat.cmd with
  | .ok i => finishCommand p i m
  | .error _ => m

/-- One phase transition of R32. In IDLE and FATAL the engine waits. -/
def engineMove (p : Params) (m : Move) : Move :=
  match m.state.ph with
  | .idle => m
  | .check => m.update (checkPhase p)
  | .setup => setupPhase m
  | .round => roundPhase p m
  | .finish => finishPhase p m
  | .fatal => m

/-- `k` transitions in a row. -/
def runEngine (p : Params) : Nat → Move → Move
  | 0, m => m
  | k + 1, m => runEngine p k (engineMove p m)

/-- The most transitions that can follow CHECK: SETUP, ten rounds, FINISH (R32, R33). -/
abbrev maxMovesAfterCheck : Nat := 12

/-- Whether R32 lists a transition, or the engine waits, in the phase the state is in (log 9). -/
def State.hasTransition (s : State) : Bool :=
  match s.ph with
  | .idle => true
  | .check => true
  | .setup => decide (s.ctx.alg ≠ .none)
  | .round => decide (s.ctx.alg ≠ .none)
  | .finish =>
    match decode s.lat.cmd with
    | .ok _ => true
    | .error _ => false
  | .fatal => true

/-- A whole command as one move (00_scope.md R9): a `CMD` write of `w` in IDLE is accepted, `check` is the command's
phase CHECK, and the engine runs to the command's end; in any other phase the write is ignored (60_exceptions.md
R218). -/
def runCommand (p : Params) (w : Word) (check : State → State) (s : State) : Move :=
  match s.ph with
  | .idle => runEngine p maxMovesAfterCheck (Move.start (check (accept p w s)))
  | .check => Move.start s
  | .setup => Move.start s
  | .round => Move.start s
  | .finish => Move.start s
  | .fatal => Move.start s

/-- A `CMD` write of an illegal word: accepted in IDLE, it completes with `IllegalCommand` (30_encoding.md R63,
60_exceptions.md R219). -/
def runIllegal (p : Params) (w : Word) (s : State) : Move :=
  runCommand p w (raiseError .illegalCommand) s

end Sys2Proof.Machine
end

