-- ==== Sys2Proof/Machine/CipherCommands.lean ====
section
/-! DEFINITION. The meanings of the cipher commands `ENC`, `ENC.T`, `DEC` and `DEC.T` (spec/44_ff1_engine.md R145, R246 to
R249; 45_ff3_1_engine.md R175). -/

namespace Sys2Proof.Machine

/-- `ENC` as one move (R246). -/
def moveEnc (p : Params) (s : State) : Move := runCommand p (encode .enc) (checkEnc p) s

/-- `ENC` (R246): encrypt with the context's default tweak. -/
def execEnc (s : State) : Host.Outcome State Fault Refusal := .next (moveEnc Config.hardware s).state

/-- `ENC.T` as one move (R247). -/
def moveEncT (p : Params) (s : State) : Move := runCommand p (encode .encT) (checkEncT p) s

/-- `ENC.T` (R247): encrypt with the tweak in `TWK`. -/
def execEncT (s : State) : Host.Outcome State Fault Refusal := .next (moveEncT Config.hardware s).state

/-- `DEC` as one move (R248). -/
def moveDec (p : Params) (s : State) : Move := runCommand p (encode .dec) (checkDec p) s

/-- `DEC` (R248): decrypt with the context's default tweak. -/
def execDec (s : State) : Host.Outcome State Fault Refusal := .next (moveDec Config.hardware s).state

/-- `DEC.T` as one move (R249). -/
def moveDecT (p : Params) (s : State) : Move := runCommand p (encode .decT) (checkDecT p) s

/-- `DEC.T` (R249): decrypt with the tweak in `TWK`. -/
def execDecT (s : State) : Host.Outcome State Fault Refusal := .next (moveDecT Config.hardware s).state

end Sys2Proof.Machine
end

