-- ==== Sys2Proof/Machine/ContextCommands.lean ====
section
/-! DEFINITION. The meanings of the context commands `CTX.FF1` and `CTX.FF31` (spec/40_context.md). -/

namespace Sys2Proof.Machine

/-- `CTX.FF1` as one move (R80 to R91). -/
def moveCtxFF1 (p : Params) (s : State) : Move := runCommand p (encode .ctxFF1) (checkCtxFF1 p) s

/-- `CTX.FF1` (R80 to R91). -/
def execCtxFF1 (s : State) : Host.Outcome State Fault Refusal := .next (moveCtxFF1 Config.hardware s).state

/-- `CTX.FF31` as one move (R92). -/
def moveCtxFF31 (p : Params) (s : State) : Move := runCommand p (encode .ctxFF31) (checkCtxFF31 p) s

/-- `CTX.FF31` (R92). -/
def execCtxFF31 (s : State) : Host.Outcome State Fault Refusal := .next (moveCtxFF31 Config.hardware s).state

end Sys2Proof.Machine
end

