-- ==== Sys2Proof/Machine/Dispatch.lean ====
section
/-! DEFINITION. One arm per command: the meaning that `exec` gives it. -/

namespace Sys2Proof.Machine

def exec (i : Instr) (s : State) : Host.Outcome State Fault Refusal :=
  match i with
  | .ctxFF1 => Sys2Proof.Machine.execCtxFF1 s
  | .ctxFF31 => Sys2Proof.Machine.execCtxFF31 s
  | .enc => Sys2Proof.Machine.execEnc s
  | .encT => Sys2Proof.Machine.execEncT s
  | .dec => Sys2Proof.Machine.execDec s
  | .decT => Sys2Proof.Machine.execDecT s

end Sys2Proof.Machine
end

