-- ==== Sys2Proof/Machine/HostPort.lean ====
section
/-! DEFINITION. The host's accesses (spec/20_memory.md R41 to R46, spec/10_state.md section 2) and what the block does
next. -/

namespace Sys2Proof.Machine

/-- The register at byte offset `4 * k`; offsets 0x40 and above hold nothing (10_state.md R14, 20_memory.md R43). -/
def regAt : Nat → Option RegName
  | 0 => some .cmd
  | 1 => some .status
  | 2 => some .errcode
  | 3 => some .outlen
  | 4 => some .radix
  | 5 => some .keylen
  | 6 => some .twkmin
  | 7 => some .twkmax
  | 8 => some .twklen
  | 9 => some .txtlen
  | 10 => some .ctxRadix
  | 11 => some .ctxTwkmin
  | 12 => some .ctxTwkmax
  | 13 => some .ctxTxtmin
  | 14 => some .ctxTxtmax
  | 15 => some .ctxDtwklen
  | _ + 16 => none

/-- The word index of a register: its byte offset of R14 divided by 4. -/
def regIndex : RegName → Nat
  | .cmd => 0
  | .status => 1
  | .errcode => 2
  | .outlen => 3
  | .radix => 4
  | .keylen => 5
  | .twkmin => 6
  | .twkmax => 7
  | .twklen => 8
  | .txtlen => 9
  | .ctxRadix => 10
  | .ctxTwkmin => 11
  | .ctxTwkmax => 12
  | .ctxTxtmin => 13
  | .ctxTxtmax => 14
  | .ctxDtwklen => 15

/-- A context read-back register: the field while `CTX.valid = 1`, else 0 (10_state.md R20, log 15). -/
def readBack (c : Context) (field : Nat) : Word :=
  if c.valid then BitVec.ofNat 32 field else 0

/-- `MemRead((REG, off), 4)` (20_memory.md R41). -/
def readReg (s : State) : RegName → Word
  | .cmd => 0
  | .status => s.statusWord
  | .errcode => s.reg.errcode.zeroExtend 32
  | .outlen => s.reg.outlen
  | .radix => s.reg.radix
  | .keylen => s.reg.keylen
  | .twkmin => s.reg.twkmin
  | .twkmax => s.reg.twkmax
  | .twklen => s.reg.twklen
  | .txtlen => s.reg.txtlen
  | .ctxRadix => readBack s.ctx s.ctx.radix
  | .ctxTwkmin => readBack s.ctx s.ctx.twkMin
  | .ctxTwkmax => readBack s.ctx s.ctx.twkMax
  | .ctxTxtmin => readBack s.ctx s.ctx.txtMin
  | .ctxTxtmax => readBack s.ctx s.ctx.txtMax
  | .ctxDtwklen => readBack s.ctx s.ctx.dtwklen

/-- `MemWrite((REG, off), 4, w)`: `CMD` issues a command, an operand register stores, a read-only register
ignores the write (20_memory.md R41). -/
def writeReg (p : Params) (w : Word) (s : State) : RegName → State
  | .cmd => writeCmd p w s
  | .radix => s.withReg { s.reg with radix := w }
  | .keylen => s.withReg { s.reg with keylen := w }
  | .twkmin => s.withReg { s.reg with twkmin := w }
  | .twkmax => s.withReg { s.reg with twkmax := w }
  | .twklen => s.withReg { s.reg with twklen := w }
  | .txtlen => s.withReg { s.reg with txtlen := w }
  | .status => s
  | .errcode => s
  | .outlen => s
  | .ctxRadix => s
  | .ctxTwkmin => s
  | .ctxTwkmax => s
  | .ctxTxtmin => s
  | .ctxTxtmax => s
  | .ctxDtwklen => s

/-- What a buffer byte inside its buffer reads as: `KEY` is write-only, `OUT` shows only its valid bytes
(20_memory.md R42, 10_state.md R21). -/
def readByteInside (s : State) (b : BufName) (i : Nat) : Byte :=
  match b with
  | .key => 0
  | .twk => s.buf.twk.read i
  | .txt => s.buf.txt.read i
  | .out => if i < s.reg.outlen.toNat then s.buf.out.read i else 0

/-- `MemRead((b, i), 1)`; at or beyond the buffer's size it returns 0 (20_memory.md R42, R43). -/
def readByte (p : Params) (s : State) (b : BufName) (i : Nat) : Byte :=
  if i < bufSize p b then readByteInside s b i else 0

/-- `MemWrite((b, i), 1, v)`; at or beyond the buffer's size it is ignored (20_memory.md R42, R43). -/
def writeByte (p : Params) (s : State) (b : BufName) (i : Nat) (v : Byte) : State :=
  if i < bufSize p b then s.withBuf (s.buf.hostWrite b i v) else s

/-- The value that the access returns to the host, zero-extended to 32 bits; a write returns none (20_memory.md R41
to R43). -/
def hostValue (p : Params) (s : State) : Access → Option Word
  | .regRead k =>
    match regAt k with
    | some r => some (readReg s r)
    | none => some 0
  | .regWrite _ _ => none
  | .bufRead b i => some ((readByte p s b i).zeroExtend 32)
  | .bufWrite _ _ _ => none

/-- What the access does to the block. A read does nothing (20_memory.md R54); a write where nothing stands is
ignored (R43). -/
def hostAccess (p : Params) (s : State) : Access → State
  | .regRead _ => s
  | .regWrite k w =>
    match regAt k with
    | some r => writeReg p w s r
    | none => s
  | .bufRead _ _ => s
  | .bufWrite b i v => writeByte p s b i v

/-- What happens next: the head of `pending`, and with nothing pending a move of the engine (log 6). -/
def State.nextEvent (s : State) : Event :=
  match s.pending with
  | [] => .engine
  | e :: _ => e

/-- The state once its next event has been taken. -/
def State.afterFetch (s : State) : State := s.withPending s.pending.tail

/-- The state whose next event is a `CMD` write of `w`, run to its command's end. -/
def State.issueNext (s : State) (w : Word) : State := s.withPending (.command w :: s.pending)

end Sys2Proof.Machine
end

