-- ==== Sys2Proof/Machine/Step.lean ====
section
/-! DEFINITION. One step of the machine: the next event happens. -/

namespace Sys2Proof.Machine

/-- A move of the engine; in a phase with no transition it faults by name (log 9). -/
def stepEngine (s : State) : Host.Outcome State Fault Refusal :=
  match s.hasTransition with
  | true => .next (engineMove Config.hardware (Move.start s)).state
  | false => .fault .noTransition

/-- A `CMD` write of `w`, run to its command's end: the decoded command, or the completion with `IllegalCommand`
(30_encoding.md R63). -/
def stepCommand (w : Word) (s : State) : Host.Outcome State Fault Refusal :=
  match decode w with
  | .ok i => exec i s
  | .error _ => .next (runIllegal Config.hardware w s).state

/-- What an event does. -/
def stepEvent (e : Event) (s : State) : Host.Outcome State Fault Refusal :=
  match e with
  | .access a => .next (hostAccess Config.hardware s a)
  | .command w => stepCommand w s
  | .engine => stepEngine s
  | .reset _ => .next (resetInput s)

/-- One step: take the next event, and let it happen. -/
def step (s : State) : Host.Outcome State Fault Refusal := stepEvent s.nextEvent s.afterFetch

/-- The state whose next step runs the command whose bits are `w`: the host's next action is the `CMD` write of that
word (log 1). -/
def State.withFetchWord (s : State) (nbits w : Nat) : State := s.issueNext (tableWord nbits w)

end Sys2Proof.Machine
end

