-- ==== Sys2Proof/Machine/Atomic.lean ====
section
/-! DEFINITION. The two ciphers as functions of their arguments, as the spec restates them (spec/44_ff1_engine.md R164,
45_ff3_1_engine.md R191, 43_keyed_block_function.md R131 in closed form). `step` does not use this file: statements compare
the engine with it. DESIGN CHOICE: on arguments that no checked command has, where the spec gives no value, they answer
what their formulas give (log 25). -/

namespace Sys2Proof.Machine

/-- `Y_j = AES(AESP.key, Y_(j-1) xor X_j)` over the blocks (43 R131). -/
def macChain (p : Params) (key : Option Bytes) : Bytes → List Bytes → Bytes
  | y, [] => y
  | y, x :: xs => macChain p key (aesResponse p key (xorBytes y x Config.blockBytes)) xs

/-- `prf(X)` in closed form, for an X of whole blocks (43 R131). -/
def prfValue (p : Params) (key : Option Bytes) (x : Bytes) : Bytes :=
  macChain p key (zeroBytes Config.blockBytes) (blocksOf (x.length / Config.blockBytes) x)

/-- `ciph(x) = AES(AESP.key, x)` (43 R132). -/
def ciphValue (p : Params) (key : Option Bytes) (x : Bytes) : Bytes := aesResponse p key x

/-- The transactions of the chain over the blocks, in block order (43 R131, R133). -/
def macTxns (p : Params) (key : Option Bytes) : Bytes → List Bytes → List PortTxn
  | _, [] => []
  | y, x :: xs =>
    .enc (xorBytes y x Config.blockBytes) (aesResponse p key (xorBytes y x Config.blockBytes))
      :: macTxns p key (aesResponse p key (xorBytes y x Config.blockBytes)) xs

/-- The transactions of `prf(X)` (43 R131). -/
def prfTxns (p : Params) (key : Option Bytes) (x : Bytes) : List PortTxn :=
  macTxns p key (zeroBytes Config.blockBytes) (blocksOf (x.length / Config.blockBytes) x)

/-- The transaction of `ciph(x)` (43 R132). -/
def ciphTxn (p : Params) (key : Option Bytes) (x : Bytes) : PortTxn := .enc x (ciphValue p key x)

/-- `NUM_radix(s)` of a string of digits (41 R102). -/
def numRadix (radix : Nat) (s : Bytes) : Nat := (decodeNumeral s radix).getD 0

/-! ### FF1 (R164) -/

/-- The header block `P` of an invocation: a function of radix, n and t (R164, R165). -/
def ff1P (radix n t : Nat) : Bytes :=
  ff1HeaderBlock (beBytes radix 3) (n / 2) (beBytes n 4) (beBytes t 4)

/-- `Q = T ++ 0^pad ++ [r] ++ BE(NUM_radix(B), b)` (R164). -/
def ff1Q (radix : Nat) (t : Bytes) (b r : Nat) (half : Bytes) : Bytes :=
  t ++ zeroBytes (ff1Pad t.length b) ++ [BitVec.ofNat 8 r] ++ beBytes (numRadix radix half) b

/-- The input `R xor (0^12 ++ BE(j, 4))` of extension block `j` (R158, 30 R67). -/
def ff1Counter (r : Bytes) (j : Nat) : Bytes := xorBytes r (zeroBytes 12 ++ beBytes j 4) Config.blockBytes

/-- `S = R ++ ciph(R xor (0^12 ++ BE(1,4))) ++ ...` up to `ceil(d/16) - 1` extension blocks (R164). -/
def ff1S (p : Params) (key : Option Bytes) (d : Nat) (r : Bytes) : Bytes :=
  r ++ ((List.range (ff1ExtensionCount d)).map fun j => ciphValue p key (ff1Counter r (j + 1))).flatten

/-- The input of the round's `prf`, `P ++ Q` (R164). -/
def ff1Input (radix n : Nat) (t : Bytes) (r : Nat) (half : Bytes) : Bytes :=
  ff1P radix n t.length ++ ff1Q radix t (ff1ByteWidth radix (n - n / 2)) r half

/-- `y` of the round with index r, from the half `B` (R164). -/
def ff1Y (p : Params) (key : Option Bytes) (radix n : Nat) (t : Bytes) (r : Nat) (half : Bytes) : Nat :=
  numBytes (slice
    (ff1S p key (ff1RandomBytes (ff1ByteWidth radix (n - n / 2))) (prfValue p key (ff1Input radix n t r half)))
    0 (ff1RandomBytes (ff1ByteWidth radix (n - n / 2))))

/-- The AES-port transactions of the round with index r: the `prf`, then the extension blocks (R171). -/
def ff1RoundTxns (p : Params) (key : Option Bytes) (radix n : Nat) (t : Bytes) (r : Nat) (half : Bytes) : List PortTxn :=
  prfTxns p key (ff1Input radix n t r half) ++
    (List.range (ff1ExtensionCount (ff1RandomBytes (ff1ByteWidth radix (n - n / 2))))).map fun j =>
      ciphTxn p key (ff1Counter (prfValue p key (ff1Input radix n t r half)) (j + 1))

/-- One round: `(A, B) = (B, encode(c, radix, m))` (R164). -/
def ff1RoundPair (p : Params) (key : Option Bytes) (radix n : Nat) (t : Bytes) (d : Direction) (i : Nat)
    (ab : Bytes × Bytes) : Bytes × Bytes :=
  let r := roundIndex Config.roundsFF1 d i
  let m := roundWidth r (n / 2) (n - n / 2)
  (ab.2, render (combine d (numRadix radix ab.1) (ff1Y p key radix n t r ab.2) (radix ^ m)) radix m)

/-- The halves after the rounds numbered in the list. -/
def ff1Halves (p : Params) (key : Option Bytes) (radix n : Nat) (t : Bytes) (d : Direction) :
    List Nat → Bytes × Bytes → Bytes × Bytes
  | [], ab => ab
  | i :: is, ab => ff1Halves p key radix n t d is (ff1RoundPair p key radix n t d i ab)

/-- The AES-port transactions of the rounds numbered in the list, from the halves `ab` on (R171). -/
def ff1RoundsTxns (p : Params) (key : Option Bytes) (radix n : Nat) (t : Bytes) (d : Direction) :
    List Nat → Bytes × Bytes → List PortTxn
  | [], _ => []
  | i :: is, ab =>
    ff1RoundTxns p key radix n t (roundIndex Config.roundsFF1 d i) ab.2
      ++ ff1RoundsTxns p key radix n t d is (ff1RoundPair p key radix n t d i ab)

/-- `FF1(dir, T, X)` of R164, for arguments that pass the checks. -/
def ff1Cipher (p : Params) (key : Option Bytes) (radix : Nat) (d : Direction) (t x : Bytes) : Bytes :=
  let ab := ff1Halves p key radix x.length t d (List.range Config.roundsFF1)
    (splitHalves d x (x.length / 2) x.length)
  joinHalves d ab.1 ab.2

/-- The AES-port transactions of the whole invocation (R171). -/
def ff1Txns (p : Params) (key : Option Bytes) (radix : Nat) (d : Direction) (t x : Bytes) : List PortTxn :=
  ff1RoundsTxns p key radix x.length t d (List.range Config.roundsFF1) (splitHalves d x (x.length / 2) x.length)

/-! ### FF3-1 (R191) -/

/-- `P` of a round: the tweak half for the round index with byte 3 xor r, and the 12-byte numeral (R191). -/
def ff31P (t : Bytes) (r nb : Nat) : Bytes :=
  xorIndexByte (if r % 2 = 0 then ff31TweakRight t else ff31TweakLeft t) r ++ beBytes nb Config.ff31NumBytes

/-- `y = NUM(S)` with `S = revb(AES(key, revb(P)))` (R191). -/
def ff31Y (p : Params) (key : Option Bytes) (t : Bytes) (r nb : Nat) : Nat :=
  numBytes (revb (ciphValue p key (revb (ff31P t r nb))))

/-- One round; `none` is the fatal `LengthExceeded` of the 12-byte field (R191, R182). -/
def ff31RoundPair (p : Params) (key : Option Bytes) (radix n : Nat) (t : Bytes) (d : Direction) (i : Nat)
    (ab : Bytes × Bytes) : Option (Bytes × Bytes) :=
  let r := roundIndex Config.roundsFF31 d i
  let m := roundWidth r (n - n / 2) (n / 2)
  let nb := numRadix radix (revs ab.2)
  if 2 ^ 96 ≤ nb then none
  else
    some (ab.2,
      revs (render (combine d (numRadix radix (revs ab.1)) (ff31Y p key t r nb) (radix ^ m)) radix m))

/-- The halves after the rounds numbered in the list, or the fatal stop. -/
def ff31Halves (p : Params) (key : Option Bytes) (radix n : Nat) (t : Bytes) (d : Direction) :
    List Nat → Bytes × Bytes → Option (Bytes × Bytes)
  | [], ab => some ab
  | i :: is, ab =>
    match ff31RoundPair p key radix n t d i ab with
    | some ab' => ff31Halves p key radix n t d is ab'
    | none => none

/-- The AES-port transactions of the rounds numbered in the list, one per completed round (45 R196). -/
def ff31RoundsTxns (p : Params) (key : Option Bytes) (radix n : Nat) (t : Bytes) (d : Direction) :
    List Nat → Bytes × Bytes → List PortTxn
  | [], _ => []
  | i :: is, ab =>
    match ff31RoundPair p key radix n t d i ab with
    | some ab' =>
      ciphTxn p key (revb (ff31P t (roundIndex Config.roundsFF31 d i) (numRadix radix (revs ab.2))))
        :: ff31RoundsTxns p key radix n t d is ab'
    | none => []

/-- The AES-port transactions of the whole invocation (45 R196). -/
def ff31Txns (p : Params) (key : Option Bytes) (radix : Nat) (d : Direction) (t x : Bytes) : List PortTxn :=
  ff31RoundsTxns p key radix x.length t d (List.range Config.roundsFF31)
    (splitHalves d x (x.length - x.length / 2) x.length)

/-- `FF31(dir, T, X)` of R191, for arguments that pass the checks; `none` is the fatal stop. -/
def ff31Cipher (p : Params) (key : Option Bytes) (radix : Nat) (d : Direction) (t x : Bytes) : Option Bytes :=
  match ff31Halves p key radix x.length t d (List.range Config.roundsFF31)
      (splitHalves d x (x.length - x.length / 2) x.length) with
  | some ab => some (joinHalves d ab.1 ab.2)
  | none => none

end Sys2Proof.Machine
end

