-- ==== Sys2Proof/Machine/Observe.lean ====
section
/-! DEFINITION. The observable behaviour (spec/00_scope.md R9): what the host reads, and the AES-port transactions in
order. Both are functions of the state a step starts from; 10_state.md R39 keeps them out of the state (log 7). -/

namespace Sys2Proof.Machine

/-- A command as one move, with its transactions. -/
def moveCommand (p : Params) (i : Instr) (s : State) : Move :=
  match i with
  | .ctxFF1 => moveCtxFF1 p s
  | .ctxFF31 => moveCtxFF31 p s
  | .enc => moveEnc p s
  | .encT => moveEncT p s
  | .dec => moveDec p s
  | .decT => moveDecT p s

/-- A `CMD` write of any word, run to its command's end. -/
def moveWord (p : Params) (w : Word) (s : State) : Move :=
  match decode w with
  | .ok i => moveCommand p i s
  | .error _ => runIllegal p w s

/-- What the host and the AES primitive see of one step. -/
structure Observation where
  /-- The value a read returned. -/
  value : Option Word
  /-- The AES-port transactions made, oldest first. -/
  port : List PortTxn
  deriving DecidableEq, Repr

/-- What is seen when event `e` happens in state `s`. -/
def observeEvent (p : Params) (s : State) : Event → Observation
  | .access a => ⟨hostValue p s a, []⟩
  | .command w => ⟨none, (moveWord p w s).txns⟩
  | .engine => ⟨none, (engineMove p (Move.start s)).txns⟩
  | .reset k => ⟨none, (engineMove p (Move.start s)).txns.take k⟩

/-- What is seen of the step that `s` is about to make. -/
def observe (p : Params) (s : State) : Observation := observeEvent p s.afterFetch s.nextEvent

end Sys2Proof.Machine
end

