-- ==== Sys2Proof/Machine/Script.lean ====
section
/-! DEFINITION. The host script lines and pseudo-instructions (spec/30_encoding.md R74, R75) as events. -/

namespace Sys2Proof.Machine

/-- A line of a host script. -/
inductive ScriptLine where
  /-- `WR reg, value`; `WR CMD, word` is the access of a `CMD` line with that word (R74). -/
  | wr (r : RegName) (v : Word)
  /-- `RD reg`. -/
  | rd (r : RegName)
  /-- `WRB buf[i], byte`. -/
  | wrb (b : BufName) (i : Nat) (v : Byte)
  /-- `RDB buf[i]`. -/
  | rdb (b : BufName) (i : Nat)
  /-- `CMD mnemonic`. -/
  | cmd (i : Instr)
  /-- `RESET`. -/
  | reset
  /-- `LOADH buf, hex string` and `LOADS buf, "text"`: the bytes, from index 0. -/
  | load (b : BufName) (vs : Bytes)
  /-- `WAIT`, with `k` reads of `STATUS` (how many is not specified, R242; log 21). -/
  | wait (k : Nat)
  /-- `READS OUT` when `OUTLEN` reads `n`. -/
  | reads (n : Nat)
  deriving DecidableEq, Repr

/-- `WRB buf[k], byte k` for the bytes from index `i` on (R75). -/
def loadEvents (b : BufName) : Nat → Bytes → List Event
  | _, [] => []
  | i, v :: vs => .access (.bufWrite b i v) :: loadEvents b (i + 1) vs

/-- What `WR reg, value` makes happen. DESIGN CHOICE: a write of `CMD` runs its command to its end before the next
line, one of the interleavings that 70_reset_and_hazards.md R244 leaves open (log 24). -/
def writeEvents (r : RegName) (v : Word) : List Event :=
  if r = .cmd then [.command v] else [.access (.regWrite (regIndex r) v)]

/-- What a line makes happen (R74, R75). DESIGN CHOICE: a line that writes `CMD` runs its command to its end before
the next line (log 24), and `RESET` falls between two commands, before any request of one (log 5). -/
def ScriptLine.events : ScriptLine → List Event
  | .wr r v => writeEvents r v
  | .rd r => [.access (.regRead (regIndex r))]
  | .wrb b i v => [.access (.bufWrite b i v)]
  | .rdb b i => [.access (.bufRead b i)]
  | .cmd i => writeEvents .cmd (encode i)
  | .reset => [.reset 0]
  | .load b vs => loadEvents b 0 vs
  | .wait k => List.replicate k (.access (.regRead (regIndex .status)))
  | .reads n =>
    .access (.regRead (regIndex .outlen)) :: (List.range n).map fun k => .access (.bufRead .out k)

/-- A script's events, line after line. -/
def scriptEvents (ls : List ScriptLine) : List Event := (ls.map ScriptLine.events).flatten

end Sys2Proof.Machine
end

