-- ==== Sys2Proof/Safety.lean ====
section
/-! DEFINITION. What the claims mean by a safe state: the invariants that the spec's rules give the block. -/

namespace Sys2Proof.Machine

/-- The block has not stopped on a fatal error (spec/60_exceptions.md R205). -/
def NotFatal (s : State) : Prop := s.ph ≠ .fatal

/-- Every buffer is in canonical form and lists no address at or beyond its size (10_state.md R21). -/
structure BuffersCanonical (p : Params) (s : State) : Prop where
  key : Memory.Canonical s.buf.key ∧ Memory.Within s.buf.key (bufSize p .key)
  twk : Memory.Canonical s.buf.twk ∧ Memory.Within s.buf.twk (bufSize p .twk)
  txt : Memory.Canonical s.buf.txt ∧ Memory.Within s.buf.txt (bufSize p .txt)
  out : Memory.Canonical s.buf.out ∧ Memory.Within s.buf.out (bufSize p .out)

/-- The relations between the fields of `STATUS`, `ERRCODE` and `OUTLEN` (10_state.md R16, R17, R18, R37). -/
structure StatusConsistent (s : State) : Prop where
  busy_clear : s.busy = true → s.reg.done = false ∧ s.reg.err = false ∧ s.reg.outlen = 0
  err_done : s.reg.err = true → s.reg.done = true ∧ s.reg.outlen = 0
  fatal_err : s.ph = .fatal → s.reg.done = true ∧ s.reg.err = true
  no_error : s.reg.err = false → s.reg.errcode = 0
  error_code : s.reg.err = true → ∃ e, s.reg.errcode = errorCode e

/-- What construction has established of a valid context (10_state.md R22, R35; 40_context.md R80, R92). -/
structure ContextLegal (p : Params) (c : Context) : Prop where
  alg : c.alg ≠ .none
  klen : c.klen = 16 ∨ c.klen = 24 ∨ c.klen = 32
  key : c.key.length = c.klen
  radix : Config.radixMin ≤ c.radix ∧ c.radix ≤ Config.radixMax
  dtwk : c.dtwk.length = c.dtwklen
  dtwk_fits : c.dtwklen ≤ p.tCap
  twk_bounds : c.twkMin ≤ c.twkMax ∨ c.twkMax = 0
  dtwk_low : c.twkMin ≤ c.dtwklen
  dtwk_high : c.twkMax ≠ 0 → c.dtwklen ≤ c.twkMax
  twk_words : c.twkMin < 2 ^ 32 ∧ c.twkMax < 2 ^ 32
  ff31_tweak : c.alg = .ff31 → c.twkMin = 7 ∧ c.twkMax = 7
  txt_min : c.txtMin = textMin c.radix
  txt_max : c.txtMax = if c.alg = .ff31 then ff31TextMax p c.radix else ff1TextMax p
  txt_bounds : c.txtMin ≤ c.txtMax

/-- The context store and the AES primitive's key agree (10_state.md R22, R35): with a valid context the primitive
holds its key, with none the store is empty and the primitive holds no key. -/
def ContextConsistent (p : Params) (s : State) : Prop :=
  if s.ctx.valid then ContextLegal p s.ctx ∧ s.aespKey = some s.ctx.key
  else s.ctx = Context.empty ∧ s.aespKey = none

/-- Between steps `CHAIN` is zero (10_state.md R34, 70_reset_and_hazards.md R238), and between commands so is everything
that lives only during a command (10_state.md R36). -/
structure QuietWhenIdle (s : State) : Prop where
  chain : s.chain = zeroBytes Config.blockBytes
  zeroed : s.busy = false → s.lat = Latches.zero ∧ s.work = Work.zero ∧ s.rnd = 0

/-- The lengths of the latched byte strings (10_state.md R24). -/
structure LatchesSized (p : Params) (l : Latches) : Prop where
  key : l.key.length = Config.keyBufferBytes
  twk : l.twk.length = min l.twklen.toNat p.tCap
  txt : l.txt.length = min l.txtlen.toNat p.nCap

/-- Whether a command is a cipher command (`OP = 2`, 30_encoding.md R60). -/
def isCipher : Instr → Bool
  | .ctxFF1 => false
  | .ctxFF31 => false
  | .enc => true
  | .encT => true
  | .dec => true
  | .decT => true

/-- What phase CHECK has established of a cipher command (44_ff1_engine.md R145 to R149). -/
structure OperandsChecked (p : Params) (s : State) : Prop where
  latched : LatchesSized p s.lat
  valid : s.ctx.valid = true
  cipher : ∃ i, decode s.lat.cmd = .ok i ∧ isCipher i = true
  dir : s.work.dir = wordDirection s.lat.cmd
  n : s.work.n = s.lat.txtlen.toNat
  n_bounds : s.ctx.txtMin ≤ s.work.n ∧ s.work.n ≤ s.ctx.txtMax
  t : s.work.t.length = s.work.tl
  t_fits : s.work.tl ≤ p.tCap
  t_low : s.ctx.twkMin ≤ s.work.tl
  t_high : s.ctx.twkMax ≠ 0 → s.work.tl ≤ s.ctx.twkMax
  digits : allDigits s.ctx.radix (slice s.lat.txt 0 s.work.n) = true

/-- Before SETUP only the operands have been put into the working registers (10_state.md R25, R36). -/
def OperandsOnly (s : State) : Prop :=
  s.work = { Work.zero with dir := s.work.dir, n := s.work.n, tl := s.work.tl, t := s.work.t } ∧ s.rnd = 0

/-- The halves during the rounds, the present round index being `r` (10_state.md R26; 44_ff1_engine.md R160). -/
structure HalvesShaped (radix r : Nat) (w : Work) : Prop where
  a : w.a.length = roundWidth r w.u w.v
  b : w.b.length = roundWidth (r + 1) w.u w.v
  a_digits : allDigits radix w.a = true
  b_digits : allDigits radix w.b = true

/-- The working registers during the FF1 rounds (44_ff1_engine.md R150 to R162). -/
structure FF1Shaped (s : State) : Prop where
  rnd : s.rnd < Config.roundsFF1
  u : s.work.u = s.work.n / 2
  v : s.work.v = s.work.n - s.work.n / 2
  halves : HalvesShaped s.ctx.radix (ff1RoundIndex s) s.work
  bb : s.work.bb = ff1ByteWidth s.ctx.radix s.work.v
  dd : s.work.dd = ff1RandomBytes s.work.bb
  ql : s.work.ql = s.work.tl + ff1Pad s.work.tl s.work.bb + 1 + s.work.bb
  p : s.work.p = ff1P s.ctx.radix s.work.n s.work.tl
  q : s.work.q.length = s.work.ql
  q_tweak : slice s.work.q 0 (s.work.ql - s.work.bb - 1) = s.work.t ++ zeroBytes (ff1Pad s.work.tl s.work.bb)

/-- The working registers during the FF3-1 rounds; FF1's own stay zero or empty (45_ff3_1_engine.md R175 to R189). -/
structure FF31Shaped (s : State) : Prop where
  rnd : s.rnd < Config.roundsFF31
  v : s.work.v = s.work.n / 2
  u : s.work.u = s.work.n - s.work.n / 2
  halves : HalvesShaped s.ctx.radix (ff31RoundIndex s) s.work
  tw0 : s.work.tw0 = ff31TweakLeft s.work.t
  tw1 : s.work.tw1 = ff31TweakRight s.work.t
  p : s.work.p.length = 0 ∨ s.work.p.length = Config.blockBytes
  unused : s.work.bb = 0 ∧ s.work.dd = 0 ∧ s.work.ql = 0 ∧ s.work.q = [] ∧ s.work.r = []

/-- What phase FINISH commits: a context whose checks have passed, or a result of N digits (40_context.md R91, R92;
44_ff1_engine.md R163). -/
def CommitReady (p : Params) (s : State) (i : Instr) : Prop :=
  match i with
  | .ctxFF1 => LatchesSized p s.lat ∧ ctxFF1Error p s.lat = none
  | .ctxFF31 => LatchesSized p s.lat ∧ ctxFF31Error p s.lat = none
  | .enc => OperandsChecked p s ∧ s.work.a.length + s.work.b.length = s.work.n
  | .encT => OperandsChecked p s ∧ s.work.a.length + s.work.b.length = s.work.n
  | .dec => OperandsChecked p s ∧ s.work.a.length + s.work.b.length = s.work.n
  | .decT => OperandsChecked p s ∧ s.work.a.length + s.work.b.length = s.work.n

/-- What holds of the latches and the working registers in each phase (10_state.md R32). -/
def PhaseConsistent (p : Params) (s : State) : Prop :=
  match s.ph with
  | .idle => True
  | .check => LatchesSized p s.lat ∧ s.work = Work.zero ∧ s.rnd = 0
  | .setup => OperandsChecked p s ∧ OperandsOnly s
  | .round =>
    OperandsChecked p s ∧
      match s.ctx.alg with
      | .none => False
      | .ff1 => FF1Shaped s
      | .ff31 => FF31Shaped s
  | .finish => ∃ i, decode s.lat.cmd = .ok i ∧ CommitReady p s i
  | .fatal => True

/-- The invariant of the block. -/
structure Inv (p : Params) (s : State) : Prop where
  buffers : BuffersCanonical p s
  status : StatusConsistent s
  context : ContextConsistent p s
  quiet : QuietWhenIdle s
  phase : PhaseConsistent p s

/-! ### The operands at the instant of the `CMD` write (10_state.md R24, 30_encoding.md R64) -/

/-- `KEY[0..KEYLEN)`. -/
def keyInput (s : State) : Bytes := s.buf.key.load s.reg.keylen.toNat

/-- `TWK[0..TWKLEN)`. -/
def tweakInput (s : State) : Bytes := s.buf.twk.load s.reg.twklen.toNat

/-- `TXT[0..TXTLEN)`, the string X. -/
def textInput (s : State) : Bytes := s.buf.txt.load s.reg.txtlen.toNat

/-- The direction of a cipher command (44_ff1_engine.md R246 to R249); a context command has none. -/
def cipherDirection : Instr → Direction
  | .ctxFF1 => .encrypt
  | .ctxFF31 => .encrypt
  | .enc => .encrypt
  | .encT => .encrypt
  | .dec => .decrypt
  | .decT => .decrypt

/-- Whether a cipher command supplies a tweak override (44_ff1_engine.md R246 to R249). -/
def cipherOverride : Instr → Bool
  | .ctxFF1 => false
  | .ctxFF31 => false
  | .enc => false
  | .encT => true
  | .dec => false
  | .decT => true

/-- The tweak in use: the override, else the context's default (44_ff1_engine.md R146). -/
def callTweak (i : Instr) (s : State) : Bytes := if cipherOverride i then tweakInput s else s.ctx.dtwk

/-- The length of the tweak in use (44_ff1_engine.md R146). -/
def callTweakLength (i : Instr) (s : State) : Nat := if cipherOverride i then s.reg.twklen.toNat else s.ctx.dtwklen

/-- The text length check passes (44_ff1_engine.md R147). -/
def textLengthLegal (s : State) : Prop := s.ctx.txtMin ≤ s.reg.txtlen.toNat ∧ s.reg.txtlen.toNat ≤ s.ctx.txtMax

/-- The tweak length check passes (44_ff1_engine.md R148). -/
def tweakLengthLegal (p : Params) (i : Instr) (s : State) : Prop :=
  callTweakLength i s ≤ p.tCap ∧ s.ctx.twkMin ≤ callTweakLength i s ∧
    (s.ctx.twkMax ≠ 0 → callTweakLength i s ≤ s.ctx.twkMax)

/-- Every character of X is a digit of the context's radix (44_ff1_engine.md R149). -/
def numeralsLegal (s : State) : Prop := ∀ ch ∈ textInput s, ∃ d, digit ch s.ctx.radix = some d

/-- The four checks of a cipher command pass (44_ff1_engine.md R145). -/
structure CallLegal (p : Params) (i : Instr) (s : State) : Prop where
  cipher : isCipher i = true
  valid : s.ctx.valid = true
  text : textLengthLegal s
  tweak : tweakLengthLegal p i s
  numerals : numeralsLegal s

/-! ### How a command ends, seen from the state before it (60_exceptions.md R203, R205) -/

/-- Whatever a command's end does apart from its results: the engine idle, everything of the command zeroed. -/
def settled (r : HostRegs) (s : State) : State :=
  { s with
    reg := r, lat := Latches.zero, work := Work.zero, ph := .idle, rnd := 0, chain := zeroBytes Config.blockBytes }

/-- Ended without error, with `OUTLEN = n`. -/
def endsOk (n : Nat) (s : State) : State :=
  settled { s.reg with done := true, err := false, errcode := 0, outlen := BitVec.ofNat 32 n } s

/-- Ended with the recoverable error `e`. -/
def endsWithError (e : ErrorName) (s : State) : State :=
  settled { s.reg with done := true, err := true, errcode := errorCode e, outlen := 0 } s

/-- Stopped with the fatal error `e`. -/
def endsFatal (e : ErrorName) (s : State) : State := (endsWithError e s).withPhase .fatal

/-- A context command that stored `c` and loaded its key. -/
def endsWithContext (c : Context) (s : State) : State := ((endsOk 0 s).withCtx c).withAespKey (some c.key)

/-- A cipher command that put the string `res` into `OUT`. -/
def endsWithResult (res : Bytes) (s : State) : State :=
  (endsOk res.length s).withBuf { s.buf with out := s.buf.out.store 0 res }

/-- A host write to an operand register or to a buffer (20_memory.md R46). -/
def operandWrite : Access → Bool
  | .regRead _ => false
  | .regWrite k _ => decide (4 ≤ k ∧ k < 10)
  | .bufRead _ _ => false
  | .bufWrite _ _ _ => true

/-- What the engine never writes: the operand registers, the operand buffers, and what the host does next (10_state.md
R19, R21). -/
def SameOperands (s t : State) : Prop :=
  t.reg.radix = s.reg.radix ∧ t.reg.keylen = s.reg.keylen ∧ t.reg.twkmin = s.reg.twkmin ∧ t.reg.twkmax = s.reg.twkmax ∧
    t.reg.twklen = s.reg.twklen ∧ t.reg.txtlen = s.reg.txtlen ∧ t.buf.key = s.buf.key ∧ t.buf.twk = s.buf.twk ∧
    t.buf.txt = s.buf.txt ∧ t.pending = s.pending

/-- The state with every copy of key material blanked, lengths kept (60_exceptions.md R212). -/
def keyBlind (s : State) : State :=
  { s with
    buf := { s.buf with key := [] }
    ctx := { s.ctx with key := zeroBytes s.ctx.key.length }
    lat := { s.lat with key := zeroBytes s.lat.key.length }
    aespKey := s.aespKey.map fun k => zeroBytes k.length }

end Sys2Proof.Machine
end

