-- ==== Sys2Proof/WellFormed.lean ====
section
/-! DEFINITION. What is well formed: a command, a command word, a parameter set. -/

namespace Sys2Proof

/-- A command is well formed when its word is one of the six of R62. No command has an operand (R60), so every
term passes; the check is the encoder's. -/
def Instr.wellFormed (i : Instr) : Bool :=
  [0x00000011#32, 0x00000021#32, 0x00000002#32, 0x00000202#32, 0x00000102#32, 0x00000302#32].contains (encode i)

/-- A word is a legal command word when the decoder accepts it (R62, R63). -/
def legalWord (w : Word) : Bool :=
  match decode w with
  | .ok _ => true
  | .error _ => false

/-- The constraints of 00_scope.md R7 on `N_CAP` and `T_CAP`; other values are not a configuration of this
hardware (93_implementation_defined.md I11). -/
def Params.wellFormed (p : Params) : Bool :=
  decide (20 ≤ p.nCap) && decide (p.nCap ≤ 2 ^ 32 - 1) && decide (7 ≤ p.tCap) && decide (p.tCap ≤ 2 ^ 32 - 1)

end Sys2Proof
end

