-- ==== Sys2Proof/Certificates/Slice0/Obligations.lean ====
section
/-! DEFINITION. The statements about the block, from the numbered rules of spec/. -/

open Sys2Proof Sys2Proof.Machine

/-! ### Command words -/

/-- Every well-formed command's word decodes to that command. -/
def Obligations.EveryCommandDecodesItsOwnWord : Prop :=
  ∀ i : Instr, i.wellFormed = true → decode (encode i) = .ok i

/-- The table of R62, read in both directions: these six words decode to these six commands, and no other word
decodes. -/
def Obligations.OnlySixWordsDecode : Prop :=
  ∀ (w : Word) (i : Instr), decode w = .ok i ↔
    (w, i) ∈ [(0x00000011#32, Instr.ctxFF1), (0x00000021#32, Instr.ctxFF31), (0x00000002#32, Instr.enc),
      (0x00000202#32, Instr.encT), (0x00000102#32, Instr.dec), (0x00000302#32, Instr.decT)]

/-- The fields are the bits that R61 names, and `RSV` is non-zero exactly when a must-be-zero bit is set. -/
def Obligations.FieldsAreTheNamedBits : Prop :=
  ∀ w : Word,
    fieldOp w = (w.extractLsb' 0 4).toNat ∧ fieldAlg w = (w.extractLsb' 4 2).toNat ∧
      fieldDir w = (w.extractLsb' 8 1).toNat ∧ fieldTwo w = (w.extractLsb' 9 1).toNat ∧
      fieldRsv w = (w.extractLsb' 6 2).toNat + 4 * (w.extractLsb' 10 22).toNat ∧
      (fieldRsv w ≠ 0 ↔ ∃ k, (k = 6 ∨ k = 7 ∨ (10 ≤ k ∧ k < 32)) ∧ w.getLsbD k = true)

/-- Which words are illegal, by their fields (R63). -/
def Obligations.IllegalWordsByField : Prop :=
  ∀ w : Word, (∃ e, decode w = .error e) ↔
    (fieldOp w ≠ 1 ∧ fieldOp w ≠ 2) ∨
    (fieldOp w = 1 ∧ ((fieldAlg w ≠ 1 ∧ fieldAlg w ≠ 2) ∨ fieldDir w ≠ 0 ∨ fieldTwo w ≠ 0)) ∨
    (fieldOp w = 2 ∧ fieldAlg w ≠ 0) ∨ fieldRsv w ≠ 0

/-- Six words written out bit by bit, bit 31 first, decode to the commands of R62. -/
def Obligations.SampleWordsDecode : Prop :=
  decode 0b00000000000000000000000000010001#32 = .ok .ctxFF1 ∧
    decode 0b00000000000000000000000000100001#32 = .ok .ctxFF31 ∧
    decode 0b00000000000000000000000000000010#32 = .ok .enc ∧
    decode 0b00000000000000000000001000000010#32 = .ok .encT ∧
    decode 0b00000000000000000000000100000010#32 = .ok .dec ∧
    decode 0b00000000000000000000001100000010#32 = .ok .decT

/-- A step whose next event is a `CMD` write of a word that decodes is `exec` of that command; so is a step after
`withFetchWord`. The step around it only removes the event from the list of what is still to happen (log 1). -/
def Obligations.StepRunsTheDecodedCommand : Prop :=
  ∀ (s : State) (w : Word) (i : Instr), decode w = .ok i →
    (∀ es, s.pending = .command w :: es → step s = exec i (s.withPending es)) ∧
      step (s.issueNext w) = exec i s ∧ step (s.withFetchWord 32 w.toNat) = exec i s

/-- A `CMD` write of an illegal word in IDLE completes with `IllegalCommand` whatever the operands and the context, and
makes no AES-port transaction (R63, R219). -/
def Obligations.IllegalWordEndsWithIllegalCommand : Prop :=
  ∀ (s : State) (w : Word) (e : DecodeError), s.ph = .idle → decode w = .error e →
    step (s.issueNext w) = .next (endsWithError .illegalCommand s) ∧
      (observe Config.hardware (s.issueNext w)).port = []

/-! ### Host accesses -/

/-- The whole `CMD` write (R47): the snapshot and the status in IDLE, nothing in any other phase. -/
def Obligations.CmdWriteIsAcceptedOnlyInIdle : Prop :=
  ∀ (p : Params) (s : State) (w : Word),
    (s.ph = .idle → hostAccess p s (.regWrite 0 w) =
      { s with
        lat :=
          { cmd := w, radix := s.reg.radix, keylen := s.reg.keylen, twkmin := s.reg.twkmin, twkmax := s.reg.twkmax,
            twklen := s.reg.twklen, txtlen := s.reg.txtlen, key := s.buf.key.load 32,
            twk := s.buf.twk.load (min s.reg.twklen.toNat p.tCap),
            txt := s.buf.txt.load (min s.reg.txtlen.toNat p.nCap) }
        reg := { s.reg with done := false, err := false, errcode := 0, outlen := 0 }
        ph := .check }) ∧
    (s.ph ≠ .idle → hostAccess p s (.regWrite 0 w) = s)

/-- A command issued while another one runs, or after a fatal stop, changes nothing at all (R218). -/
def Obligations.CommandsAreIgnoredUnlessIdle : Prop :=
  ∀ (i : Instr) (s : State), s.ph ≠ .idle → exec i s = .next s ∧ (moveCommand Config.hardware i s).txns = []

/-- What a word read of `REG` returns, offset by offset; in every state of the invariant a read-back register loses
nothing, since every field fits in 32 bits (R41, R14 to R20). -/
def Obligations.RegisterReads : Prop :=
  ∀ (p : Params) (s : State),
    hostValue p s (.regRead 0) = some 0 ∧ hostValue p s (.regRead 1) = some s.statusWord ∧
    hostValue p s (.regRead 2) = some (s.reg.errcode.zeroExtend 32) ∧
    hostValue p s (.regRead 3) = some s.reg.outlen ∧ hostValue p s (.regRead 4) = some s.reg.radix ∧
    hostValue p s (.regRead 5) = some s.reg.keylen ∧ hostValue p s (.regRead 6) = some s.reg.twkmin ∧
    hostValue p s (.regRead 7) = some s.reg.twkmax ∧ hostValue p s (.regRead 8) = some s.reg.twklen ∧
    hostValue p s (.regRead 9) = some s.reg.txtlen ∧
    (s.ctx.valid = true →
      hostValue p s (.regRead 10) = some (BitVec.ofNat 32 s.ctx.radix) ∧
      hostValue p s (.regRead 11) = some (BitVec.ofNat 32 s.ctx.twkMin) ∧
      hostValue p s (.regRead 12) = some (BitVec.ofNat 32 s.ctx.twkMax) ∧
      hostValue p s (.regRead 13) = some (BitVec.ofNat 32 s.ctx.txtMin) ∧
      hostValue p s (.regRead 14) = some (BitVec.ofNat 32 s.ctx.txtMax) ∧
      hostValue p s (.regRead 15) = some (BitVec.ofNat 32 s.ctx.dtwklen)) ∧
    (s.ctx.valid = false → ∀ k, 10 ≤ k → k < 16 → hostValue p s (.regRead k) = some 0) ∧
    (p.wellFormed = true → Inv p s →
      s.ctx.radix < 2 ^ 32 ∧ s.ctx.twkMin < 2 ^ 32 ∧ s.ctx.twkMax < 2 ^ 32 ∧ s.ctx.txtMin < 2 ^ 32 ∧
        s.ctx.txtMax < 2 ^ 32 ∧ s.ctx.dtwklen < 2 ^ 32)

/-- A write to an operand register stores the whole word, is read back, and changes nothing else; a write to a
read-only register changes nothing (R41, R19). -/
def Obligations.RegisterWrites : Prop :=
  ∀ (p : Params) (s : State) (w : Word),
    hostAccess p s (.regWrite 4 w) = { s with reg := { s.reg with radix := w } } ∧
    hostAccess p s (.regWrite 5 w) = { s with reg := { s.reg with keylen := w } } ∧
    hostAccess p s (.regWrite 6 w) = { s with reg := { s.reg with twkmin := w } } ∧
    hostAccess p s (.regWrite 7 w) = { s with reg := { s.reg with twkmax := w } } ∧
    hostAccess p s (.regWrite 8 w) = { s with reg := { s.reg with twklen := w } } ∧
    hostAccess p s (.regWrite 9 w) = { s with reg := { s.reg with txtlen := w } } ∧
    (∀ k, 4 ≤ k → k < 10 → hostValue p (hostAccess p s (.regWrite k w)) (.regRead k) = some w) ∧
    (∀ k, (1 ≤ k ∧ k < 4) ∨ (10 ≤ k ∧ k < 16) → hostAccess p s (.regWrite k w) = s)

/-- Addresses that hold nothing read 0, and neither a read nor a write of them changes anything (R43). -/
def Obligations.EmptyAddressesReadZero : Prop :=
  ∀ (p : Params) (s : State),
    (∀ k w, 16 ≤ k → hostValue p s (.regRead k) = some 0 ∧ hostAccess p s (.regRead k) = s ∧
      hostAccess p s (.regWrite k w) = s) ∧
    (∀ b i v, bufSize p b ≤ i → hostValue p s (.bufRead b i) = some 0 ∧ hostAccess p s (.bufRead b i) = s ∧
      hostAccess p s (.bufWrite b i v) = s)

/-- What a byte read inside a buffer returns, zero-extended, and that no read changes any state (R42, R54). -/
def Obligations.BufferReads : Prop :=
  ∀ (p : Params) (s : State) (i : Nat),
    (i < 32 → hostValue p s (.bufRead .key i) = some 0) ∧
    (i < p.tCap → hostValue p s (.bufRead .twk i) = some ((s.buf.twk.read i).zeroExtend 32)) ∧
    (i < p.nCap → hostValue p s (.bufRead .txt i) = some ((s.buf.txt.read i).zeroExtend 32)) ∧
    (i < p.nCap → i < s.reg.outlen.toNat → hostValue p s (.bufRead .out i) = some ((s.buf.out.read i).zeroExtend 32)) ∧
    (i < p.nCap → s.reg.outlen.toNat ≤ i → hostValue p s (.bufRead .out i) = some 0) ∧
    (∀ k, hostAccess p s (.regRead k) = s) ∧ (∀ b, hostAccess p s (.bufRead b i) = s)

/-- A byte write inside a buffer: `KEY`, `TWK` and `TXT` take it at that byte and nowhere else, `OUT` ignores it; the
rest of the state stays, and the buffers stay canonical (R42). -/
def Obligations.BufferWrites : Prop :=
  ∀ (p : Params) (s : State) (b : BufName) (i : Nat) (v : Byte), BuffersCanonical p s → i < bufSize p b →
    (b = .out → hostAccess p s (.bufWrite b i v) = s) ∧
    (b ≠ .out → ((hostAccess p s (.bufWrite b i v)).buf.get b).read i = v) ∧
    (b = .twk ∨ b = .txt →
      hostValue p (hostAccess p s (.bufWrite b i v)) (.bufRead b i) = some (v.zeroExtend 32)) ∧
    (∀ b' j, ¬(b' = b ∧ j = i) →
      ((hostAccess p s (.bufWrite b i v)).buf.get b').read j = (s.buf.get b').read j) ∧
    (∃ bufs, hostAccess p s (.bufWrite b i v) = s.withBuf bufs) ∧
    BuffersCanonical p (hostAccess p s (.bufWrite b i v))

/-- The fields of `STATUS`, bit by bit (R16). -/
def Obligations.StatusFields : Prop :=
  ∀ s : State,
    s.statusWord.getLsbD 0 = decide (s.ph ≠ .idle ∧ s.ph ≠ .fatal) ∧ s.statusWord.getLsbD 1 = s.reg.done ∧
    s.statusWord.getLsbD 2 = s.reg.err ∧ s.statusWord.getLsbD 3 = decide (s.ph = .fatal) ∧
    s.statusWord.getLsbD 4 = s.ctx.valid ∧ s.statusWord.getLsbD 5 = decide (s.ctx.alg = .ff1) ∧
    s.statusWord.getLsbD 6 = decide (s.ctx.alg = .ff31) ∧ (∀ k, 7 ≤ k → s.statusWord.getLsbD k = false)

/-- While a command runs the host reads only `BUSY` and the context's fields in `STATUS`, and no error, no length and no
result (R37, R236). -/
def Obligations.ReadsWhileBusy : Prop :=
  ∀ (p : Params) (s : State), Inv p s → s.busy = true →
    hostValue p s (.regRead 1) =
      some (BitVec.ofNat 32 (1 + 16 * s.ctx.valid.toNat + 32 * s.ctx.alg.code)) ∧
    hostValue p s (.regRead 2) = some 0 ∧ hostValue p s (.regRead 3) = some 0 ∧
    ∀ i, hostValue p s (.bufRead .out i) = some 0

/-- A host write to an operand register or to a buffer commutes with every move of the engine, whatever the phase: the
running command sees nothing of it, makes the same transactions, and does not undo it (R46, R237). -/
def Obligations.OperandWritesDoNotDisturbTheEngine : Prop :=
  ∀ (p : Params) (s : State) (a : Access), operandWrite a = true →
    engineMove p (Move.start (hostAccess p s a)) =
      (engineMove p (Move.start s)).update fun t => hostAccess p t a

/-- No read and no status depends on key bytes: two states that differ only in key material give the host the same
values, stay alike under every host access, and end a context command alike (R212, R81). -/
def Obligations.KeyMaterialIsNeverReadable : Prop :=
  ∀ (p : Params) (s t : State), keyBlind s = keyBlind t →
    (∀ a, hostValue p s a = hostValue p t a ∧ keyBlind (hostAccess p s a) = keyBlind (hostAccess p t a)) ∧
    (∀ i, isCipher i = false →
      keyBlind (moveCommand p i s).state = keyBlind (moveCommand p i t).state)

/-! ### Reset -/

/-- Every piece of state of the block after reset, and that the host then reads 0 everywhere (R38). -/
def Obligations.ResetValues : Prop :=
  State.reset.statusWord = 0 ∧
    State.reset.reg =
      { done := false, err := false, errcode := 0, outlen := 0, radix := 0, keylen := 0, twkmin := 0, twkmax := 0,
        twklen := 0, txtlen := 0 } ∧
    (∀ b i, (State.reset.buf.get b).read i = 0) ∧
    State.reset.ctx =
      { valid := false, alg := .none, klen := 0, key := [], radix := 0, dtwklen := 0, dtwk := [], twkMin := 0,
        twkMax := 0, txtMin := 0, txtMax := 0 } ∧
    State.reset.lat =
      { cmd := 0, radix := 0, keylen := 0, twkmin := 0, twkmax := 0, twklen := 0, txtlen := 0, key := [], twk := [],
        txt := [] } ∧
    State.reset.work =
      { dir := .encrypt, n := 0, tl := 0, t := [], u := 0, v := 0, bb := 0, dd := 0, ql := 0, a := [], b := [], p := [],
        q := [], r := [], s := [], y := 0, m := 0, c := 0, tw0 := [], tw1 := [] } ∧
    State.reset.ph = .idle ∧ State.reset.rnd = 0 ∧ State.reset.chain = List.replicate 16 0 ∧
    State.reset.aespKey = none ∧
    ∀ p a v, hostValue p State.reset a = some v → v = 0

/-- The reset input puts every piece of state into its reset value, in any phase (R230, R232); what the host does
afterwards is not state of the block and stays (log 1). Of the engine's phase transition in progress the requests
already made stand in the history, no more than that transition makes (log 5). -/
def Obligations.ResetRestoresEverything : Prop :=
  ∀ (s : State) (es : List Event) (k : Nat), s.pending = .reset k :: es →
    step s = .next (State.reset.withPending es) ∧
      (observe Config.hardware s).port =
        (engineMove Config.hardware (Move.start (s.withPending es))).txns.take k

/-! ### The invariant and the phases -/

/-- The invariant holds right after reset. -/
def Obligations.InvariantAtReset : Prop := Inv Config.hardware State.reset

/-- Every step keeps the invariant: buffers canonical, `STATUS` consistent, the context legal and loaded, everything of
a command zero between commands, and the working registers of the shape their phase says. -/
def Obligations.EveryStepKeepsTheInvariant : Prop :=
  ∀ s t : State, Inv Config.hardware s → step s = .next t → Inv Config.hardware t

/-- From every state of the invariant a step answers a next state: the model's own fault (log 9) never happens. -/
def Obligations.NoStepFaults : Prop :=
  ∀ s : State, Inv Config.hardware s → ∃ t, step s = .next t

/-- The engine's moves are transitions of the table of R32, `RND` moves as R33 says (log 10), and the count is 10
rounds for FF1 and 8 for FF3-1. -/
def Obligations.PhaseTransitions : Prop :=
  ∀ (p : Params) (s t : State), p.wellFormed = true → Inv p s → t = (engineMove p (Move.start s)).state →
    match s.ph with
    | .idle => t = s
    | .fatal => t = s
    | .check => t.ph = .idle ∨ t.ph = .setup ∨ t.ph = .finish
    | .setup => t.ph = .round ∧ t.rnd = 0
    | .finish => t.ph = .idle ∧ t.reg.err = false
    | .round =>
      (s.rnd + 1 < (if s.ctx.alg = .ff1 then 10 else 8) ∧ t.ph = .round ∧ t.rnd = s.rnd + 1) ∨
      (s.rnd + 1 = (if s.ctx.alg = .ff1 then 10 else 8) ∧ t.ph = .finish) ∨
      (s.ctx.alg = .ff31 ∧ t.ph = .fatal)

/-- Every accepted command ends: thirteen moves of the engine are enough from any state of the invariant (R243). -/
def Obligations.EveryCommandEnds : Prop :=
  ∀ (p : Params) (s : State), p.wellFormed = true → Inv p s → (runEngine p 13 (Move.start s)).state.busy = false

/-- A command run phase by phase, after its `CMD` write, ends in the same state with the same AES-port history as the
same command run at once (R9, R244); in the machine, fourteen steps against one, on an event list that is
the model's own (log 1, log 5, log 6). -/
def Obligations.PhaseByPhaseEqualsAtOnce : Prop :=
  ∀ (s : State) (w : Word), Inv Config.hardware s → s.ph = .idle →
    runEngine Config.hardware 13 (Move.start (writeCmd Config.hardware w s)) = moveWord Config.hardware w s ∧
      Sys2Proof.core.run 14 (s.withPending (.access (.regWrite 0 w) :: List.replicate 13 .engine)) =
        Sys2Proof.core.run 1 (s.withPending [.command w])

/-- In the fatal stop every step but a reset completes and leaves the phase, the error, the context, the AES key and the
result area as they are (R205, R206, R218). -/
def Obligations.FatalStopLatches : Prop :=
  ∀ s : State, s.ph = .fatal → (∀ k, s.nextEvent ≠ .reset k) →
    ∃ t, step s = .next t ∧ t.ph = .fatal ∧ t.reg.done = s.reg.done ∧ t.reg.err = s.reg.err ∧
      t.reg.errcode = s.reg.errcode ∧ t.reg.outlen = s.reg.outlen ∧ t.buf.out = s.buf.out ∧ t.ctx = s.ctx ∧
      t.aespKey = s.aespKey

/-- The fatal stop is entered only by a cipher command on an FF3-1 context, with `LengthExceeded`, with no result and
with the context as it was; a command on an FF1 context never stops fatally (R170, R198, R205). -/
def Obligations.FatalOnlyOnFF31Overflow : Prop :=
  ∀ (p : Params) (s : State) (m : Move), p.wellFormed = true → Inv p s → s.ph ≠ .fatal →
    (m = engineMove p (Move.start s) ∨ ∃ w, m = moveWord p w s) → m.state.ph = .fatal →
      s.ctx.valid = true ∧ s.ctx.alg = .ff31 ∧ m.state.reg.errcode = 0x06 ∧ m.state.reg.done = true ∧
        m.state.reg.err = true ∧ m.state.reg.outlen = 0 ∧ m.state.buf = s.buf ∧ m.state.ctx = s.ctx ∧
        m.state.aespKey = s.aespKey

/-! ### What a command writes and what it leaves -/

/-- Every command answers a next state (R203, R218, R243), and the engine never writes an operand register, `KEY`, `TWK`
or `TXT` (R19, R21, R24); so for a single move of the engine. Two clauses are the model's choice: that the list of the
host's further events stays (log 1), and that a command answers a next state also from states with a valid context of
algorithm 0, which no run reaches and where the engine stands still (log 9). -/
def Obligations.TheEngineNeverWritesOperands : Prop :=
  (∀ (i : Instr) (s : State), ∃ t, exec i s = .next t ∧ SameOperands s t) ∧
    ∀ (p : Params) (s : State), SameOperands s (engineMove p (Move.start s)).state

/-- `OUT` changes only by a reset or where a cipher command completes without error (R21, R163, R190, R230): of whole
commands, and of steps, where the event is a reset, a cipher command at once, or the engine's move out of FINISH of one
(the events are the model's, log 1 and log 6). -/
def Obligations.OutIsWrittenOnlyBySuccess : Prop :=
  (∀ (i : Instr) (s t : State), exec i s = .next t → t.buf.out ≠ s.buf.out →
    isCipher i = true ∧ s.ph = .idle ∧ t.ph = .idle ∧ t.reg.done = true ∧ t.reg.err = false) ∧
  ∀ s t : State, step s = .next t → t.buf.out ≠ s.buf.out →
    (∃ k, s.nextEvent = .reset k) ∨
    (t.ph = .idle ∧ t.reg.done = true ∧ t.reg.err = false ∧
      ((∃ w i, s.nextEvent = .command w ∧ decode w = .ok i ∧ isCipher i = true ∧ s.ph = .idle) ∨
        (s.nextEvent = .engine ∧ s.ph = .finish ∧ ∃ i, decode s.lat.cmd = .ok i ∧ isCipher i = true)))

/-- The context and the AES primitive's key change only by a reset or by a context command, at once or in its phase
FINISH (R23, R59, R134). -/
def Obligations.ContextChangesOnlyByContextCommandsAndReset : Prop :=
  ∀ s t : State, step s = .next t → (t.ctx ≠ s.ctx ∨ t.aespKey ≠ s.aespKey) →
    (∃ k, s.nextEvent = .reset k) ∨
    (∃ w i, s.nextEvent = .command w ∧ decode w = .ok i ∧ isCipher i = false ∧ s.ph = .idle) ∨
    (s.nextEvent = .engine ∧ s.ph = .finish ∧ ∃ i, decode s.lat.cmd = .ok i ∧ isCipher i = false)

/-- The codes and the classes of the errors (R200); raising one writes its code and stops the engine exactly where it is
fatal (R203, R205); and after a recoverable error of any command the state is the one before it but for `DONE`, `ERR`,
`ERRCODE` and `OUTLEN`, and no transaction was made (R204). -/
def Obligations.RecoverableErrorHasNoSideEffect : Prop :=
  (∀ (e : ErrorName) (code : BitVec 8) (fatal : Bool), (errorCode e = code ∧ errorIsFatal e = fatal) ↔
    (e, code, fatal) ∈ [(ErrorName.invalidKeySize, 0x01#8, false), (.invalidRadix, 0x02#8, false),
      (.invalidTextLength, 0x03#8, false), (.invalidTweakLength, 0x04#8, false), (.invalidNumeral, 0x05#8, false),
      (.lengthExceeded, 0x06#8, true), (.invalidBlockLength, 0x07#8, true), (.noContext, 0x10#8, false),
      (.illegalCommand, 0x11#8, false)]) ∧
  (∀ (e : ErrorName) (s : State),
    (raiseError e s).reg = { s.reg with done := true, err := true, errcode := errorCode e } ∧
      (raiseError e s).ph = (if errorIsFatal e = true then .fatal else .idle)) ∧
  ∀ (i : Instr) (s t : State), Inv Config.hardware s → s.ph = .idle → exec i s = .next t → t.ph = .idle →
    t.reg.err = true →
      (∃ e, errorIsFatal e = false ∧
        t = { s with reg := { s.reg with done := true, err := true, errcode := errorCode e, outlen := 0 } }) ∧
      (moveCommand Config.hardware i s).txns = []

/-- Issuing the same command again, with the operands and the context it left, changes nothing more and makes the same
AES-port transactions, unless the first one stopped fatally (R54, R206). -/
def Obligations.ReissuingGivesTheSame : Prop :=
  ∀ (i : Instr) (s t : State), Inv Config.hardware s → s.ph = .idle → exec i s = .next t → t.ph = .idle →
    exec i t = .next t ∧
      (moveCommand Config.hardware i t).txns = (moveCommand Config.hardware i s).txns

/-! ### Context construction -/

/-- `CTX.FF1` whose checks pass stores the whole context of R91, loads its raw key into the AES primitive with one
transaction, and completes without error. -/
def Obligations.CtxFF1StoresTheContext : Prop :=
  ∀ s : State, s.ph = .idle →
    s.reg.keylen.toNat = 16 ∨ s.reg.keylen.toNat = 24 ∨ s.reg.keylen.toNat = 32 →
    2 ≤ s.reg.radix.toNat → s.reg.radix.toNat ≤ 36 →
    (s.reg.twkmax.toNat ≠ 0 → s.reg.twkmin.toNat ≤ s.reg.twkmax.toNat) →
    s.reg.twklen.toNat ≤ Config.hardware.tCap → s.reg.twkmin.toNat ≤ s.reg.twklen.toNat →
    (s.reg.twkmax.toNat ≠ 0 → s.reg.twklen.toNat ≤ s.reg.twkmax.toNat) →
      exec .ctxFF1 s = .next (endsWithContext
        { valid := true, alg := .ff1, klen := s.reg.keylen.toNat, key := keyInput s, radix := s.reg.radix.toNat,
          dtwklen := s.reg.twklen.toNat, dtwk := tweakInput s, twkMin := s.reg.twkmin.toNat,
          twkMax := s.reg.twkmax.toNat, txtMin := textMin s.reg.radix.toNat, txtMax := Config.hardware.nCap } s) ∧
      (moveCtxFF1 Config.hardware s).txns = [.keyLoad (keyInput s)]

/-- `CTX.FF1` whose checks fail reports the first failing one in the order of R80, changes nothing but the status, and
makes no transaction (R93, R94). -/
def Obligations.CtxFF1ReportsTheFirstFailure : Prop :=
  ∀ (s : State) (e : ErrorName), s.ph = .idle →
    (if ¬(s.reg.keylen.toNat = 16 ∨ s.reg.keylen.toNat = 24 ∨ s.reg.keylen.toNat = 32) then some .invalidKeySize
      else if s.reg.radix.toNat < 2 ∨ 36 < s.reg.radix.toNat then some .invalidRadix
      else if s.reg.twkmax.toNat < s.reg.twkmin.toNat ∧ s.reg.twkmax.toNat ≠ 0 then some .invalidTweakLength
      else if Config.hardware.tCap < s.reg.twklen.toNat then some .invalidTweakLength
      else if s.reg.twklen.toNat < s.reg.twkmin.toNat then some .invalidTweakLength
      else if s.reg.twkmax.toNat ≠ 0 ∧ s.reg.twkmax.toNat < s.reg.twklen.toNat then some .invalidTweakLength
      else none) = some e →
      exec .ctxFF1 s = .next (endsWithError e s) ∧ (moveCtxFF1 Config.hardware s).txns = []

/-- `CTX.FF31` whose checks pass stores the whole context of R92, with the key reversed and the tweak bounds 7 and 7,
loads the reversed key, and completes without error. -/
def Obligations.CtxFF31StoresTheContext : Prop :=
  ∀ s : State, s.ph = .idle →
    s.reg.keylen.toNat = 16 ∨ s.reg.keylen.toNat = 24 ∨ s.reg.keylen.toNat = 32 →
    2 ≤ s.reg.radix.toNat → s.reg.radix.toNat ≤ 36 → s.reg.twklen.toNat = 7 →
      exec .ctxFF31 s = .next (endsWithContext
        { valid := true, alg := .ff31, klen := s.reg.keylen.toNat, key := (keyInput s).reverse,
          radix := s.reg.radix.toNat, dtwklen := 7, dtwk := s.buf.twk.load 7, twkMin := 7, twkMax := 7,
          txtMin := textMin s.reg.radix.toNat,
          txtMax := min (ff31TextMaxDoc s.reg.radix.toNat) Config.hardware.nCap } s) ∧
      (moveCtxFF31 Config.hardware s).txns = [.keyLoad (keyInput s).reverse]

/-- `CTX.FF31` whose checks fail reports the first failing one in the order of R92, changes nothing but the status, and
makes no transaction (R93, R94). -/
def Obligations.CtxFF31ReportsTheFirstFailure : Prop :=
  ∀ (s : State) (e : ErrorName), s.ph = .idle →
    (if ¬(s.reg.keylen.toNat = 16 ∨ s.reg.keylen.toNat = 24 ∨ s.reg.keylen.toNat = 32) then some .invalidKeySize
      else if s.reg.radix.toNat < 2 ∨ 36 < s.reg.radix.toNat then some .invalidRadix
      else if s.reg.twklen.toNat ≠ 7 then some .invalidTweakLength
      else none) = some e →
      exec .ctxFF31 s = .next (endsWithError e s) ∧ (moveCtxFF31 Config.hardware s).txns = []

/-- `txt_min` is the least length with a domain of a million, never below 4, and the FF3-1 bound is the greatest length
whose domain is at most `2^192` (R83, R84, R85). -/
def Obligations.TextBoundsAreTheIntegerLogarithms : Prop :=
  ∀ radix, 2 ≤ radix → radix ≤ 36 →
    (∀ l, textMin radix ≤ l ↔ 1000000 ≤ radix ^ l) ∧ 4 ≤ textMin radix ∧
      (∀ l, l ≤ ff31TextMaxDoc radix ↔ radix ^ l ≤ 2 ^ 192)

/-- The text-bound check of construction never fails: every bound fits a buffer of at least 20 characters, and FF1's
upper bound is the capacity (R87, R88). -/
def Obligations.TextBoundCheckNeverFails : Prop :=
  ∀ (p : Params) (radix : Nat), p.wellFormed = true → 2 ≤ radix → radix ≤ 36 →
    textMin radix ≤ ff1TextMax p ∧ textMin radix ≤ ff31TextMax p radix ∧ ff1TextMax p = p.nCap ∧
      (192 ≤ p.nCap → ff31TextMax p radix = ff31TextMaxDoc radix)

/-! ### Cipher commands -/

/-- A cipher command whose checks fail reports the first failing one in the order of R145, changes nothing but the
status, and makes no transaction (R202, R204). -/
def Obligations.CipherReportsTheFirstFailure : Prop :=
  ∀ (i : Instr) (s : State) (e : ErrorName), Inv Config.hardware s → s.ph = .idle → isCipher i = true →
    (s.ctx.valid = false ∧ e = .noContext) ∨
    (s.ctx.valid = true ∧ ¬textLengthLegal s ∧ e = .invalidTextLength) ∨
    (s.ctx.valid = true ∧ textLengthLegal s ∧ ¬tweakLengthLegal Config.hardware i s ∧ e = .invalidTweakLength) ∨
    (s.ctx.valid = true ∧ textLengthLegal s ∧ tweakLengthLegal Config.hardware i s ∧ ¬numeralsLegal s ∧
      e = .invalidNumeral) →
      exec i s = .next (endsWithError e s) ∧ (moveCommand Config.hardware i s).txns = []

/-- With the context's default tweak the tweak check answers no error, and `ENC` and `DEC` never end with ERRCODE 0x04,
`InvalidTweakLength` (R148, R200, R246, R248). -/
def Obligations.DefaultTweakAlwaysPasses : Prop :=
  (∀ (p : Params) (s : State), Inv p s → s.ctx.valid = true → tweakLengthError p s.ctx s.ctx.dtwklen = none) ∧
    ∀ (i : Instr) (s t : State), i = .enc ∨ i = .dec → Inv Config.hardware s → s.ph = .idle → exec i s = .next t →
      t.reg.errcode ≠ 0x04

/-- `ENC`, `ENC.T`, `DEC` and `DEC.T` on an FF1 context, with legal operands, complete: `OUT` and `OUTLEN` hold
`FF1(dir, T, X)` of R164, with the direction and the tweak of the command, nothing else of the state changes (but for
`DONE`, `ERR`, `ERRCODE`), and the AES-port history is that of R171. -/
def Obligations.CipherCommandsComputeFF1 : Prop :=
  ∀ i ∈ [Instr.enc, Instr.encT, Instr.dec, Instr.decT], ∀ s : State, Inv Config.hardware s → s.ph = .idle →
    CallLegal Config.hardware i s → s.ctx.alg = .ff1 →
      exec i s = .next (endsWithResult
        (ff1Cipher Config.hardware s.aespKey s.ctx.radix (cipherDirection i) (callTweak i s) (textInput s)) s) ∧
      (moveCommand Config.hardware i s).txns =
        ff1Txns Config.hardware s.aespKey s.ctx.radix (cipherDirection i) (callTweak i s) (textInput s)

/-- The same on an FF3-1 context, for a text whose larger half fits the 12-byte field: the command completes with
`FF31(dir, T, X)` of R191 (R182: such a text never goes fatal). -/
def Obligations.CipherCommandsComputeFF31 : Prop :=
  ∀ i ∈ [Instr.enc, Instr.encT, Instr.dec, Instr.decT], ∀ s : State, Inv Config.hardware s → s.ph = .idle →
    CallLegal Config.hardware i s → s.ctx.alg = .ff31 →
    s.ctx.radix ^ ((s.reg.txtlen.toNat + 1) / 2) ≤ 2 ^ 96 →
      ∃ res, ff31Cipher Config.hardware s.aespKey s.ctx.radix (cipherDirection i) (callTweak i s) (textInput s)
          = some res ∧
        exec i s = .next (endsWithResult res s) ∧
        (moveCommand Config.hardware i s).txns =
          ff31Txns Config.hardware s.aespKey s.ctx.radix (cipherDirection i) (callTweak i s) (textInput s)

/-- On an FF3-1 context a legal command of any length either completes with the closed form's result, or, where a
numeral does not fit its 12 bytes, stops fatally with `LengthExceeded`, no result, the context as it was, and one
transaction per completed round (R182, R190, R205). -/
def Obligations.FF31CommandCompletesOrOverflows : Prop :=
  ∀ (p : Params) (i : Instr) (s : State), p.wellFormed = true → Inv p s → s.ph = .idle → CallLegal p i s →
    s.ctx.alg = .ff31 →
      (moveCommand p i s).state =
        (match ff31Cipher p s.aespKey s.ctx.radix (cipherDirection i) (callTweak i s) (textInput s) with
        | some res => endsWithResult res s
        | none => endsFatal .lengthExceeded s) ∧
      (moveCommand p i s).txns =
        ff31Txns p s.aespKey s.ctx.radix (cipherDirection i) (callTweak i s) (textInput s)

/-- Where the result of a cipher command goes: `OUT[0..n)` holds it and every other byte of `OUT` is as before,
`OUTLEN` is n, and the host reads the string back (R163, R190, R53). -/
def Obligations.ResultIsReadBackFromOut : Prop :=
  ∀ (p : Params) (s : State) (res : Bytes), p.wellFormed = true → BuffersCanonical p s → res.length ≤ p.nCap →
    (endsWithResult res s).reg.outlen.toNat = res.length ∧
    (∀ i, (h : i < res.length) → hostValue p (endsWithResult res s) (.bufRead .out i) =
      some (res[i].zeroExtend 32)) ∧
    (∀ i, res.length ≤ i → hostValue p (endsWithResult res s) (.bufRead .out i) = some 0 ∧
      (endsWithResult res s).buf.out.read i = s.buf.out.read i) ∧
    (endsWithResult res s).buf.key = s.buf.key ∧ (endsWithResult res s).buf.twk = s.buf.twk ∧
    (endsWithResult res s).buf.txt = s.buf.txt

/-- FF3-1 never overflows when the larger half's domain fits 12 bytes; and a decryption whose left half reversed is
`2^96` or more stops before its first transaction (R182). -/
def Obligations.FF31OverflowBoundary : Prop :=
  ∀ (p : Params) (key : Option Bytes) (radix : Nat) (t x : Bytes), 2 ≤ radix → radix ≤ 36 → 2 ≤ x.length →
    allDigits radix x = true →
      (radix ^ ((x.length + 1) / 2) ≤ 2 ^ 96 → ∀ d, ff31Cipher p key radix d t x ≠ none) ∧
      (2 ^ 96 ≤ numRadix radix (revs (x.take (x.length - x.length / 2))) →
        ff31Cipher p key radix .decrypt t x = none ∧ ff31Txns p key radix .decrypt t x = [])

/-- The inverse law of FF1, in both directions, for every function AES; the text comes back in lower case, which is
the text itself where no letter is upper case (R165). Beyond the lengths of a checked call it speaks of the model's
closed form (log 25). -/
def Obligations.FF1InverseLaw : Prop :=
  ∀ (p : Params) (key : Option Bytes) (radix : Nat) (t x : Bytes), 2 ≤ radix → radix ≤ 36 → 2 ≤ x.length →
    allDigits radix x = true →
      ff1Cipher p key radix .decrypt t (ff1Cipher p key radix .encrypt t x) = lower x ∧
      ff1Cipher p key radix .encrypt t (ff1Cipher p key radix .decrypt t x) = lower x ∧
      ((∀ ch ∈ x, ch.toNat < 0x41 ∨ 0x5A < ch.toNat) → lower x = x)

/-- The inverse law of FF3-1, in both directions, for every function AES: where the first call completes, the second
completes and gives the lower-case text (R192). Beyond the lengths of a checked call it speaks of the model's closed
form (log 25). -/
def Obligations.FF31InverseLaw : Prop :=
  ∀ (p : Params) (key : Option Bytes) (radix : Nat) (t x y : Bytes), 2 ≤ radix → radix ≤ 36 → 2 ≤ x.length →
    allDigits radix x = true →
      (ff31Cipher p key radix .encrypt t x = some y → ff31Cipher p key radix .decrypt t y = some (lower x)) ∧
      (ff31Cipher p key radix .decrypt t x = some y → ff31Cipher p key radix .encrypt t y = some (lower x))

/-- Length preservation and alphabet closure of both ciphers: the result has as many characters as X, each the
lower-case character of a digit of the radix (R166, R167, R193). Beyond the lengths of a checked call it speaks of the
model's closed form (log 25). -/
def Obligations.ResultsKeepLengthAndAlphabet : Prop :=
  ∀ (p : Params) (key : Option Bytes) (radix : Nat) (d : Direction) (t x : Bytes), 2 ≤ radix → radix ≤ 36 →
    2 ≤ x.length → allDigits radix x = true →
      (ff1Cipher p key radix d t x).length = x.length ∧
      (∀ ch ∈ ff1Cipher p key radix d t x, ∃ dv, dv < radix ∧ ch = charOf dv) ∧
      ∀ y, ff31Cipher p key radix d t x = some y →
        y.length = x.length ∧ ∀ ch ∈ y, ∃ dv, dv < radix ∧ ch = charOf dv

/-- The number of `AesEnc` transactions of a cipher command (R139): FF1 makes `10 * (QL/16 + ceil(d/16))`, FF3-1 makes
8, or fewer if it stops fatally; none of them loads a key. On arguments no checked call has it speaks of the model's
closed form (log 25). -/
def Obligations.TransactionCounts : Prop :=
  ∀ (p : Params) (key : Option Bytes) (radix : Nat) (d : Direction) (t x : Bytes),
    (ff1Txns p key radix d t x).length =
      10 * ((t.length + ff1Pad t.length (ff1ByteWidth radix (x.length - x.length / 2)) + 1
          + ff1ByteWidth radix (x.length - x.length / 2)) / 16
        + (ff1RandomBytes (ff1ByteWidth radix (x.length - x.length / 2)) + 15) / 16) ∧
    (ff31Cipher p key radix d t x ≠ none → (ff31Txns p key radix d t x).length = 8) ∧
    (ff31Cipher p key radix d t x = none → (ff31Txns p key radix d t x).length ≤ 7) ∧
    ∀ txn ∈ ff1Txns p key radix d t x ++ ff31Txns p key radix d t x, ∃ b r, txn = .enc b r

/-! ### The keyed block function -/

/-- `prf` over a positive multiple of 16 bytes: the value of R131's closed form, one transaction per block, and
`CHAIN` zero afterwards whatever it was before (R136); over any other length it raises before any transaction (R137).
-/
def Obligations.PrfIsTheChainOfItsBlocks : Prop :=
  ∀ (p : Params) (x : Bytes) (m : Move),
    (x.length = 0 ∨ x.length % 16 ≠ 0 → prf p x m = .raised .invalidBlockLength m) ∧
    (x.length ≠ 0 → x.length % 16 = 0 →
      prf p x m =
          .ok (prfValue p m.state.aespKey x)
            ⟨m.state.withChain (List.replicate 16 0), m.txns ++ prfTxns p m.state.aespKey x⟩ ∧
        (prfTxns p m.state.aespKey x).length = x.length / 16 ∧ (prfValue p m.state.aespKey x).length = 16)

/-- `ciph` of one block is `prf` of it and `AES` of it: one transaction, whose input is the block itself (R132). -/
def Obligations.CiphIsOneEncryption : Prop :=
  ∀ (p : Params) (x : Bytes) (m : Move) (k : Bytes), x.length = 16 → m.state.aespKey = some k →
    ciph p x m = prf p x m ∧
    ciph p x m =
      .ok (p.aes k x).toList
        ⟨m.state.withChain (List.replicate 16 0), m.txns ++ [.enc x (p.aes k x).toList]⟩

/-! ### The numeral codec and the byte utilities -/

/-- What a digit is (R101): the character ranges, upper case like lower case, and the radix's bound. -/
def Obligations.DigitsByCharacterRange : Prop :=
  ∀ (ch : Byte) (radix d : Nat), digit ch radix = some d ↔
    d < radix ∧ ((d ≤ 9 ∧ ch.toNat = 0x30 + d) ∨ (10 ≤ d ∧ d ≤ 35 ∧ ch.toNat = 0x61 + (d - 10)) ∨
      (10 ≤ d ∧ d ≤ 35 ∧ ch.toNat = 0x41 + (d - 10)))

/-- `decode` is the positional value, the first character most significant, below `radix^L`; it fails exactly on the
empty string and on a string with a character that is no digit (R102, R103). -/
def Obligations.DecodeIsThePositionalValue : Prop :=
  ∀ (s : Bytes) (radix : Nat),
    (decodeNumeral s radix = none ↔ s = [] ∨ ∃ ch ∈ s, digit ch radix = none) ∧
    ∀ v, decodeNumeral s radix = some v →
      v = ((List.range s.length).map fun k =>
        ((digit (s.getD k 0) radix).getD 0) * radix ^ (s.length - 1 - k)).sum ∧ v < radix ^ s.length

/-- The round-trip laws of the codec (R106). -/
def Obligations.CodecRoundTrips : Prop :=
  ∀ radix, 2 ≤ radix → radix ≤ 36 →
    (∀ value width, 1 ≤ width → value < radix ^ width →
      ∃ s, encodeNumeral value radix width = some s ∧ s.length = width ∧ decodeNumeral s radix = some value) ∧
    (∀ s : Bytes, s ≠ [] → (∀ ch ∈ s, ∃ d, digit ch radix = some d) →
      ∃ value, decodeNumeral s radix = some value ∧ encodeNumeral value radix s.length = some (lower s))

/-- `BE` and `NUM` are inverse, and `BE` fails exactly where the value does not fit (R108, R123, R126). -/
def Obligations.BigEndianBytesRoundTrip : Prop :=
  (∀ x w, be x w = none ↔ 256 ^ w ≤ x) ∧
    (∀ x w e, be x w = some e → e.length = w ∧ numBytes e = x) ∧
    (∀ e : Bytes, be (numBytes e) e.length = some e)

/-- `clog2pow` is the least k with `2^k >= radix^v`, which is `bitlen(radix^v - 1)`, for every radix above 1 (R112),
`b` the least number of bytes for V digits (R151), and `d` lies between `b + 4` and `b + 7` and is a multiple of 4
(R152). For v = 0, which R112 leaves out, it speaks of the model's formula (log 25). -/
def Obligations.ByteWidthsAreLeast : Prop :=
  ∀ radix v, 2 ≤ radix →
    (∀ k, clog2pow radix v ≤ k ↔ radix ^ v ≤ 2 ^ k) ∧ (∀ k, clog2pow radix v ≤ k ↔ radix ^ v - 1 < 2 ^ k) ∧
      (∀ k, ff1ByteWidth radix v ≤ k ↔ radix ^ v ≤ 256 ^ k) ∧
      ff1RandomBytes (ff1ByteWidth radix v) % 4 = 0 ∧
      ff1ByteWidth radix v + 4 ≤ ff1RandomBytes (ff1ByteWidth radix v) ∧
      ff1RandomBytes (ff1ByteWidth radix v) ≤ ff1ByteWidth radix v + 7

/-- The layout of FF1's variable block (R66): its length is the least multiple of 16 that holds the tweak, the round
byte and b bytes; the tweak stands first, then zeros, the round index, and the numeral big-endian. -/
def Obligations.VariableBlockLayout : Prop :=
  ∀ (radix b r : Nat) (t half : Bytes), numRadix radix half < 256 ^ b → r < 10 →
    (ff1Q radix t b r half).length % 16 = 0 ∧ t.length + b + 1 ≤ (ff1Q radix t b r half).length ∧
      (ff1Q radix t b r half).length < t.length + b + 17 ∧
      (ff1Q radix t b r half).take t.length = t ∧
      (∀ k, t.length ≤ k → k + b + 1 < (ff1Q radix t b r half).length → (ff1Q radix t b r half)[k]? = some 0) ∧
      ((ff1Q radix t b r half)[(ff1Q radix t b r half).length - b - 1]?).map BitVec.toNat = some r ∧
      numBytes ((ff1Q radix t b r half).drop ((ff1Q radix t b r half).length - b)) = numRadix radix half

/-- The tweak halves of FF3-1, with the masks as the source writes them and as multiplication and division; the tweak is
recovered from them (R70, R177). -/
def Obligations.TweakSplitKeepsEveryBit : Prop :=
  ∀ t0 t1 t2 t3 t4 t5 t6 : Byte,
    ff31TweakLeft [t0, t1, t2, t3, t4, t5, t6] = [t0, t1, t2, t3 &&& 0xF0] ∧
      ff31TweakRight [t0, t1, t2, t3, t4, t5, t6] = [t4, t5, t6, (t3 &&& 0x0F) <<< 4] ∧
      (t3 &&& 0xF0).toNat = 16 * (t3.toNat / 16) ∧ ((t3 &&& 0x0F) <<< 4).toNat = 16 * (t3.toNat % 16) ∧
      (t3 &&& 0xF0) ||| (((t3 &&& 0x0F) <<< 4) >>> 4) = t3

/-- In both directions the half of the tweak that a round uses is a function of the round index alone: the right one for
an even index, the left one for an odd index (R180). -/
def Obligations.TweakHalfByRoundIndex : Prop :=
  ∀ s : State, s.rnd < 8 →
    ff31Half s = if roundIndex 8 s.work.dir s.rnd % 2 = 0 then s.work.tw1 else s.work.tw0
end

