-- ==== Sys2Proof/Laws/Bytes.lean ====
section
/-! SUPPORT. The byte utilities: lengths, `BE` and `NUM` are inverse, exclusive-or, a store at an offset. -/

namespace Sys2Proof.Machine

@[simp] theorem revb_length (x : Bytes) : (revb x).length = x.length := by simp [revb]
@[simp] theorem revs_length (x : Bytes) : (revs x).length = x.length := by simp [revs]
@[simp] theorem revb_revb (x : Bytes) : revb (revb x) = x := by simp [revb]
@[simp] theorem revs_revs (x : Bytes) : revs (revs x) = x := by simp [revs]
@[simp] theorem zeroBytes_length (k : Nat) : (zeroBytes k).length = k := by simp [zeroBytes]
@[simp] theorem beBytes_length (x w : Nat) : (beBytes x w).length = w := by simp [beBytes]

theorem slice_length (s : Bytes) (a b : Nat) : (slice s a b).length = min b s.length - a := by simp [slice]

theorem slice_zero (s : Bytes) (b : Nat) : slice s 0 b = s.take b := by simp [slice]

theorem slice_all (s : Bytes) : slice s 0 s.length = s := by simp [slice]

/-- The two parts of a split, joined, are the string (R125). -/
theorem slice_append_slice (s : Bytes) (cut : Nat) : slice s 0 cut ++ slice s cut s.length = s := by
  simp [slice]

theorem slice_append_left (s t : Bytes) : slice (s ++ t) 0 s.length = s := by simp [slice]

theorem slice_append_right (s t : Bytes) : slice (s ++ t) s.length (s ++ t).length = t := by
  unfold slice; rw [List.take_length, List.drop_left]

theorem numBytes_append_singleton (x : Bytes) (b : Byte) : numBytes (x ++ [b]) = numBytes x * 256 + b.toNat := by
  simp [numBytes, List.foldl_append]

/-- A byte string of length L is a number below `256^L` (R108). -/
theorem numBytes_lt (x : Bytes) : numBytes x < 256 ^ x.length := by
  induction x using List.reverseRecOn with
  | nil => simp [numBytes]
  | append_singleton x b ih =>
    rw [numBytes_append_singleton, List.length_append, List.length_singleton, pow_succ]
    have := b.isLt
    omega

theorem beBytes_succ (x w : Nat) : beBytes x (w + 1) = beBytes (x / 256) w ++ [BitVec.ofNat 8 (x % 256)] := by
  simp only [beBytes, List.range_succ, List.map_append, List.map_cons, List.map_nil, Nat.add_sub_cancel, Nat.sub_self,
    pow_zero, Nat.div_one]
  congr 1
  refine List.map_congr_left fun k hk => ?_
  have hk' : k < w := by simpa using hk
  congr 2
  rw [Nat.div_div_eq_div_mul, ← pow_succ']
  congr 2
  omega

@[simp] theorem beBytes_zero_width (x : Nat) : beBytes x 0 = [] := by simp [beBytes]

/-- `NUM(BE(x, w)) = x` for `x` below `256^w` (R126). -/
theorem numBytes_beBytes {x w : Nat} (h : x < 256 ^ w) : numBytes (beBytes x w) = x := by
  induction w generalizing x with
  | zero => simp at h; simp [h, numBytes]
  | succ w ih =>
    have hd : x / 256 < 256 ^ w := by
      rw [pow_succ] at h
      exact Nat.div_lt_of_lt_mul (by omega)
    rw [beBytes_succ, numBytes_append_singleton, ih hd]
    simp only [BitVec.toNat_ofNat]
    omega

/-- `BE(NUM(x), len(x)) = x` (R108). -/
theorem beBytes_numBytes (x : Bytes) : beBytes (numBytes x) x.length = x := by
  induction x using List.reverseRecOn with
  | nil => rfl
  | append_singleton x b ih =>
    rw [List.length_append, List.length_singleton, beBytes_succ, numBytes_append_singleton]
    have hb := b.isLt
    have h1 : (numBytes x * 256 + b.toNat) / 256 = numBytes x := by omega
    have h2 : (numBytes x * 256 + b.toNat) % 256 = b.toNat := by omega
    rw [h1, h2, ih]
    simp

/-- What `BE` answers: nothing exactly when the number does not fit. -/
theorem be_eq (x w : Nat) : be x w = if x < 256 ^ w then some (beBytes x w) else none := by
  unfold be; split <;> split <;> first | rfl | omega

theorem be_of_lt {x w : Nat} (h : x < 256 ^ w) : be x w = some (beBytes x w) := by rw [be_eq, if_pos h]

theorem be_of_le {x w : Nat} (h : 256 ^ w ≤ x) : be x w = none := by rw [be_eq, if_neg (by omega)]

theorem xorBytes_length (a b : Bytes) (len : Nat) : (xorBytes a b len).length = min (min len a.length)
    (min len b.length) := by
  simp [xorBytes]

theorem xorBytes_zero_left (x : Bytes) : xorBytes (zeroBytes x.length) x x.length = x := by
  apply List.ext_getElem
  · simp [xorBytes]
  · intro i h1 h2
    simp [xorBytes, zeroBytes]

theorem storeAt_length {buf : Bytes} {off : Nat} {e : Bytes} (h : off + e.length ≤ buf.length) :
    (storeAt buf off e).length = buf.length := by
  simp [storeAt]; omega

/-- A store at an offset writes its bytes there and leaves the others (R123). -/
theorem storeAt_getElem? {buf : Bytes} {off : Nat} {e : Bytes} (h : off + e.length ≤ buf.length) (i : Nat) :
    (storeAt buf off e)[i]? = if off ≤ i ∧ i < off + e.length then e[i - off]? else buf[i]? := by
  have h1 : (buf.take off).length = off := by simp; omega
  unfold storeAt
  by_cases hi : i < off
  · rw [if_neg (by omega), List.append_assoc, List.getElem?_append_left (by omega), List.getElem?_take_of_lt hi]
  · rw [List.append_assoc, List.getElem?_append_right (by omega), h1]
    by_cases hj : i < off + e.length
    · rw [if_pos ⟨by omega, hj⟩, List.getElem?_append_left (by omega)]
    · rw [if_neg (by omega), List.getElem?_append_right (by omega), List.getElem?_drop]
      congr 1
      omega

/-- A store that replaces the middle of three known parts. -/
theorem storeAt_append {x y z e : Bytes} (h : e.length = y.length) : storeAt (x ++ y ++ z) x.length e = x ++ e ++ z :=
    by
  unfold storeAt
  rw [List.append_assoc x y z, List.take_left, h]
  congr 1
  rw [← List.append_assoc, ← List.length_append, List.drop_left]

@[simp] theorem blocksOf_length (k : Nat) (x : Bytes) : (blocksOf k x).length = k := by
  induction k generalizing x with
  | zero => rfl
  | succ k ih => simp [blocksOf, ih]

end Sys2Proof.Machine
end

