-- ==== Sys2Proof/Laws/State.lean ====
section
/-! SUPPORT. One lemma per field and per update of `State`, so that no later proof unfolds a record update. -/

namespace Sys2Proof.Machine

variable (s : State)

@[simp] theorem State.withReg_reg (x : HostRegs) : (s.withReg x).reg = x := rfl
@[simp] theorem State.withReg_buf (x : HostRegs) : (s.withReg x).buf = s.buf := rfl
@[simp] theorem State.withReg_ctx (x : HostRegs) : (s.withReg x).ctx = s.ctx := rfl
@[simp] theorem State.withReg_lat (x : HostRegs) : (s.withReg x).lat = s.lat := rfl
@[simp] theorem State.withReg_work (x : HostRegs) : (s.withReg x).work = s.work := rfl
@[simp] theorem State.withReg_ph (x : HostRegs) : (s.withReg x).ph = s.ph := rfl
@[simp] theorem State.withReg_rnd (x : HostRegs) : (s.withReg x).rnd = s.rnd := rfl
@[simp] theorem State.withReg_chain (x : HostRegs) : (s.withReg x).chain = s.chain := rfl
@[simp] theorem State.withReg_aespKey (x : HostRegs) : (s.withReg x).aespKey = s.aespKey := rfl
@[simp] theorem State.withReg_pending (x : HostRegs) : (s.withReg x).pending = s.pending := rfl
@[simp] theorem State.withReg_self : s.withReg s.reg = s := rfl
@[simp] theorem State.withReg_twice (x y : HostRegs) : (s.withReg x).withReg y = s.withReg y := rfl

@[simp] theorem State.withBuf_reg (x : Buffers) : (s.withBuf x).reg = s.reg := rfl
@[simp] theorem State.withBuf_buf (x : Buffers) : (s.withBuf x).buf = x := rfl
@[simp] theorem State.withBuf_ctx (x : Buffers) : (s.withBuf x).ctx = s.ctx := rfl
@[simp] theorem State.withBuf_lat (x : Buffers) : (s.withBuf x).lat = s.lat := rfl
@[simp] theorem State.withBuf_work (x : Buffers) : (s.withBuf x).work = s.work := rfl
@[simp] theorem State.withBuf_ph (x : Buffers) : (s.withBuf x).ph = s.ph := rfl
@[simp] theorem State.withBuf_rnd (x : Buffers) : (s.withBuf x).rnd = s.rnd := rfl
@[simp] theorem State.withBuf_chain (x : Buffers) : (s.withBuf x).chain = s.chain := rfl
@[simp] theorem State.withBuf_aespKey (x : Buffers) : (s.withBuf x).aespKey = s.aespKey := rfl
@[simp] theorem State.withBuf_pending (x : Buffers) : (s.withBuf x).pending = s.pending := rfl
@[simp] theorem State.withBuf_self : s.withBuf s.buf = s := rfl
@[simp] theorem State.withBuf_twice (x y : Buffers) : (s.withBuf x).withBuf y = s.withBuf y := rfl

@[simp] theorem State.withCtx_reg (x : Context) : (s.withCtx x).reg = s.reg := rfl
@[simp] theorem State.withCtx_buf (x : Context) : (s.withCtx x).buf = s.buf := rfl
@[simp] theorem State.withCtx_ctx (x : Context) : (s.withCtx x).ctx = x := rfl
@[simp] theorem State.withCtx_lat (x : Context) : (s.withCtx x).lat = s.lat := rfl
@[simp] theorem State.withCtx_work (x : Context) : (s.withCtx x).work = s.work := rfl
@[simp] theorem State.withCtx_ph (x : Context) : (s.withCtx x).ph = s.ph := rfl
@[simp] theorem State.withCtx_rnd (x : Context) : (s.withCtx x).rnd = s.rnd := rfl
@[simp] theorem State.withCtx_chain (x : Context) : (s.withCtx x).chain = s.chain := rfl
@[simp] theorem State.withCtx_aespKey (x : Context) : (s.withCtx x).aespKey = s.aespKey := rfl
@[simp] theorem State.withCtx_pending (x : Context) : (s.withCtx x).pending = s.pending := rfl
@[simp] theorem State.withCtx_self : s.withCtx s.ctx = s := rfl
@[simp] theorem State.withCtx_twice (x y : Context) : (s.withCtx x).withCtx y = s.withCtx y := rfl

@[simp] theorem State.withLat_reg (x : Latches) : (s.withLat x).reg = s.reg := rfl
@[simp] theorem State.withLat_buf (x : Latches) : (s.withLat x).buf = s.buf := rfl
@[simp] theorem State.withLat_ctx (x : Latches) : (s.withLat x).ctx = s.ctx := rfl
@[simp] theorem State.withLat_lat (x : Latches) : (s.withLat x).lat = x := rfl
@[simp] theorem State.withLat_work (x : Latches) : (s.withLat x).work = s.work := rfl
@[simp] theorem State.withLat_ph (x : Latches) : (s.withLat x).ph = s.ph := rfl
@[simp] theorem State.withLat_rnd (x : Latches) : (s.withLat x).rnd = s.rnd := rfl
@[simp] theorem State.withLat_chain (x : Latches) : (s.withLat x).chain = s.chain := rfl
@[simp] theorem State.withLat_aespKey (x : Latches) : (s.withLat x).aespKey = s.aespKey := rfl
@[simp] theorem State.withLat_pending (x : Latches) : (s.withLat x).pending = s.pending := rfl
@[simp] theorem State.withLat_self : s.withLat s.lat = s := rfl
@[simp] theorem State.withLat_twice (x y : Latches) : (s.withLat x).withLat y = s.withLat y := rfl

@[simp] theorem State.withWork_reg (x : Work) : (s.withWork x).reg = s.reg := rfl
@[simp] theorem State.withWork_buf (x : Work) : (s.withWork x).buf = s.buf := rfl
@[simp] theorem State.withWork_ctx (x : Work) : (s.withWork x).ctx = s.ctx := rfl
@[simp] theorem State.withWork_lat (x : Work) : (s.withWork x).lat = s.lat := rfl
@[simp] theorem State.withWork_work (x : Work) : (s.withWork x).work = x := rfl
@[simp] theorem State.withWork_ph (x : Work) : (s.withWork x).ph = s.ph := rfl
@[simp] theorem State.withWork_rnd (x : Work) : (s.withWork x).rnd = s.rnd := rfl
@[simp] theorem State.withWork_chain (x : Work) : (s.withWork x).chain = s.chain := rfl
@[simp] theorem State.withWork_aespKey (x : Work) : (s.withWork x).aespKey = s.aespKey := rfl
@[simp] theorem State.withWork_pending (x : Work) : (s.withWork x).pending = s.pending := rfl
@[simp] theorem State.withWork_self : s.withWork s.work = s := rfl
@[simp] theorem State.withWork_twice (x y : Work) : (s.withWork x).withWork y = s.withWork y := rfl

@[simp] theorem State.withPhase_reg (x : Phase) : (s.withPhase x).reg = s.reg := rfl
@[simp] theorem State.withPhase_buf (x : Phase) : (s.withPhase x).buf = s.buf := rfl
@[simp] theorem State.withPhase_ctx (x : Phase) : (s.withPhase x).ctx = s.ctx := rfl
@[simp] theorem State.withPhase_lat (x : Phase) : (s.withPhase x).lat = s.lat := rfl
@[simp] theorem State.withPhase_work (x : Phase) : (s.withPhase x).work = s.work := rfl
@[simp] theorem State.withPhase_ph (x : Phase) : (s.withPhase x).ph = x := rfl
@[simp] theorem State.withPhase_rnd (x : Phase) : (s.withPhase x).rnd = s.rnd := rfl
@[simp] theorem State.withPhase_chain (x : Phase) : (s.withPhase x).chain = s.chain := rfl
@[simp] theorem State.withPhase_aespKey (x : Phase) : (s.withPhase x).aespKey = s.aespKey := rfl
@[simp] theorem State.withPhase_pending (x : Phase) : (s.withPhase x).pending = s.pending := rfl
@[simp] theorem State.withPhase_self : s.withPhase s.ph = s := rfl
@[simp] theorem State.withPhase_twice (x y : Phase) : (s.withPhase x).withPhase y = s.withPhase y := rfl

@[simp] theorem State.withRound_reg (x : Nat) : (s.withRound x).reg = s.reg := rfl
@[simp] theorem State.withRound_buf (x : Nat) : (s.withRound x).buf = s.buf := rfl
@[simp] theorem State.withRound_ctx (x : Nat) : (s.withRound x).ctx = s.ctx := rfl
@[simp] theorem State.withRound_lat (x : Nat) : (s.withRound x).lat = s.lat := rfl
@[simp] theorem State.withRound_work (x : Nat) : (s.withRound x).work = s.work := rfl
@[simp] theorem State.withRound_ph (x : Nat) : (s.withRound x).ph = s.ph := rfl
@[simp] theorem State.withRound_rnd (x : Nat) : (s.withRound x).rnd = x := rfl
@[simp] theorem State.withRound_chain (x : Nat) : (s.withRound x).chain = s.chain := rfl
@[simp] theorem State.withRound_aespKey (x : Nat) : (s.withRound x).aespKey = s.aespKey := rfl
@[simp] theorem State.withRound_pending (x : Nat) : (s.withRound x).pending = s.pending := rfl
@[simp] theorem State.withRound_self : s.withRound s.rnd = s := rfl
@[simp] theorem State.withRound_twice (x y : Nat) : (s.withRound x).withRound y = s.withRound y := rfl

@[simp] theorem State.withChain_reg (x : Bytes) : (s.withChain x).reg = s.reg := rfl
@[simp] theorem State.withChain_buf (x : Bytes) : (s.withChain x).buf = s.buf := rfl
@[simp] theorem State.withChain_ctx (x : Bytes) : (s.withChain x).ctx = s.ctx := rfl
@[simp] theorem State.withChain_lat (x : Bytes) : (s.withChain x).lat = s.lat := rfl
@[simp] theorem State.withChain_work (x : Bytes) : (s.withChain x).work = s.work := rfl
@[simp] theorem State.withChain_ph (x : Bytes) : (s.withChain x).ph = s.ph := rfl
@[simp] theorem State.withChain_rnd (x : Bytes) : (s.withChain x).rnd = s.rnd := rfl
@[simp] theorem State.withChain_chain (x : Bytes) : (s.withChain x).chain = x := rfl
@[simp] theorem State.withChain_aespKey (x : Bytes) : (s.withChain x).aespKey = s.aespKey := rfl
@[simp] theorem State.withChain_pending (x : Bytes) : (s.withChain x).pending = s.pending := rfl
@[simp] theorem State.withChain_self : s.withChain s.chain = s := rfl
@[simp] theorem State.withChain_twice (x y : Bytes) : (s.withChain x).withChain y = s.withChain y := rfl

@[simp] theorem State.withAespKey_reg (x : Option Bytes) : (s.withAespKey x).reg = s.reg := rfl
@[simp] theorem State.withAespKey_buf (x : Option Bytes) : (s.withAespKey x).buf = s.buf := rfl
@[simp] theorem State.withAespKey_ctx (x : Option Bytes) : (s.withAespKey x).ctx = s.ctx := rfl
@[simp] theorem State.withAespKey_lat (x : Option Bytes) : (s.withAespKey x).lat = s.lat := rfl
@[simp] theorem State.withAespKey_work (x : Option Bytes) : (s.withAespKey x).work = s.work := rfl
@[simp] theorem State.withAespKey_ph (x : Option Bytes) : (s.withAespKey x).ph = s.ph := rfl
@[simp] theorem State.withAespKey_rnd (x : Option Bytes) : (s.withAespKey x).rnd = s.rnd := rfl
@[simp] theorem State.withAespKey_chain (x : Option Bytes) : (s.withAespKey x).chain = s.chain := rfl
@[simp] theorem State.withAespKey_aespKey (x : Option Bytes) : (s.withAespKey x).aespKey = x := rfl
@[simp] theorem State.withAespKey_pending (x : Option Bytes) : (s.withAespKey x).pending = s.pending := rfl
@[simp] theorem State.withAespKey_self : s.withAespKey s.aespKey = s := rfl
@[simp] theorem State.withAespKey_twice (x y : Option Bytes) : (s.withAespKey x).withAespKey y = s.withAespKey y := rfl

@[simp] theorem State.withPending_reg (x : List Event) : (s.withPending x).reg = s.reg := rfl
@[simp] theorem State.withPending_buf (x : List Event) : (s.withPending x).buf = s.buf := rfl
@[simp] theorem State.withPending_ctx (x : List Event) : (s.withPending x).ctx = s.ctx := rfl
@[simp] theorem State.withPending_lat (x : List Event) : (s.withPending x).lat = s.lat := rfl
@[simp] theorem State.withPending_work (x : List Event) : (s.withPending x).work = s.work := rfl
@[simp] theorem State.withPending_ph (x : List Event) : (s.withPending x).ph = s.ph := rfl
@[simp] theorem State.withPending_rnd (x : List Event) : (s.withPending x).rnd = s.rnd := rfl
@[simp] theorem State.withPending_chain (x : List Event) : (s.withPending x).chain = s.chain := rfl
@[simp] theorem State.withPending_aespKey (x : List Event) : (s.withPending x).aespKey = s.aespKey := rfl
@[simp] theorem State.withPending_pending (x : List Event) : (s.withPending x).pending = x := rfl
@[simp] theorem State.withPending_self : s.withPending s.pending = s := rfl
@[simp] theorem State.withPending_twice (x y : List Event) : (s.withPending x).withPending y = s.withPending y := rfl

end Sys2Proof.Machine
end

