-- ==== Sys2Proof/Laws/Flow.lean ====
section
/-! SUPPORT. Moves, numbered steps that can raise an error, acceptance and the three ways a command ends: what each of
them does, said once. -/

namespace Sys2Proof.Machine

@[simp] theorem Move.start_state (s : State) : (Move.start s).state = s := rfl
@[simp] theorem Move.start_txns (s : State) : (Move.start s).txns = [] := rfl
@[simp] theorem Move.update_state (m : Move) (f : State → State) : (m.update f).state = f m.state := rfl
@[simp] theorem Move.update_txns (m : Move) (f : State → State) : (m.update f).txns = m.txns := rfl
@[simp] theorem Move.updateWork_state (m : Move) (f : Work → Work) :
    (m.updateWork f).state = m.state.withWork (f m.state.work) := rfl
@[simp] theorem Move.updateWork_txns (m : Move) (f : Work → Work) : (m.updateWork f).txns = m.txns := rfl
@[simp] theorem Move.record_state (m : Move) (t : PortTxn) : (m.record t).state = m.state := rfl
@[simp] theorem Move.record_txns (m : Move) (t : PortTxn) : (m.record t).txns = m.txns ++ [t] := rfl

@[simp] theorem Flow.andThen_ok {α β : Type} (a : α) (m : Move) (f : α → Move → Flow β) :
    (Flow.ok a m).andThen f = f a m := rfl
@[simp] theorem Flow.andThen_raised {α β : Type} (e : ErrorName) (m : Move) (f : α → Move → Flow β) :
    (Flow.raised e m).andThen f = .raised e m := rfl
@[simp] theorem Flow.need_some {α : Type} (e : ErrorName) (a : α) (m : Move) : Flow.need e (some a) m = .ok a m := rfl
@[simp] theorem Flow.need_none {α : Type} (e : ErrorName) (m : Move) :
    Flow.need e (none : Option α) m = .raised e m := rfl
@[simp] theorem Flow.set_eq (m : Move) : Flow.set m = .ok () m := rfl
@[simp] theorem Flow.settle_ok (u : Unit) (m : Move) : (Flow.ok u m).settle = m := rfl
@[simp] theorem Flow.settle_raised (e : ErrorName) (m : Move) :
    (Flow.raised e m : Flow Unit).settle = m.update (raiseError e) := rfl

/-! ### Acceptance (20_memory.md R47) -/

theorem accept_eq (p : Params) (w : Word) (s : State) :
    accept p w s = { s with lat := latchOperands p w s.reg s.buf, reg := regsAccepted s.reg, ph := .check } := rfl

@[simp] theorem accept_lat (p : Params) (w : Word) (s : State) : (accept p w s).lat = latchOperands p w s.reg s.buf :=
    rfl
@[simp] theorem accept_reg (p : Params) (w : Word) (s : State) : (accept p w s).reg = regsAccepted s.reg := rfl
@[simp] theorem accept_ph (p : Params) (w : Word) (s : State) : (accept p w s).ph = .check := rfl
@[simp] theorem accept_buf (p : Params) (w : Word) (s : State) : (accept p w s).buf = s.buf := rfl
@[simp] theorem accept_ctx (p : Params) (w : Word) (s : State) : (accept p w s).ctx = s.ctx := rfl
@[simp] theorem accept_work (p : Params) (w : Word) (s : State) : (accept p w s).work = s.work := rfl
@[simp] theorem accept_rnd (p : Params) (w : Word) (s : State) : (accept p w s).rnd = s.rnd := rfl
@[simp] theorem accept_chain (p : Params) (w : Word) (s : State) : (accept p w s).chain = s.chain := rfl
@[simp] theorem accept_aespKey (p : Params) (w : Word) (s : State) : (accept p w s).aespKey = s.aespKey := rfl
@[simp] theorem accept_pending (p : Params) (w : Word) (s : State) : (accept p w s).pending = s.pending := rfl

/-! ### Completion (60_exceptions.md R203, R205) -/

theorem completeOk_eq (s : State) :
    completeOk s = { s with
      reg := regsCompleted s.reg, lat := Latches.zero, work := Work.zero, ph := .idle, rnd := 0,
      chain := zeroBytes Config.blockBytes } := rfl

/-- Both classes of error end a command alike but for the phase (R203, R205). -/
theorem raiseError_eq (e : ErrorName) (s : State) :
    raiseError e s = { s with
      reg := regsFailed e s.reg, lat := Latches.zero, work := Work.zero,
      ph := if errorIsFatal e then .fatal else .idle, rnd := 0, chain := zeroBytes Config.blockBytes } := by
  unfold raiseError
  cases errorIsFatal e <;> rfl

@[simp] theorem raiseError_reg (e : ErrorName) (s : State) : (raiseError e s).reg = regsFailed e s.reg := by
  rw [raiseError_eq]
@[simp] theorem raiseError_buf (e : ErrorName) (s : State) : (raiseError e s).buf = s.buf := by rw [raiseError_eq]
@[simp] theorem raiseError_ctx (e : ErrorName) (s : State) : (raiseError e s).ctx = s.ctx := by rw [raiseError_eq]
@[simp] theorem raiseError_lat (e : ErrorName) (s : State) : (raiseError e s).lat = Latches.zero :=
    by rw [raiseError_eq]
@[simp] theorem raiseError_work (e : ErrorName) (s : State) : (raiseError e s).work = Work.zero := by rw [raiseError_eq]
@[simp] theorem raiseError_ph (e : ErrorName) (s : State) :
    (raiseError e s).ph = if errorIsFatal e then .fatal else .idle := by rw [raiseError_eq]
@[simp] theorem raiseError_rnd (e : ErrorName) (s : State) : (raiseError e s).rnd = 0 := by rw [raiseError_eq]
@[simp] theorem raiseError_chain (e : ErrorName) (s : State) : (raiseError e s).chain = zeroBytes 16 := by
  rw [raiseError_eq]
@[simp] theorem raiseError_aespKey (e : ErrorName) (s : State) : (raiseError e s).aespKey = s.aespKey := by
  rw [raiseError_eq]
@[simp] theorem raiseError_pending (e : ErrorName) (s : State) : (raiseError e s).pending = s.pending := by
  rw [raiseError_eq]

@[simp] theorem completeOk_reg (s : State) : (completeOk s).reg = regsCompleted s.reg := rfl
@[simp] theorem completeOk_buf (s : State) : (completeOk s).buf = s.buf := rfl
@[simp] theorem completeOk_ctx (s : State) : (completeOk s).ctx = s.ctx := rfl
@[simp] theorem completeOk_lat (s : State) : (completeOk s).lat = Latches.zero := rfl
@[simp] theorem completeOk_work (s : State) : (completeOk s).work = Work.zero := rfl
@[simp] theorem completeOk_ph (s : State) : (completeOk s).ph = .idle := rfl
@[simp] theorem completeOk_rnd (s : State) : (completeOk s).rnd = 0 := rfl
@[simp] theorem completeOk_chain (s : State) : (completeOk s).chain = zeroBytes 16 := rfl
@[simp] theorem completeOk_aespKey (s : State) : (completeOk s).aespKey = s.aespKey := rfl
@[simp] theorem completeOk_pending (s : State) : (completeOk s).pending = s.pending := rfl

end Sys2Proof.Machine
end

