-- ==== Sys2Proof/Laws/Memory.lean ====
section
/-! SUPPORT. Buffers: a read after a write, and every buffer operation keeps the canonical form. -/

namespace Sys2Proof.Machine

@[simp] theorem Memory.read_nil (i : Nat) : Memory.read [] i = Memory.unlisted := rfl

theorem Memory.read_cons (a : Nat) (b : Byte) (m : Memory) (i : Nat) :
    Memory.read ((a, b) :: m) i = if a = i then b else Memory.read m i := rfl

/-- A byte that lies below every listed address reads as an unlisted one. -/
theorem Memory.read_below (m : Memory) (i : Nat) (h : ∀ c ∈ m, i < c.1) : Memory.read m i = Memory.unlisted := by
  induction m with
  | nil => rfl
  | cons c m ih =>
    obtain ⟨a, b⟩ := c
    have ha : i < a := h (a, b) (by simp)
    rw [Memory.read_cons, if_neg (by omega)]
    exact ih fun c hc => h c (by simp [hc])

theorem Memory.canonical_nil : Memory.Canonical [] := by simp [Memory.Canonical]

theorem Memory.canonical_tail {c : Host.Cell} {m : Memory} (h : Memory.Canonical (c :: m)) : Memory.Canonical m :=
  ⟨(List.pairwise_cons.mp h.1).2, fun x hx => h.2 x (by simp [hx])⟩

theorem Memory.canonical_above {c : Host.Cell} {m : Memory} (h : Memory.Canonical (c :: m)) :
    ∀ x ∈ m, c.1 < x.1 := (List.pairwise_cons.mp h.1).1

/-- Every listed address after a write was listed before or is the written one. -/
theorem Memory.mem_write {m : Memory} {i : Nat} {v : Byte} {c : Host.Cell} (h : c ∈ m.write i v) :
    c ∈ m ∨ c = (i, v) := by
  induction m with
  | nil =>
    unfold Memory.write at h
    split at h <;> simp_all
  | cons d m ih =>
    obtain ⟨a, b⟩ := d
    unfold Memory.write at h
    split at h
    · split at h
      · exact .inl h
      · rcases List.mem_cons.mp h with h | h
        · exact .inr h
        · exact .inl h
    · split at h
      · split at h
        · exact .inl (List.mem_cons_of_mem _ h)
        · rcases List.mem_cons.mp h with h | h
          · exact .inr h
          · exact .inl (List.mem_cons_of_mem _ h)
      · rcases List.mem_cons.mp h with h | h
        · exact .inl (by simp [h])
        · exact (ih h).imp (List.mem_cons_of_mem _) id

/-- A write never lists the value of an unlisted byte. -/
theorem Memory.write_listed {m : Memory} (i : Nat) (v : Byte) (h : ∀ c ∈ m, c.2 ≠ Memory.unlisted) :
    ∀ c ∈ m.write i v, c.2 ≠ Memory.unlisted := by
  by_cases hv : v = Memory.unlisted
  · subst hv
    induction m with
    | nil => simp [Memory.write]
    | cons d m ih =>
      obtain ⟨a, b⟩ := d
      have ihm := ih fun c hc => h c (by simp [hc])
      unfold Memory.write
      split
      · simpa using h
      · split
        · simpa using fun c hc => h c (List.mem_cons_of_mem _ hc)
        · intro c hc
          rcases List.mem_cons.mp hc with hc | hc
          · exact h c (by simp [hc])
          · exact ihm c hc
  · intro c hc
    rcases Memory.mem_write hc with hc | hc
    · exact h c hc
    · rw [hc]; exact hv

/-- A write keeps the canonical form. -/
theorem Memory.canonical_write {m : Memory} (i : Nat) (v : Byte) (h : m.Canonical) : (m.write i v).Canonical := by
  refine ⟨?_, Memory.write_listed i v h.2⟩
  induction m with
  | nil =>
    unfold Memory.write
    split <;> simp
  | cons d m ih =>
    obtain ⟨a, b⟩ := d
    have ht := Memory.canonical_tail h
    have ha := Memory.canonical_above h
    unfold Memory.write
    split
    · rename_i hia
      split
      · exact h.1
      · refine List.pairwise_cons.mpr ⟨?_, h.1⟩
        intro c hc
        rcases List.mem_cons.mp hc with hc | hc
        · simpa [hc] using hia
        · exact Nat.lt_trans hia (ha c hc)
    · split
      · rename_i hia
        split
        · exact ht.1
        · exact List.pairwise_cons.mpr ⟨fun c hc => by simpa [hia] using ha c hc, ht.1⟩
      · refine List.pairwise_cons.mpr ⟨?_, ih ht⟩
        intro c hc
        rcases Memory.mem_write hc with hc | hc
        · exact ha c hc
        · rw [hc]; simp only; omega

/-- A write below `size` lists no address at or beyond it. -/
theorem Memory.within_write {m : Memory} {size i : Nat} (v : Byte) (h : m.Within size) (hi : i < size) :
    (m.write i v).Within size := by
  intro c hc
  rcases Memory.mem_write hc with hc | hc
  · exact h c hc
  · rw [hc]; exact hi

/-- A read after a write: the written byte at its own place, every other byte as before. -/
theorem Memory.read_write {m : Memory} (h : m.Canonical) (i j : Nat) (v : Byte) :
    (m.write i v).read j = if j = i then v else m.read j := by
  induction m with
  | nil =>
    unfold Memory.write
    split
    · rename_i hv; simp [hv]
    · rw [Memory.read_cons]; simp [eq_comm]
  | cons d m ih =>
    obtain ⟨a, b⟩ := d
    have ht := Memory.canonical_tail h
    have ha := Memory.canonical_above h
    have hb : ∀ k, k ≤ a → Memory.read m k = Memory.unlisted := fun k hk =>
      Memory.read_below m k fun c hc => Nat.lt_of_le_of_lt hk (ha c hc)
    unfold Memory.write
    split
    · rename_i hia
      split
      · rename_i hv
        split
        · rename_i hj
          rw [Memory.read_cons, if_neg (by omega), hj, hb i (by omega), hv]
        · rfl
      · rw [Memory.read_cons]
        simp [eq_comm]
    · split
      · rename_i hia
        split
        · rename_i hv
          split
          · rename_i hj
            rw [hj, hv, hia]; exact hb a (Nat.le_refl a)
          · rename_i hj
            rw [Memory.read_cons, if_neg (by omega)]
        · rw [Memory.read_cons, Memory.read_cons]
          by_cases hj : j = i
          · rw [if_pos hj.symm, if_pos hj]
          · rw [if_neg (Ne.symm hj), if_neg hj, if_neg (by omega)]
      · rename_i h1 h2
        rw [Memory.read_cons, Memory.read_cons, ih ht]
        split
        · rename_i haj; rw [if_neg (by omega)]
        · rfl

theorem Memory.canonical_store {m : Memory} (off : Nat) (vs : Bytes) (h : m.Canonical) : (m.store off vs).Canonical :=
    by
  induction vs generalizing m off with
  | nil => exact h
  | cons v vs ih => exact ih (off + 1) (Memory.canonical_write off v h)

theorem Memory.within_store {m : Memory} {size off : Nat} (vs : Bytes) (h : m.Within size)
    (hs : off + vs.length ≤ size) : (m.store off vs).Within size := by
  induction vs generalizing m off with
  | nil => exact h
  | cons v vs ih =>
    simp only [List.length_cons] at hs
    exact ih (Memory.within_write v h (by omega)) (by omega)

/-- A read after a store of several bytes: the stored bytes at their places, every other byte as before. -/
theorem Memory.read_store {m : Memory} (h : m.Canonical) (off : Nat) (vs : Bytes) (j : Nat) :
    (m.store off vs).read j = if h : off ≤ j ∧ j < off + vs.length then vs[j - off] else m.read j := by
  induction vs generalizing m off with
  | nil =>
    rw [dif_neg (by simp only [List.length_nil]; omega)]
    rfl
  | cons v vs ih =>
    have hstep := ih (Memory.canonical_write off v h) (off + 1)
    simp only [Memory.store, hstep, Memory.read_write h, List.length_cons]
    by_cases hj : j = off
    · subst hj; simp
    · by_cases hk : off ≤ j ∧ j < off + (vs.length + 1)
      · rw [dif_pos (by omega), dif_pos hk]
        have : j - off = (j - (off + 1)) + 1 := by omega
        simp [this]
      · rw [dif_neg (by omega), dif_neg hk, if_neg hj]

@[simp] theorem Memory.length_load (m : Memory) (n : Nat) : (m.load n).length = n := by simp [Memory.load]

@[simp] theorem Memory.getElem_load (m : Memory) (n k : Nat) (h : k < (m.load n).length) : (m.load n)[k] = m.read k :=
    by
  simp [Memory.load]

theorem Memory.load_congr {m m' : Memory} (h : ∀ i, m.read i = m'.read i) (n : Nat) : m.load n = m'.load n := by
  simp [Memory.load, h]

/-- The first bytes of a load are a shorter load. -/
theorem Memory.take_load (m : Memory) (n k : Nat) : (m.load n).take k = m.load (min n k) := by
  apply List.ext_getElem
  · simp [Nat.min_comm]
  · intro i h1 h2
    simp

/-- Two canonical buffers that read alike are equal. -/
theorem Memory.canonical_ext {m m' : Memory} (h : m.Canonical) (h' : m'.Canonical) (hr : ∀ i, m.read i = m'.read i) :
    m = m' := by
  induction m generalizing m' with
  | nil =>
    cases m' with
    | nil => rfl
    | cons c m' =>
      obtain ⟨a, b⟩ := c
      have := hr a
      simp [Memory.read_cons] at this
      exact absurd this.symm (h'.2 (a, b) (by simp))
  | cons c m ih =>
    obtain ⟨a, b⟩ := c
    cases m' with
    | nil =>
      have := hr a
      simp [Memory.read_cons] at this
      exact absurd this (h.2 (a, b) (by simp))
    | cons c' m' =>
      obtain ⟨a', b'⟩ := c'
      have hne := h.2 (a, b) (by simp)
      have hne' := h'.2 (a', b') (by simp)
      have hbelow : ∀ k, k ≤ a → Memory.read m k = Memory.unlisted := fun k hk =>
        Memory.read_below m k fun c hc => Nat.lt_of_le_of_lt hk (Memory.canonical_above h c hc)
      have hbelow' : ∀ k, k ≤ a' → Memory.read m' k = Memory.unlisted := fun k hk =>
        Memory.read_below m' k fun c hc => Nat.lt_of_le_of_lt hk (Memory.canonical_above h' c hc)
      have haa : a = a' := by
        rcases Nat.lt_trichotomy a a' with hlt | heq | hgt
        · have := hr a
          rw [Memory.read_cons, Memory.read_cons, if_pos rfl, if_neg (by omega), hbelow' a (by omega)] at this
          exact absurd this hne
        · exact heq
        · have := hr a'
          rw [Memory.read_cons, Memory.read_cons, if_pos rfl, if_neg (by omega), hbelow a' (by omega)] at this
          exact absurd this.symm hne'
      subst haa
      have hbb : b = b' := by simpa [Memory.read_cons] using hr a
      subst hbb
      congr 1
      refine ih (Memory.canonical_tail h) (Memory.canonical_tail h') fun i => ?_
      by_cases hi : a = i
      · subst hi; rw [hbelow a (Nat.le_refl a), hbelow' a (Nat.le_refl a)]
      · simpa [Memory.read_cons, hi] using hr i

/-- Storing the same bytes at the same place again changes nothing. -/
theorem Memory.store_store {m : Memory} (h : m.Canonical) (off : Nat) (vs : Bytes) :
    (m.store off vs).store off vs = m.store off vs := by
  refine Memory.canonical_ext (Memory.canonical_store _ _ (Memory.canonical_store _ _ h)) (Memory.canonical_store _ _ h)
    fun i => ?_
  rw [Memory.read_store (Memory.canonical_store _ _ h), Memory.read_store h]
  split <;> rfl

end Sys2Proof.Machine
end

