-- ==== Sys2Proof/Laws/Context.lean ====
section
/-! SUPPORT. Context construction: the text bounds, the latched operands, what the checks answer and what the commit
stores. -/

namespace Sys2Proof.Machine

/-! ### Parameters (00_scope.md R7) -/

theorem hardware_wellFormed : Config.hardware.wellFormed = true := by
  have h1 := Config.textCapacityOver.isLt
  have h2 := Config.tweakCapacityOver.isLt
  have hn : Config.hardware.nCap = 20 + Config.textCapacityOver.val := rfl
  have ht : Config.hardware.tCap = 7 + Config.tweakCapacityOver.val := rfl
  simp only [Params.wellFormed, Bool.and_eq_true, decide_eq_true_eq]
  omega

theorem wellFormed_bounds {p : Params} (h : p.wellFormed = true) :
    20 ≤ p.nCap ∧ p.nCap < 2 ^ 32 ∧ 7 ≤ p.tCap ∧ p.tCap < 2 ^ 32 := by
  simp only [Params.wellFormed, Bool.and_eq_true, decide_eq_true_eq] at h
  omega

/-! ### Text bounds (40_context.md R83 to R88) -/

theorem textMin_bounds {radix : Nat} (h : 2 ≤ radix) (h' : radix ≤ 36) : 4 ≤ textMin radix ∧ textMin radix ≤ 20 := by
  interval_cases radix <;> decide

theorem ff31TextMaxDoc_bound {radix : Nat} (h : 2 ≤ radix) (h' : radix ≤ 36) : 37 ≤ ff31TextMaxDoc radix := by
  interval_cases radix <;> decide +kernel

/-- The FF1 bound is the capacity (R87). -/
theorem ff1TextMax_eq {p : Params} (h : p.wellFormed = true) : ff1TextMax p = p.nCap := by
  have := wellFormed_bounds h
  unfold ff1TextMax Config.ff1TextMax
  omega

theorem textMax_le_nCap {p : Params} {c : Context} (h : ContextLegal p c) : c.txtMax ≤ p.nCap := by
  rw [h.txt_max]
  split
  · exact Nat.min_le_right _ _
  · exact Nat.min_le_right _ _

/-! ### The latches (10_state.md R24) -/

theorem latchOperands_sized (p : Params) (w : Word) (r : HostRegs) (b : Buffers) :
    LatchesSized p (latchOperands p w r b) :=
  ⟨by simp [latchOperands], by simp [latchOperands], by simp [latchOperands]⟩

/-- The key operand is the first `KEYLEN` bytes of `KEY` (R64). -/
theorem keyOperand_latched (p : Params) (w : Word) (s : State) (h : s.reg.keylen.toNat ≤ 32) :
    (latchOperands p w s.reg s.buf).keyOperand = keyInput s := by
  unfold Latches.keyOperand keyInput latchOperands
  simp only [slice_zero, Memory.take_load, Config.keyBufferBytes]
  congr 1
  omega

/-- The tweak operand is the first `TWKLEN` bytes of `TWK` (R64). -/
theorem tweakOperand_latched (p : Params) (w : Word) (s : State) (h : s.reg.twklen.toNat ≤ p.tCap) :
    (latchOperands p w s.reg s.buf).tweakOperand = tweakInput s := by
  unfold Latches.tweakOperand tweakInput latchOperands
  simp only [slice_zero, Memory.take_load]
  congr 1
  omega

/-- The latched tweak is the first `TWKLEN` bytes of `TWK` (R146). -/
theorem twk_latched (p : Params) (w : Word) (s : State) (h : s.reg.twklen.toNat ≤ p.tCap) :
    (latchOperands p w s.reg s.buf).twk = tweakInput s := by
  unfold tweakInput latchOperands
  simp only
  congr 1
  omega

/-- The text operand is the first `TXTLEN` bytes of `TXT` (R64). -/
theorem txt_latched (p : Params) (w : Word) (s : State) (h : s.reg.txtlen.toNat ≤ p.nCap) :
    (latchOperands p w s.reg s.buf).txt = textInput s := by
  unfold textInput latchOperands
  simp only
  congr 1
  omega

theorem keyOperand_length {p : Params} {l : Latches} (h : LatchesSized p l) (hk : l.keylen.toNat ≤ 32) :
    l.keyOperand.length = l.keylen.toNat := by
  rw [Latches.keyOperand, slice_length, h.key]
  simp only [Config.keyBufferBytes]
  omega

theorem tweakOperand_length {p : Params} {l : Latches} (h : LatchesSized p l) (ht : l.twklen.toNat ≤ p.tCap) :
    l.tweakOperand.length = l.twklen.toNat := by
  rw [Latches.tweakOperand, slice_length, h.twk]
  omega

/-! ### The checks (R80, R92) -/

theorem keyRadixError_eq_none {l : Latches} : keyRadixError l = none ↔ keySizeLegal l ∧ radixLegal l := by
  unfold keyRadixError
  by_cases h1 : keySizeLegal l <;> by_cases h2 : radixLegal l <;> simp only [h1, h2] <;> simp

/-- The tweak checks of `CTX.FF1` pass (R89, R90). -/
theorem ff1TweakError_eq_none {p : Params} {l : Latches} : ff1TweakError p l = none ↔
    (l.twkmax.toNat ≠ 0 → l.twkmin.toNat ≤ l.twkmax.toNat) ∧ l.twklen.toNat ≤ p.tCap ∧
      l.twkmin.toNat ≤ l.twklen.toNat ∧ (l.twkmax.toNat ≠ 0 → l.twklen.toNat ≤ l.twkmax.toNat) := by
  unfold ff1TweakError
  split
  · simp; omega
  · split
    · simp; omega
    · split
      · simp; omega
      · split
        · simp; omega
        · simp only [true_iff]; omega

theorem ctxFF1Error_eq_none {p : Params} {l : Latches} : ctxFF1Error p l = none ↔
    keySizeLegal l ∧ radixLegal l ∧ textMin l.radix.toNat ≤ ff1TextMax p ∧ ff1TweakError p l = none := by
  unfold ctxFF1Error
  cases h : keyRadixError l with
  | some e =>
    have : ¬(keySizeLegal l ∧ radixLegal l) := by rw [← keyRadixError_eq_none, h]; simp
    simp only [reduceCtorEq, false_iff]
    exact fun h' => this ⟨h'.1, h'.2.1⟩
  | none =>
    obtain ⟨hk, hr⟩ := keyRadixError_eq_none.mp h
    simp only
    by_cases hb : ff1TextMax p < textMin l.radix.toNat
    · rw [if_pos hb]
      simp only [reduceCtorEq, false_iff]
      exact fun h' => absurd h'.2.2.1 (by omega)
    · rw [if_neg hb]
      exact ⟨fun h' => ⟨hk, hr, by omega, h'⟩, fun h' => h'.2.2.2⟩

theorem ctxFF31Error_eq_none {p : Params} {l : Latches} : ctxFF31Error p l = none ↔
    keySizeLegal l ∧ radixLegal l ∧ textMin l.radix.toNat ≤ ff31TextMax p l.radix.toNat ∧ l.twklen.toNat = 7 := by
  unfold ctxFF31Error
  cases h : keyRadixError l with
  | some e =>
    have : ¬(keySizeLegal l ∧ radixLegal l) := by rw [← keyRadixError_eq_none, h]; simp
    simp only [reduceCtorEq, false_iff]
    exact fun h' => this ⟨h'.1, h'.2.1⟩
  | none =>
    obtain ⟨hk, hr⟩ := keyRadixError_eq_none.mp h
    simp only
    by_cases hb : ff31TextMax p l.radix.toNat < textMin l.radix.toNat
    · rw [if_pos hb]
      simp only [reduceCtorEq, false_iff]
      exact fun h' => absurd h'.2.2.1 (by omega)
    · rw [if_neg hb]
      by_cases ht : l.twklen.toNat = 7
      · rw [if_neg (by simp [ht])]
        exact ⟨fun _ => ⟨hk, hr, by omega, ht⟩, fun _ => rfl⟩
      · rw [if_pos (by simpa using ht)]
        simp only [reduceCtorEq, false_iff]
        exact fun h' => ht h'.2.2.2

/-- The checks of `CTX.FF1` in a row: the text bounds never fail (R80, R88). -/
theorem ctxFF1Error_eq {p : Params} (hp : p.wellFormed = true) (l : Latches) :
    ctxFF1Error p l =
      if ¬keySizeLegal l then some .invalidKeySize
      else if ¬radixLegal l then some .invalidRadix
      else ff1TweakError p l := by
  unfold ctxFF1Error keyRadixError
  by_cases h1 : keySizeLegal l
  · by_cases h2 : radixLegal l
    · have hm := textMin_bounds h2.1 h2.2
      have hcap := wellFormed_bounds hp
      rw [if_neg (not_not_intro h1), if_neg (not_not_intro h2), if_neg (not_not_intro h1), if_neg (not_not_intro h2)]
      simp only
      rw [if_neg (by rw [ff1TextMax_eq hp]; omega)]
    · rw [if_neg (not_not_intro h1), if_pos h2, if_neg (not_not_intro h1), if_pos h2]
  · rw [if_pos h1, if_pos h1]

/-- The checks of `CTX.FF31` in a row: the text bounds never fail (R92, R88). -/
theorem ctxFF31Error_eq {p : Params} (hp : p.wellFormed = true) (l : Latches) :
    ctxFF31Error p l =
      if ¬keySizeLegal l then some .invalidKeySize
      else if ¬radixLegal l then some .invalidRadix
      else if l.twklen.toNat ≠ Config.ff31TweakBytes then some .invalidTweakLength
      else none := by
  unfold ctxFF31Error keyRadixError
  by_cases h1 : keySizeLegal l
  · by_cases h2 : radixLegal l
    · have hm := textMin_bounds h2.1 h2.2
      have hm' := ff31TextMaxDoc_bound h2.1 h2.2
      have hcap := wellFormed_bounds hp
      rw [if_neg (not_not_intro h1), if_neg (not_not_intro h2), if_neg (not_not_intro h1), if_neg (not_not_intro h2)]
      simp only
      rw [if_neg (by unfold ff31TextMax; omega)]
    · rw [if_neg (not_not_intro h1), if_pos h2, if_neg (not_not_intro h1), if_pos h2]
  · rw [if_pos h1, if_pos h1]

/-- Every error of the checks is recoverable, so a failed check is a completion with that error (R94, R203). -/
theorem ctxFF1Error_recoverable {p : Params} {l : Latches} {e : ErrorName} (h : ctxFF1Error p l = some e) :
    errorIsFatal e = false := by
  unfold ctxFF1Error keyRadixError ff1TweakError at h
  split at h
  · rename_i h1
    split at h1
    · simp at h1; subst h1; simp at h; subst h; rfl
    · split at h1
      · simp at h1; subst h1; simp at h; subst h; rfl
      · simp at h1
  · split at h
    · simp at h; subst h; rfl
    · repeat' split at h
      all_goals simp at h
      all_goals subst h; rfl

theorem ctxFF31Error_recoverable {p : Params} {l : Latches} {e : ErrorName} (h : ctxFF31Error p l = some e) :
    errorIsFatal e = false := by
  unfold ctxFF31Error keyRadixError at h
  split at h
  · rename_i h1
    split at h1
    · simp at h1; subst h1; simp at h; subst h; rfl
    · split at h1
      · simp at h1; subst h1; simp at h; subst h; rfl
      · simp at h1
  · repeat' split at h
    all_goals simp at h
    all_goals subst h; rfl

/-! ### The stored context (R91, R92) -/

/-- A context that `CTX.FF1` stores is legal (10_state.md R22). -/
theorem ctxFF1Context_legal {p : Params} {l : Latches} (hl : LatchesSized p l) (h : ctxFF1Error p l = none) :
    ContextLegal p (ctxFF1Context p l) := by
  obtain ⟨hk, hr, hb, ht⟩ := ctxFF1Error_eq_none.mp h
  obtain ⟨h1, h2, h3, h4⟩ := ff1TweakError_eq_none.mp ht
  have hk32 : l.keylen.toNat ≤ 32 := by unfold keySizeLegal at hk; omega
  exact {
    alg := by simp [ctxFF1Context]
    klen := hk
    key := keyOperand_length hl hk32
    radix := hr
    dtwk := tweakOperand_length hl h2
    dtwk_fits := h2
    twk_bounds := by simp only [ctxFF1Context]; omega
    dtwk_low := h3
    dtwk_high := h4
    twk_words := ⟨l.twkmin.isLt, l.twkmax.isLt⟩
    ff31_tweak := by simp [ctxFF1Context]
    txt_min := rfl
    txt_max := by simp [ctxFF1Context]
    txt_bounds := hb }

/-- A context that `CTX.FF31` stores is legal (10_state.md R22). -/
theorem ctxFF31Context_legal {p : Params} {l : Latches} (hp : 7 ≤ p.tCap) (hl : LatchesSized p l)
    (h : ctxFF31Error p l = none) : ContextLegal p (ctxFF31Context p l) := by
  obtain ⟨hk, hr, hb, ht⟩ := ctxFF31Error_eq_none.mp h
  have hk32 : l.keylen.toNat ≤ 32 := by unfold keySizeLegal at hk; omega
  exact {
    alg := by simp [ctxFF31Context]
    klen := hk
    key := by simp only [ctxFF31Context, revb_length]; exact keyOperand_length hl hk32
    radix := hr
    dtwk := by simp only [ctxFF31Context, slice_length, hl.twk, ht, Config.ff31TweakBytes]; omega
    dtwk_fits := hp
    twk_bounds := .inl (Nat.le_refl _)
    dtwk_low := Nat.le_refl _
    dtwk_high := fun _ => Nat.le_refl _
    twk_words := by simp [ctxFF31Context, Config.ff31TweakBytes]
    ff31_tweak := fun _ => ⟨rfl, rfl⟩
    txt_min := rfl
    txt_max := by simp [ctxFF31Context]
    txt_bounds := hb }

theorem commitContext_eq (c : Context) (m : Move) :
    commitContext c m = ⟨completeOk ((m.state.withCtx c).withAespKey (some c.key)), m.txns ++ [.keyLoad c.key]⟩ := rfl

end Sys2Proof.Machine
end

