-- ==== Sys2Proof/Laws/Codec.lean ====
section
/-! SUPPORT. The numeral codec: what a digit is, `decode` and `encode` are inverse, the integer logarithms. -/

namespace Sys2Proof.Machine

/-! ### Digits -/

theorem charOf_toNat {dv : Nat} (h : dv < 36) : (charOf dv).toNat = if dv ≤ 9 then 0x30 + dv else 0x61 + (dv - 10) := by
  unfold charOf
  split <;> simp only [BitVec.toNat_ofNat] <;> omega

/-- Reading back the character of a digit value (R101, R104). -/
theorem digitValue_charOf {dv : Nat} (h : dv < 36) : digitValue (charOf dv) = some dv := by
  unfold digitValue
  rw [charOf_toNat h]
  by_cases h9 : dv ≤ 9
  · rw [if_pos h9, if_pos (by omega)]
    congr 1; omega
  · rw [if_neg h9, if_neg (by omega), if_pos (by omega)]
    congr 1; omega

theorem digit_eq_some {ch : Byte} {radix d : Nat} : digit ch radix = some d ↔ digitValue ch = some d ∧ d < radix := by
  unfold digit
  cases h : digitValue ch with
  | none => simp
  | some dv =>
    simp only [Option.some.injEq]
    split
    · constructor
      · intro h'; simp at h'; omega
      · intro h'; simp; exact h'.1
    · constructor
      · intro h'; simp at h'
      · intro h'; omega

theorem digit_charOf {dv radix : Nat} (h : dv < radix) (hr : radix ≤ 36) : digit (charOf dv) radix = some dv :=
  digit_eq_some.mpr ⟨digitValue_charOf (by omega), h⟩

theorem digitValue_lt {ch : Byte} {d : Nat} (h : digitValue ch = some d) : d < 36 := by
  unfold digitValue at h
  split at h
  · simp at h; omega
  · split at h
    · simp at h; omega
    · split at h
      · simp at h; omega
      · simp at h

/-- The character of a character's digit value is its lower-case form (R106). -/
theorem charOf_of_digitValue {ch : Byte} {d : Nat} (h : digitValue ch = some d) : charOf d = lowerChar ch := by
  have hlt := ch.isLt
  apply BitVec.eq_of_toNat_eq
  rw [charOf_toNat (digitValue_lt h)]
  unfold digitValue at h
  unfold lowerChar
  by_cases h0 : 0x30 ≤ ch.toNat ∧ ch.toNat ≤ 0x39
  · rw [if_pos h0, Option.some.injEq] at h
    rw [if_pos (by omega : d ≤ 9), if_neg (by omega)]; omega
  · rw [if_neg h0] at h
    by_cases h1 : 0x61 ≤ ch.toNat ∧ ch.toNat ≤ 0x7A
    · rw [if_pos h1, Option.some.injEq] at h
      rw [if_neg (by omega : ¬d ≤ 9), if_neg (by omega)]; omega
    · rw [if_neg h1] at h
      by_cases h2 : 0x41 ≤ ch.toNat ∧ ch.toNat ≤ 0x5A
      · rw [if_pos h2, Option.some.injEq] at h
        rw [if_neg (by omega : ¬d ≤ 9), if_pos h2, BitVec.toNat_add]
        have : (0x20 : Byte).toNat = 32 := rfl
        omega
      · rw [if_neg h2] at h; simp at h

/-! ### decode -/

theorem accumulate_append (radix acc : Nat) (s t : Bytes) :
    accumulate radix acc (s ++ t) = (accumulate radix acc s).bind fun a => accumulate radix a t := by
  induction s generalizing acc with
  | nil => rfl
  | cons c s ih =>
    simp only [List.cons_append, accumulate]
    cases digit c radix with
    | none => rfl
    | some d => exact ih _

theorem accumulate_singleton (radix acc : Nat) (c : Byte) :
    accumulate radix acc [c] = (digit c radix).map (acc * radix + ·) := by
  simp only [accumulate]
  cases digit c radix <;> rfl

/-- The accumulation answers exactly on strings of digits. -/
theorem accumulate_isSome (radix acc : Nat) (s : Bytes) :
    (accumulate radix acc s).isSome = s.all fun ch => (digit ch radix).isSome := by
  induction s generalizing acc with
  | nil => rfl
  | cons c s ih =>
    simp only [accumulate, List.all_cons]
    cases digit c radix with
    | none => rfl
    | some d => simp [ih]

theorem accumulate_lt {radix acc v : Nat} {s : Bytes} (h : accumulate radix acc s = some v) :
    v < (acc + 1) * radix ^ s.length := by
  induction s generalizing acc with
  | nil => simp [accumulate] at h; simp [h]
  | cons c s ih =>
    simp only [accumulate] at h
    cases hd : digit c radix with
    | none => simp [hd] at h
    | some d =>
      rw [hd] at h
      have hlt := (digit_eq_some.mp hd).2
      calc v < (acc * radix + d + 1) * radix ^ s.length := ih h
        _ ≤ ((acc + 1) * radix) * radix ^ s.length := Nat.mul_le_mul_right _ (by rw [Nat.add_mul]; omega)
        _ = (acc + 1) * radix ^ (c :: s).length := by rw [List.length_cons, pow_succ']; ring

theorem decodeNumeral_of_ne_nil {s : Bytes} (h : s ≠ []) (radix : Nat) : decodeNumeral s radix = accumulate radix 0 s
    := by
  cases s with
  | nil => exact absurd rfl h
  | cons c s => rfl

/-- A decoded string of length L is a number below `radix^L` (R102). -/
theorem decodeNumeral_lt {s : Bytes} {radix v : Nat} (h : decodeNumeral s radix = some v) : v < radix ^ s.length := by
  cases s with
  | nil => simp [decodeNumeral] at h
  | cons c s => simpa using accumulate_lt (acc := 0) h

/-! ### encode -/

@[simp] theorem render_length (value radix width : Nat) : (render value radix width).length = width := by simp [render]

theorem render_succ (value radix width : Nat) :
    render value radix (width + 1) = render (value / radix) radix width ++ [charOf (value % radix)] := by
  simp only [render, List.range_succ, List.map_append, List.map_cons, List.map_nil, Nat.add_sub_cancel, Nat.sub_self,
    pow_zero, Nat.div_one]
  congr 1
  refine List.map_congr_left fun k hk => ?_
  have hk' : k < width := by simpa using hk
  congr 2
  rw [Nat.div_div_eq_div_mul, ← pow_succ']
  congr 2
  omega

theorem accumulate_render {radix : Nat} (hr : 0 < radix) (hr' : radix ≤ 36) (value width : Nat) :
    accumulate radix 0 (render value radix width) = some (value % radix ^ width) := by
  induction width generalizing value with
  | zero => simp [render, accumulate, Nat.mod_one]
  | succ w ih =>
    rw [render_succ, accumulate_append, ih, Option.bind_some, accumulate_singleton,
      digit_charOf (Nat.mod_lt _ hr) hr', Option.map_some]
    congr 1
    rw [pow_succ', Nat.mod_mul]
    ring

/-- Every rendered character is a digit of the radix (R167). -/
theorem render_digits {radix : Nat} (hr : 0 < radix) (hr' : radix ≤ 36) (value width : Nat) :
    ((render value radix width).all fun ch => (digit ch radix).isSome) = true := by
  rw [← accumulate_isSome radix 0, accumulate_render hr hr']
  rfl

/-- `decode(encode(value))` is the value, for a value that fits (R106). -/
theorem decodeNumeral_render {radix value width : Nat} (hr : 0 < radix) (hr' : radix ≤ 36) (hw : width ≠ 0)
    (h : value < radix ^ width) : decodeNumeral (render value radix width) radix = some value := by
  rw [decodeNumeral_of_ne_nil (by rw [ne_eq, ← List.length_eq_zero_iff, render_length]; exact hw),
    accumulate_render hr hr', Nat.mod_eq_of_lt h]

theorem render_accumulate {radix v : Nat} {s : Bytes} (h : accumulate radix 0 s = some v) :
    render v radix s.length = lower s := by
  induction s using List.reverseRecOn generalizing v with
  | nil => simp [render, lower]
  | append_singleton s c ih =>
    rw [accumulate_append] at h
    cases hs : accumulate radix 0 s with
    | none => simp [hs] at h
    | some a =>
      rw [hs, Option.bind_some, accumulate_singleton] at h
      cases hd : digit c radix with
      | none => simp [hd] at h
      | some d =>
        rw [hd, Option.map_some, Option.some.injEq] at h
        obtain ⟨hdv, hlt⟩ := digit_eq_some.mp hd
        rw [List.length_append, List.length_singleton, render_succ, ← h]
        have h1 : (a * radix + d) / radix = a := by
          rw [Nat.add_comm, Nat.add_mul_div_right _ _ (by omega), Nat.div_eq_of_lt hlt, Nat.zero_add]
        have h2 : (a * radix + d) % radix = d := by
          rw [Nat.add_comm, Nat.add_mul_mod_self_right, Nat.mod_eq_of_lt hlt]
        rw [h1, h2, ih hs, charOf_of_digitValue hdv]
        simp [lower]

theorem encodeNumeral_of_lt {value radix width : Nat} (hw : width ≠ 0) (h : value < radix ^ width) :
    encodeNumeral value radix width = some (render value radix width) := by
  unfold encodeNumeral; rw [if_neg (by omega)]

theorem encodeNumeral_eq_none {value radix width : Nat} :
    encodeNumeral value radix width = none ↔ width = 0 ∨ radix ^ width ≤ value := by
  unfold encodeNumeral; split <;> simp_all

/-! ### The integer logarithms -/

/-- `bitlen` is the least k with `x < 2^k` (00_scope.md R10). -/
theorem bitlen_le_iff (x k : Nat) : bitlen x ≤ k ↔ x < 2 ^ k := by
  unfold bitlen
  split
  · subst x; simp
  · rename_i h
    rw [Nat.succ_le_iff, Nat.log2_lt h]

/-- `clog2pow(radix, v)` is the least k with `radix^v <= 2^k` (R112). -/
theorem clog2pow_le_iff {radix : Nat} (h : 0 < radix) (v k : Nat) : clog2pow radix v ≤ k ↔ radix ^ v ≤ 2 ^ k := by
  unfold clog2pow
  rw [bitlen_le_iff]
  have h1 : 0 < radix ^ v := Nat.pow_pos h
  omega

end Sys2Proof.Machine
end

