-- ==== Sys2Proof/Laws/Rounds.lean ====
section
/-! SUPPORT. What the rounds of the two engines share: strings of digits, the width and the residue of a round, the split
and the join. -/

namespace Sys2Proof.Machine

/-! ### Strings of digits -/

theorem allDigits_iff (radix : Nat) (x : Bytes) : allDigits radix x = true ↔ ∃ v, accumulate radix 0 x = some v := by
  unfold allDigits
  rw [← accumulate_isSome radix 0, Option.isSome_iff_exists]

theorem allDigits_append (radix : Nat) (x y : Bytes) : allDigits radix (x ++ y) =
    (allDigits radix x && allDigits radix y) := by
  simp [allDigits]

theorem allDigits_take {radix : Nat} {x : Bytes} (h : allDigits radix x = true) (k : Nat) :
    allDigits radix (x.take k) = true := by
  rw [← List.take_append_drop k x, allDigits_append, Bool.and_eq_true] at h
  exact h.1

theorem allDigits_drop {radix : Nat} {x : Bytes} (h : allDigits radix x = true) (k : Nat) :
    allDigits radix (x.drop k) = true := by
  rw [← List.take_append_drop k x, allDigits_append, Bool.and_eq_true] at h
  exact h.2

theorem allDigits_slice {radix : Nat} {x : Bytes} (h : allDigits radix x = true) (a b : Nat) :
    allDigits radix (slice x a b) = true := allDigits_drop (allDigits_take h b) a

theorem allDigits_revs {radix : Nat} {x : Bytes} (h : allDigits radix x = true) : allDigits radix (revs x) = true := by
  unfold allDigits revs at *
  rw [List.all_reverse]; exact h

theorem allDigits_render {radix : Nat} (hr : 2 ≤ radix) (hr' : radix ≤ 36) (value width : Nat) :
    allDigits radix (render value radix width) = true := render_digits (by omega) hr' value width

/-- A non-empty string of digits has a numeral value (R103). -/
theorem decodeNumeral_digits {radix : Nat} {x : Bytes} (h0 : x.length ≠ 0) (h : allDigits radix x = true) :
    decodeNumeral x radix = some (numRadix radix x) := by
  have hne : x ≠ [] := by intro hx; simp [hx] at h0
  obtain ⟨v, hv⟩ := (allDigits_iff radix x).mp h
  unfold numRadix
  rw [decodeNumeral_of_ne_nil hne, hv]
  rfl

theorem numRadix_lt {radix : Nat} {x : Bytes} (h0 : x.length ≠ 0) (h : allDigits radix x = true) :
    numRadix radix x < radix ^ x.length := decodeNumeral_lt (decodeNumeral_digits h0 h)

theorem numRadix_render {radix value width : Nat} (hr : 2 ≤ radix) (hr' : radix ≤ 36) (hw : width ≠ 0)
    (h : value < radix ^ width) : numRadix radix (render value radix width) = value := by
  unfold numRadix; rw [decodeNumeral_render (by omega) hr' hw h]; rfl

theorem render_numRadix {radix : Nat} {x : Bytes} (h0 : x.length ≠ 0) (h : allDigits radix x = true) :
    render (numRadix radix x) radix x.length = lower x := by
  have hne : x ≠ [] := by intro hx; simp [hx] at h0
  have hd := decodeNumeral_digits h0 h
  rw [decodeNumeral_of_ne_nil hne] at hd
  exact render_accumulate hd

@[simp] theorem lower_length (x : Bytes) : (lower x).length = x.length := by simp [lower]

theorem lower_append (x y : Bytes) : lower (x ++ y) = lower x ++ lower y := by simp [lower]

theorem lower_revs (x : Bytes) : lower (revs x) = revs (lower x) := by simp [lower, revs]

/-! ### A round -/

theorem combine_lt (d : Direction) (a y : Nat) {k : Nat} (hk : 0 < k) : combine d a y k < k := by
  cases d with
  | encrypt => exact Nat.mod_lt _ hk
  | decrypt =>
    have h1 : (0 : Int) ≤ ((a : Int) - (y : Int)) % (k : Int) := Int.emod_nonneg _ (by omega)
    have h2 : ((a : Int) - (y : Int)) % (k : Int) < k := Int.emod_lt_of_pos _ (by omega)
    simp only [combine]
    omega

/-- Subtracting undoes adding (R161). -/
theorem combine_decrypt_encrypt {a k : Nat} (y : Nat) (h : a < k) : combine .decrypt
    (combine .encrypt a y k) y k = a := by
  simp only [combine]
  have : (((((a + y) % k : Nat) : Int)) - (y : Int)) % (k : Int) = (a : Int) := by
    push_cast
    rw [Int.emod_sub_emod, add_sub_cancel_right]
    exact Int.emod_eq_of_lt (by omega) (by omega)
  rw [this]; simp

/-- Adding undoes subtracting (R161). -/
theorem combine_encrypt_decrypt {a k : Nat} (y : Nat) (h : a < k) : combine .encrypt
    (combine .decrypt a y k) y k = a := by
  simp only [combine]
  have h1 : (0 : Int) ≤ ((a : Int) - (y : Int)) % (k : Int) := Int.emod_nonneg _ (by omega)
  have h2 : ((((((a : Int) - (y : Int)) % (k : Int)).toNat + y) % k : Nat) : Int) = (a : Int) := by
    push_cast
    rw [Int.toNat_of_nonneg h1, Int.emod_add_emod, sub_add_cancel]
    exact Int.emod_eq_of_lt (by omega) (by omega)
  exact_mod_cast h2

theorem roundWidth_even {r : Nat} (h : r % 2 = 0) (u v : Nat) : roundWidth r u v = u := by
  unfold roundWidth; rw [if_pos h]

theorem roundWidth_odd {r : Nat} (h : r % 2 = 1) (u v : Nat) : roundWidth r u v = v := by
  unfold roundWidth; rw [if_neg (by omega)]

theorem roundWidth_succ (r u v : Nat) : roundWidth (r + 1) u v = if r % 2 = 0 then v else u := by
  unfold roundWidth
  split <;> split <;> first | rfl | omega

theorem roundWidth_add_two (r u v : Nat) : roundWidth (r + 2) u v = roundWidth r u v := by
  unfold roundWidth
  have : (r + 2) % 2 = r % 2 := by omega
  rw [this]

theorem roundWidth_le (r : Nat) {u v k : Nat} (hu : u ≤ k) (hv : v ≤ k) : roundWidth r u v ≤ k := by
  unfold roundWidth; split <;> assumption

theorem roundWidth_ne_zero (r : Nat) {u v : Nat} (hu : u ≠ 0) (hv : v ≠ 0) : roundWidth r u v ≠ 0 := by
  unfold roundWidth; split <;> assumption

/-- The width of a round is a parity of the round index, so the next loop step has the other width (R178, R155). -/
theorem roundWidth_next {rounds rnd : Nat} (d : Direction) (u v : Nat) (h : rnd + 1 < rounds) :
    roundWidth (roundIndex rounds d (rnd + 1)) u v = roundWidth (roundIndex rounds d rnd + 1) u v := by
  cases d with
  | encrypt => rfl
  | decrypt =>
    simp only [roundIndex]
    have : rounds - 1 - rnd + 1 = rounds - 1 - (rnd + 1) + 2 := by omega
    rw [this, roundWidth_add_two]

/-! ### Split and join -/

theorem splitHalves_digits {radix : Nat} {x : Bytes} (h : allDigits radix x = true) (d : Direction) (cut n : Nat) :
    allDigits radix (splitHalves d x cut n).1 = true ∧ allDigits radix (splitHalves d x cut n).2 = true := by
  cases d <;> exact ⟨allDigits_slice h _ _, allDigits_slice h _ _⟩

theorem splitHalves_encrypt_length {x : Bytes} {cut n : Nat} (hc : cut ≤ n) (hn : n ≤ x.length) :
    (splitHalves .encrypt x cut n).1.length = cut ∧ (splitHalves .encrypt x cut n).2.length = n - cut := by
  constructor <;> simp only [splitHalves, slice_length] <;> omega

theorem splitHalves_decrypt_length {x : Bytes} {cut n : Nat} (hc : cut ≤ n) (hn : n ≤ x.length) :
    (splitHalves .decrypt x cut n).1.length = n - cut ∧ (splitHalves .decrypt x cut n).2.length = cut := by
  constructor <;> simp only [splitHalves, slice_length] <;> omega

/-- The string X is all that a split reads. -/
theorem splitHalves_take (d : Direction) (x : Bytes) {cut n : Nat} (hc : cut ≤ n) :
    splitHalves d (x.take n) cut n = splitHalves d x cut n := by
  have h1 : slice (x.take n) 0 cut = slice x 0 cut := by
    unfold slice; rw [List.take_take]; congr 2; omega
  have h2 : slice (x.take n) cut n = slice x cut n := by
    unfold slice; rw [List.take_take, Nat.min_self]
  cases d <;> simp only [splitHalves, h1, h2]

theorem joinHalves_length (d : Direction) (a b : Bytes) : (joinHalves d a b).length = a.length + b.length := by
  cases d <;> simp [joinHalves]; omega

theorem joinHalves_digits {radix : Nat} {a b : Bytes} (d : Direction) (ha : allDigits radix a = true)
    (hb : allDigits radix b = true) : allDigits radix (joinHalves d a b) = true := by
  cases d <;> simp [joinHalves, allDigits_append, ha, hb]

end Sys2Proof.Machine
end

