-- ==== Sys2Proof/Laws/Cipher.lean ====
section
/-! SUPPORT. The front end of a cipher command: what its checks answer, and what they establish. -/

namespace Sys2Proof.Machine

/-! ### The words of the commands -/

theorem wordDirection_encode (i : Instr) : isCipher i = true → wordDirection (encode i) = cipherDirection i := by
  cases i <;> decide

theorem fieldTwo_encode (i : Instr) : isCipher i = true → (fieldTwo (encode i) = 1 ↔ cipherOverride i = true) := by
  cases i <;> decide

/-! ### The checks (R145 to R149) -/

theorem textLengthError_eq_none {c : Context} {n : Nat} :
    textLengthError c n = none ↔ c.txtMin ≤ n ∧ n ≤ c.txtMax := by
  unfold textLengthError
  split
  · simp only [reduceCtorEq, false_iff]; omega
  · simp only [true_iff]; omega

theorem tweakLengthError_eq_none {p : Params} {c : Context} {tl : Nat} :
    tweakLengthError p c tl = none ↔ tl ≤ p.tCap ∧ c.twkMin ≤ tl ∧ (c.twkMax ≠ 0 → tl ≤ c.twkMax) := by
  unfold tweakLengthError
  split
  · simp only [reduceCtorEq, false_iff]; omega
  · split
    · simp only [reduceCtorEq, false_iff]; omega
    · split
      · simp only [reduceCtorEq, false_iff]; omega
      · simp only [true_iff]; omega

theorem numeralError_eq_none {c : Context} {x : Bytes} : numeralError c x = none ↔ allDigits c.radix x = true := by
  unfold numeralError
  split <;> simp_all

theorem textLengthError_cases {c : Context} {n : Nat} {e : ErrorName} (h : textLengthError c n = some e) :
    e = .invalidTextLength ∧ ¬(c.txtMin ≤ n ∧ n ≤ c.txtMax) := by
  unfold textLengthError at h
  split at h
  · simp only [Option.some.injEq] at h; exact ⟨h.symm, by omega⟩
  · simp at h

theorem tweakLengthError_cases {p : Params} {c : Context} {tl : Nat} {e : ErrorName}
    (h : tweakLengthError p c tl = some e) :
    e = .invalidTweakLength ∧ ¬(tl ≤ p.tCap ∧ c.twkMin ≤ tl ∧ (c.twkMax ≠ 0 → tl ≤ c.twkMax)) := by
  unfold tweakLengthError at h
  split at h
  · simp only [Option.some.injEq] at h; exact ⟨h.symm, by omega⟩
  · split at h
    · simp only [Option.some.injEq] at h; exact ⟨h.symm, by omega⟩
    · split at h
      · simp only [Option.some.injEq] at h; exact ⟨h.symm, by omega⟩
      · simp at h

theorem numeralError_cases {c : Context} {x : Bytes} {e : ErrorName} (h : numeralError c x = some e) :
    e = .invalidNumeral ∧ allDigits c.radix x = false := by
  unfold numeralError at h
  split at h
  · simp at h
  · simp only [Option.some.injEq] at h; exact ⟨h.symm, by simp_all⟩

/-- What the checks answer, first failure first (R145, R202). -/
theorem operandError_cases (p : Params) (s : State) :
    (textLengthError s.ctx s.work.n = some .invalidTextLength ∧ operandError p s = some .invalidTextLength) ∨
    (textLengthError s.ctx s.work.n = none ∧ tweakLengthError p s.ctx s.work.tl = some .invalidTweakLength ∧
      operandError p s = some .invalidTweakLength) ∨
    (textLengthError s.ctx s.work.n = none ∧ tweakLengthError p s.ctx s.work.tl = none ∧
      allDigits s.ctx.radix (slice s.lat.txt 0 s.work.n) = false ∧ operandError p s = some .invalidNumeral) ∨
    (textLengthError s.ctx s.work.n = none ∧ tweakLengthError p s.ctx s.work.tl = none ∧
      allDigits s.ctx.radix (slice s.lat.txt 0 s.work.n) = true ∧ operandError p s = none) := by
  unfold operandError
  cases h1 : textLengthError s.ctx s.work.n with
  | some e => exact .inl ⟨by rw [(textLengthError_cases h1).1], by rw [(textLengthError_cases h1).1]⟩
  | none =>
    simp only
    cases h2 : tweakLengthError p s.ctx s.work.tl with
    | some e => exact .inr (.inl ⟨trivial, by rw [(tweakLengthError_cases h2).1],
        by rw [(tweakLengthError_cases h2).1]⟩)
    | none =>
      simp only
      cases h3 : numeralError s.ctx (slice s.lat.txt 0 s.work.n) with
      | some e =>
        exact .inr (.inr (.inl ⟨trivial, trivial, (numeralError_cases h3).2, by rw [(numeralError_cases h3).1]⟩))
      | none => exact .inr (.inr (.inr ⟨trivial, trivial, numeralError_eq_none.mp h3, rfl⟩))

theorem operandError_recoverable {p : Params} {s : State} {e : ErrorName} (h : operandError p s = some e) :
    errorIsFatal e = false := by
  rcases operandError_cases p s with h' | h' | h' | h'
  · rw [h'.2] at h; cases h; rfl
  · rw [h'.2.2] at h; cases h; rfl
  · rw [h'.2.2.2] at h; cases h; rfl
  · rw [h'.2.2.2] at h; cases h

@[simp] theorem takeOperands_ctx (s : State) : (takeOperands s).ctx = s.ctx := rfl
@[simp] theorem takeOperands_lat (s : State) : (takeOperands s).lat = s.lat := rfl
@[simp] theorem takeOperands_reg (s : State) : (takeOperands s).reg = s.reg := rfl
@[simp] theorem takeOperands_buf (s : State) : (takeOperands s).buf = s.buf := rfl
@[simp] theorem takeOperands_chain (s : State) : (takeOperands s).chain = s.chain := rfl
@[simp] theorem takeOperands_rnd (s : State) : (takeOperands s).rnd = s.rnd := rfl
@[simp] theorem takeOperands_aespKey (s : State) : (takeOperands s).aespKey = s.aespKey := rfl
@[simp] theorem takeOperands_pending (s : State) : (takeOperands s).pending = s.pending := rfl
@[simp] theorem takeOperands_n (s : State) : (takeOperands s).work.n = s.lat.txtlen.toNat := rfl
@[simp] theorem takeOperands_tl (s : State) : (takeOperands s).work.tl = effectiveTweakLength s.lat s.ctx := rfl
@[simp] theorem takeOperands_t (s : State) : (takeOperands s).work.t = effectiveTweak s.lat s.ctx := rfl
@[simp] theorem takeOperands_dir (s : State) : (takeOperands s).work.dir = wordDirection s.lat.cmd := rfl

/-- All that phase CHECK of a cipher command can do (R145): end with a recoverable error, or go to SETUP with its
operands taken. -/
theorem cipherFrontEnd_cases (p : Params) (s : State) :
    (s.ctx.valid = false ∧ cipherFrontEnd p s = raiseError .noContext s) ∨
    (s.ctx.valid = true ∧ ∃ e, operandError p (takeOperands s) = some e ∧
      cipherFrontEnd p s = raiseError e (takeOperands s)) ∨
    (s.ctx.valid = true ∧ operandError p (takeOperands s) = none ∧
      cipherFrontEnd p s = (takeOperands s).withPhase .setup) := by
  unfold cipherFrontEnd
  by_cases hv : s.ctx.valid = false
  · exact .inl ⟨hv, by rw [if_pos hv]⟩
  · have hv' : s.ctx.valid = true := by simpa using hv
    rw [if_neg hv]
    cases h : operandError p (takeOperands s) with
    | some e => exact .inr (.inl ⟨hv', e, rfl, rfl⟩)
    | none => exact .inr (.inr ⟨hv', rfl, rfl⟩)

/-- What passing the checks establishes (R145 to R149). -/
theorem operandsChecked_of_front_end {p : Params} {s : State} (hl : LatchesSized p s.lat) (hc : ContextLegal p s.ctx)
    (hv : s.ctx.valid = true) (hi : ∃ i, decode s.lat.cmd = .ok i ∧ isCipher i = true)
    (h : operandError p (takeOperands s) = none) : OperandsChecked p ((takeOperands s).withPhase .setup) := by
  rcases operandError_cases p (takeOperands s) with h' | h' | h' | ⟨h1, h2, h3, -⟩
  · rw [h'.2] at h; cases h
  · rw [h'.2.2] at h; cases h
  · rw [h'.2.2.2] at h; cases h
  obtain ⟨t1, t2, t3⟩ := tweakLengthError_eq_none.mp h2
  exact {
    latched := hl
    valid := hv
    cipher := hi
    dir := rfl
    n := rfl
    n_bounds := textLengthError_eq_none.mp h1
    t := by
      simp only [State.withPhase_work, takeOperands_t, takeOperands_tl, effectiveTweak, effectiveTweakLength]
      simp only [takeOperands_tl, effectiveTweakLength] at t1
      split
      · rename_i h
        rw [if_pos h] at t1
        rw [hl.twk]; omega
      · exact hc.dtwk
    t_fits := t1
    t_low := t2
    t_high := t3
    digits := h3 }

/-- The digits of X, as the host sees them. -/
theorem numeralsLegal_iff {s : State} : numeralsLegal s ↔ allDigits s.ctx.radix (textInput s) = true := by
  unfold numeralsLegal allDigits
  rw [List.all_eq_true]
  simp only [Option.isSome_iff_exists]

end Sys2Proof.Machine
end

