-- ==== Sys2Proof/Laws/Keyed.lean ====
section
/-! SUPPORT. The keyed block function: `prf` and `ciph` in closed form, with the transactions they make. -/

namespace Sys2Proof.Machine

@[simp] theorem aesResponse_length (p : Params) (key : Option Bytes) (x : Bytes) :
    (aesResponse p key x).length = 16 := by
  simp [aesResponse]

theorem macChain_length (p : Params) (key : Option Bytes) (y : Bytes) (xs : List Bytes) (h : y.length = 16) :
    (macChain p key y xs).length = 16 := by
  induction xs generalizing y with
  | nil => exact h
  | cons x xs ih => exact ih _ (aesResponse_length ..)

@[simp] theorem prfValue_length (p : Params) (key : Option Bytes) (x : Bytes) : (prfValue p key x).length = 16 :=
  macChain_length p key _ _ (zeroBytes_length _)

@[simp] theorem macTxns_length (p : Params) (key : Option Bytes) (y : Bytes) (xs : List Bytes) :
    (macTxns p key y xs).length = xs.length := by
  induction xs generalizing y with
  | nil => rfl
  | cons x xs ih => simp [macTxns, ih]

/-- `prf` over X makes one transaction per block (R131). -/
@[simp] theorem prfTxns_length (p : Params) (key : Option Bytes) (x : Bytes) :
    (prfTxns p key x).length = x.length / 16 := by simp [prfTxns]

/-- The chain over the blocks, in closed form (R131). -/
theorem chainBlocks_eq (p : Params) (xs : List Bytes) (m : Move) :
    chainBlocks p xs m =
      ⟨m.state.withChain (macChain p m.state.aespKey m.state.chain xs),
        m.txns ++ macTxns p m.state.aespKey m.state.chain xs⟩ := by
  induction xs generalizing m with
  | nil => simp [chainBlocks, macChain, macTxns]
  | cons x xs ih => simp [chainBlocks, ih, chainBlock, macChain, macTxns]

/-- A `prf` whose input has a legal length (R131): its value, its transactions, and `CHAIN` zero again (R136). -/
theorem prf_legal (p : Params) {x : Bytes} (h0 : x.length ≠ 0) (h : x.length % 16 = 0) (m : Move) :
    prf p x m =
      .ok (prfValue p m.state.aespKey x)
        ⟨m.state.withChain (zeroBytes 16), m.txns ++ prfTxns p m.state.aespKey x⟩ := by
  unfold prf
  rw [if_neg (by simp [Config.blockBytes]; exact ⟨by simpa using h0, by omega⟩)]
  simp [prfBody, chainBlocks_eq, clearChain, Move.update, prfValue, prfTxns]

/-- A `prf` whose input has an illegal length raises before any transaction (R137). -/
theorem prf_illegal (p : Params) {x : Bytes} (h : x.length = 0 ∨ x.length % 16 ≠ 0) (m : Move) :
    prf p x m = .raised .invalidBlockLength m := by
  unfold prf; rw [if_pos h]

theorem prfValue_block (p : Params) (key : Option Bytes) {x : Bytes} (h : x.length = 16) :
    prfValue p key x = ciphValue p key x := by
  have hx : x.take 16 = x := List.take_of_length_le (by omega)
  have hz : xorBytes (zeroBytes 16) x 16 = x := by simpa [h] using xorBytes_zero_left x
  simp [prfValue, h, blocksOf, macChain, ciphValue, hx, hz]

theorem prfTxns_block (p : Params) (key : Option Bytes) {x : Bytes} (h : x.length = 16) :
    prfTxns p key x = [ciphTxn p key x] := by
  have hx : x.take 16 = x := List.take_of_length_le (by omega)
  have hz : xorBytes (zeroBytes 16) x 16 = x := by simpa [h] using xorBytes_zero_left x
  simp [prfTxns, h, blocksOf, macTxns, ciphTxn, ciphValue, hx, hz]

/-- `ciph` of one block: one transaction whose input is the block itself (R132). -/
theorem ciph_block (p : Params) {x : Bytes} (h : x.length = 16) (m : Move) :
    ciph p x m =
      .ok (ciphValue p m.state.aespKey x)
        ⟨m.state.withChain (zeroBytes 16), m.txns ++ [ciphTxn p m.state.aespKey x]⟩ := by
  unfold ciph
  rw [prf_legal p (by omega) (by omega), prfValue_block p _ h, prfTxns_block p _ h]

end Sys2Proof.Machine
end

