-- ==== Sys2Proof/Laws/FF1.lean ====
section
/-! SUPPORT. The FF1 engine: the block layouts, and one lemma that says all that a round does. -/

namespace Sys2Proof.Machine

/-! ### Block layouts -/

/-- `BB` bytes hold every number below `radix^V` (R151). -/
theorem ff1ByteWidth_le_iff {radix : Nat} (h : 0 < radix) (v k : Nat) : ff1ByteWidth radix v ≤ k ↔ radix ^ v ≤ 256 ^ k
    := by
  have h256 : (256 : Nat) ^ k = 2 ^ (8 * k) := by rw [pow_mul]; norm_num
  rw [h256, ← clog2pow_le_iff h]
  unfold ff1ByteWidth
  omega

theorem pow_le_ff1ByteWidth {radix : Nat} (h : 0 < radix) (v : Nat) : radix ^ v ≤ 256 ^ ff1ByteWidth radix v :=
  (ff1ByteWidth_le_iff h v _).mp (Nat.le_refl _)

theorem ff1Pad_lt (t b : Nat) : ff1Pad t b < 16 := by unfold ff1Pad; omega

theorem ff1Pad_multiple (t b : Nat) : (t + ff1Pad t b + 1 + b) % 16 = 0 := by unfold ff1Pad; omega

@[simp] theorem ff1P_length (radix n t : Nat) : (ff1P radix n t).length = 16 := by
  simp [ff1P, ff1HeaderBlock, ff1Markers]

theorem ff1Q_length (radix : Nat) (t : Bytes) (b r : Nat) (half : Bytes) :
    (ff1Q radix t b r half).length = t.length + ff1Pad t.length b + 1 + b := by
  simp [ff1Q]; omega

theorem ff1Input_length (radix n : Nat) (t : Bytes) (r : Nat) (half : Bytes) :
    (ff1Input radix n t r half).length =
      16 + (t.length + ff1Pad t.length (ff1ByteWidth radix (n - n / 2)) + 1 + ff1ByteWidth radix (n - n / 2)) := by
  simp [ff1Input, ff1Q_length]

theorem ff1Input_multiple (radix n : Nat) (t : Bytes) (r : Nat) (half : Bytes) :
    (ff1Input radix n t r half).length ≠ 0 ∧ (ff1Input radix n t r half).length % 16 = 0 := by
  rw [ff1Input_length]
  have := ff1Pad_multiple t.length (ff1ByteWidth radix (n - n / 2))
  omega

theorem ff1Counter_length {r : Bytes} (h : r.length = 16) (j : Nat) : (ff1Counter r j).length = 16 := by
  simp [ff1Counter, xorBytes_length, h]

/-! ### The extension blocks -/

/-- The extension steps append one `ciph` per number of the list (R158). -/
theorem ff1ExtensionBlocks_eq (p : Params) (js : List Nat) (m : Move) (hr : m.state.work.r.length = 16)
    (hj : ∀ j ∈ js, j < 256 ^ 4) (hc : m.state.chain = zeroBytes 16) :
    ff1ExtensionBlocks p js m =
      .ok () ⟨m.state.withWork { m.state.work with
            s := m.state.work.s ++ (js.map fun j => ciphValue p m.state.aespKey
                (ff1Counter m.state.work.r j)).flatten },
        m.txns ++ js.map fun j => ciphTxn p m.state.aespKey (ff1Counter m.state.work.r j)⟩ := by
  induction js generalizing m with
  | nil => simp [ff1ExtensionBlocks]; rfl
  | cons j js ih =>
    have hblk : (xorBytes m.state.work.r (zeroBytes 12 ++ beBytes j 4) Config.blockBytes).length = 16 := by
      simp [xorBytes_length, hr]
    have hone : ff1ExtensionBlock p j m =
        .ok () ⟨m.state.withWork { m.state.work with
              s := m.state.work.s ++ ciphValue p m.state.aespKey (ff1Counter m.state.work.r j) },
          m.txns ++ [ciphTxn p m.state.aespKey (ff1Counter m.state.work.r j)]⟩ := by
      unfold ff1ExtensionBlock
      rw [be_of_lt (hj j (by simp))]
      simp only [Flow.need_some, Flow.andThen_ok]
      rw [ciph_block p hblk]
      simp only [Flow.andThen_ok, Flow.set_eq, Move.updateWork, Move.update, ← hc, State.withChain_self]
      rfl
    unfold ff1ExtensionBlocks
    rw [hone, Flow.andThen_ok, ih _ (by simpa using hr) (fun k hk => hj k (by simp [hk])) (by simpa using hc)]
    simp

/-! ### One round -/

/-- `Q` of the present round. -/
def ff1NextQ (s : State) : Bytes := ff1Q s.ctx.radix s.work.t s.work.bb (ff1RoundIndex s) s.work.b

/-- `R` of the present round. -/
def ff1NextR (p : Params) (s : State) : Bytes := prfValue p s.aespKey (s.work.p ++ ff1NextQ s)

/-- `S` of the present round. -/
def ff1NextS (p : Params) (s : State) : Bytes := ff1S p s.aespKey s.work.dd (ff1NextR p s)

/-- `Y` of the present round. -/
def ff1NextY (p : Params) (s : State) : Nat := numBytes (slice (ff1NextS p s) 0 s.work.dd)

/-- `M` of the present round. -/
def ff1NextM (s : State) : Nat := roundWidth (ff1RoundIndex s) s.work.u s.work.v

/-- `C` of the present round. -/
def ff1NextC (p : Params) (s : State) : Nat :=
  combine s.work.dir (numRadix s.ctx.radix s.work.a) (ff1NextY p s) (s.ctx.radix ^ ff1NextM s)

/-- The working registers after the present round. -/
def ff1NextWork (p : Params) (s : State) : Work :=
  { s.work with
    q := ff1NextQ s
    r := ff1NextR p s
    s := ff1NextS p s
    y := ff1NextY p s
    m := ff1NextM s
    c := ff1NextC p s
    a := s.work.b
    b := render (ff1NextC p s) s.ctx.radix (ff1NextM s) }

/-- The transactions of the present round. -/
def ff1NextTxns (p : Params) (s : State) : List PortTxn :=
  prfTxns p s.aespKey (s.work.p ++ ff1NextQ s) ++
    (List.range (ff1ExtensionCount s.work.dd)).map fun j => ciphTxn p s.aespKey (ff1Counter (ff1NextR p s) (j + 1))

theorem ff1ExtensionCount_bound (bb : Nat) : 16 * ff1ExtensionCount (ff1RandomBytes bb) ≤ bb + 7 := by
  unfold ff1ExtensionCount ff1RandomBytes; omega

/-- `Q` is rewritten from its round byte on, its first bytes never (R155, R156, R66). -/
theorem ff1_q_rewritten {q t e : Bytes} {pad bb r : Nat} (hq : q.length = t.length + pad + 1 + bb)
    (hpre : slice q 0 (t.length + pad) = t ++ zeroBytes pad) (he : e.length = bb) :
    storeAt (storeAt q (t.length + pad) [BitVec.ofNat 8 r]) (t.length + pad + 1) e =
      t ++ zeroBytes pad ++ [BitVec.ofNat 8 r] ++ e := by
  have h1 : q.take (t.length + pad) = t ++ zeroBytes pad := by rw [← slice_zero]; exact hpre
  have hlen : (t ++ zeroBytes pad).length = t.length + pad := by simp
  have hlen' : (t ++ zeroBytes pad ++ [BitVec.ofNat 8 r]).length = t.length + pad + 1 := by simp; omega
  unfold storeAt
  rw [h1]
  rw [show t.length + pad + 1 = (t ++ zeroBytes pad ++ [BitVec.ofNat 8 r]).length from hlen'.symm, List.take_left]
  have hdrop : (t ++ zeroBytes pad ++ [BitVec.ofNat 8 r] ++
      List.drop (t.length + pad + [BitVec.ofNat 8 r].length) q).drop
        ((t ++ zeroBytes pad ++ [BitVec.ofNat 8 r]).length + e.length) = [] := by
    apply List.drop_of_length_le
    simp only [List.length_append, List.length_drop, List.length_singleton, zeroBytes_length, he, hq]
    omega
  rw [hdrop, List.append_nil]

/-- The sizes that a round relies on (R66, R151, R170). -/
theorem ff1Shaped_bounds {s : State} (hr : 2 ≤ s.ctx.radix) (hr' : s.ctx.radix ≤ 36) (hn : 2 ≤ s.work.n)
    (hn' : s.work.n < 2 ^ 32) (hs : FF1Shaped s) :
    s.work.a.length ≠ 0 ∧ s.work.b.length ≠ 0 ∧ ff1NextM s ≠ 0 ∧
      numRadix s.ctx.radix s.work.b < 256 ^ s.work.bb ∧ ff1ExtensionCount s.work.dd < 256 ^ 4 := by
  obtain ⟨-, hu, hv, ⟨hla, hlb, -, hdb⟩, hbb, hdd, -⟩ := hs
  have hu0 : s.work.u ≠ 0 := by omega
  have hv0 : s.work.v ≠ 0 := by omega
  have hlb0 : s.work.b.length ≠ 0 := by rw [hlb]; exact roundWidth_ne_zero _ hu0 hv0
  have hlbv : s.work.b.length ≤ s.work.v := by rw [hlb]; exact roundWidth_le _ (by omega) (by omega)
  refine ⟨by rw [hla]; exact roundWidth_ne_zero _ hu0 hv0, hlb0, roundWidth_ne_zero _ hu0 hv0, ?_, ?_⟩
  · refine lt_of_lt_of_le (numRadix_lt hlb0 hdb) (le_trans (Nat.pow_le_pow_right (by omega) hlbv) ?_)
    rw [hbb]; exact pow_le_ff1ByteWidth (by omega) _
  · have hsmall : s.work.bb ≤ 2 ^ 32 := by
      rw [hbb, ff1ByteWidth_le_iff (by omega)]
      calc s.ctx.radix ^ s.work.v ≤ 256 ^ s.work.v := Nat.pow_le_pow_left (by omega) _
        _ ≤ 256 ^ (2 ^ 32) := Nat.pow_le_pow_right (by norm_num) (by omega)
    have hb := ff1ExtensionCount_bound s.work.bb
    rw [← hdd] at hb
    norm_num at hsmall ⊢
    omega

/-- The two writes into `Q` make the round's `Q` (R155, R156). -/
theorem ff1Shaped_q {s : State} (ht : s.work.t.length = s.work.tl) (hs : FF1Shaped s) :
    storeAt (storeAt s.work.q (s.work.ql - s.work.bb - 1) [BitVec.ofNat 8 (ff1RoundIndex s)])
      (s.work.ql - s.work.bb) (beBytes (numRadix s.ctx.radix s.work.b) s.work.bb) = ff1NextQ s := by
  obtain ⟨-, -, -, -, -, -, hql, -, hq, hpre⟩ := hs
  have h1 : s.work.ql - s.work.bb - 1 = s.work.t.length + ff1Pad s.work.tl s.work.bb := by omega
  have h2 : s.work.ql - s.work.bb = s.work.t.length + ff1Pad s.work.tl s.work.bb + 1 := by omega
  rw [h1] at hpre
  rw [h1, h2, ff1_q_rewritten (bb := s.work.bb) (by omega) hpre (by simp)]
  simp only [ff1NextQ, ff1Q, ht]

/-- The `prf` input of a round has a legal length (R157). -/
theorem ff1Shaped_input {s : State} (ht : s.work.t.length = s.work.tl) (hs : FF1Shaped s) :
    (s.work.p ++ ff1NextQ s).length ≠ 0 ∧ (s.work.p ++ ff1NextQ s).length % 16 = 0 := by
  have hm := ff1Pad_multiple s.work.tl s.work.bb
  rw [List.length_append, ff1NextQ, ff1Q_length, hs.p, ff1P_length, ht]
  omega

/-- All that one FF1 round does, in every state that the rounds reach (R155 to R162): no step of it raises (R170). -/
theorem ff1Round_eq (p : Params) (m : Move) (hr : 2 ≤ m.state.ctx.radix) (hr' : m.state.ctx.radix ≤ 36)
    (hn : 2 ≤ m.state.work.n) (hn' : m.state.work.n < 2 ^ 32) (ht : m.state.work.t.length = m.state.work.tl)
    (hc : m.state.chain = zeroBytes 16) (hs : FF1Shaped m.state) :
    ff1Round p m =
      ⟨advanceRound 10 (m.state.withWork (ff1NextWork p m.state)), m.txns ++ ff1NextTxns p m.state⟩ := by
  obtain ⟨s, tx⟩ := m
  simp only at *
  obtain ⟨hla0, hlb0, hm0, hfit, hcount⟩ := ff1Shaped_bounds hr hr' hn hn' hs
  have hda := hs.halves.a_digits
  have hdb := hs.halves.b_digits
  have hpow : 0 < s.ctx.radix ^ ff1NextM s := Nat.pow_pos (by omega)
  have hchain : ∀ w, (s.withWork w).withChain (zeroBytes 16) = s.withWork w := fun w => by rw [← hc]; rfl
  have e1 : ff1IndexStep ⟨s, tx⟩ = .ok () ⟨s.withWork { s.work with
      q := storeAt s.work.q (s.work.ql - s.work.bb - 1) [BitVec.ofNat 8 (ff1RoundIndex s)] }, tx⟩ := rfl
  have e2 : ff1NumeralStep ⟨s.withWork { s.work with
      q := storeAt s.work.q (s.work.ql - s.work.bb - 1) [BitVec.ofNat 8 (ff1RoundIndex s)] }, tx⟩ =
      .ok () ⟨s.withWork { s.work with q := ff1NextQ s }, tx⟩ := by
    unfold ff1NumeralStep
    simp only [State.withWork_work, State.withWork_ctx, decodeNumeral_digits hlb0 hdb, Flow.need_some, Flow.andThen_ok,
      be_of_lt hfit, Flow.set_eq, Move.updateWork, Move.update, State.withWork_twice, ff1Shaped_q ht hs]
  have e3 : ff1PrfStep p ⟨s.withWork { s.work with q := ff1NextQ s }, tx⟩ =
      .ok () ⟨s.withWork { s.work with q := ff1NextQ s, r := ff1NextR p s },
        tx ++ prfTxns p s.aespKey (s.work.p ++ ff1NextQ s)⟩ := by
    unfold ff1PrfStep
    simp only [State.withWork_work, prf_legal p (ff1Shaped_input ht hs).1 (ff1Shaped_input ht hs).2, hchain]
    rfl
  have e4 : ff1ExtendStep p ⟨s.withWork { s.work with q := ff1NextQ s, r := ff1NextR p s },
        tx ++ prfTxns p s.aespKey (s.work.p ++ ff1NextQ s)⟩ =
      .ok () ⟨s.withWork { s.work with q := ff1NextQ s, r := ff1NextR p s, s := ff1NextS p s },
        tx ++ ff1NextTxns p s⟩ := by
    unfold ff1ExtendStep
    have hlist : ∀ j ∈ (List.range (ff1ExtensionCount s.work.dd)).map (· + 1), j < 256 ^ 4 := by
      intro j hj
      simp only [List.mem_map, List.mem_range] at hj
      obtain ⟨k, hk, rfl⟩ := hj
      omega
    refine (ff1ExtensionBlocks_eq p _ _ (by simp [ff1NextR]) hlist (by simpa using hc)).trans ?_
    simp only [Move.updateWork, Move.update, State.withWork_work, State.withWork_aespKey, State.withWork_twice,
      ff1NextTxns, ff1NextS, ff1S, List.map_map, Function.comp_def, List.append_assoc]
  have e5 : ff1RandomStep ⟨s.withWork { s.work with q := ff1NextQ s, r := ff1NextR p s, s := ff1NextS p s },
        tx ++ ff1NextTxns p s⟩ =
      .ok () ⟨s.withWork { s.work with
        q := ff1NextQ s, r := ff1NextR p s, s := ff1NextS p s, y := ff1NextY p s }, tx ++ ff1NextTxns p s⟩ := by
    have hy : ff1NextY p s % 2 ^ (8 * s.work.dd) = ff1NextY p s := by
      refine Nat.mod_eq_of_lt (lt_of_lt_of_le (numBytes_lt _) ?_)
      rw [show (256 : Nat) = 2 ^ 8 from rfl, ← pow_mul]
      refine Nat.pow_le_pow_right (by norm_num) (Nat.mul_le_mul_left _ ?_)
      rw [slice_length]; omega
    unfold ff1RandomStep
    rw [ff1NextY] at hy
    simp only [Flow.set_eq, Move.updateWork, Move.update, State.withWork_work, State.withWork_twice, hy]
    rfl
  have e6 : ff1WidthStep ⟨s.withWork { s.work with
        q := ff1NextQ s, r := ff1NextR p s, s := ff1NextS p s, y := ff1NextY p s }, tx ++ ff1NextTxns p s⟩ =
      .ok () ⟨s.withWork { s.work with
        q := ff1NextQ s, r := ff1NextR p s, s := ff1NextS p s, y := ff1NextY p s, m := ff1NextM s },
        tx ++ ff1NextTxns p s⟩ := rfl
  have e7 : ff1ResidueStep ⟨s.withWork { s.work with
        q := ff1NextQ s, r := ff1NextR p s, s := ff1NextS p s, y := ff1NextY p s, m := ff1NextM s },
        tx ++ ff1NextTxns p s⟩ =
      .ok () ⟨s.withWork { s.work with
        q := ff1NextQ s, r := ff1NextR p s, s := ff1NextS p s, y := ff1NextY p s, m := ff1NextM s,
        c := ff1NextC p s }, tx ++ ff1NextTxns p s⟩ := by
    unfold ff1ResidueStep
    simp only [State.withWork_work, State.withWork_ctx, decodeNumeral_digits hla0 hda, Flow.need_some, Flow.andThen_ok]
    rfl
  have e8 : ff1SwapStep ⟨s.withWork { s.work with
        q := ff1NextQ s, r := ff1NextR p s, s := ff1NextS p s, y := ff1NextY p s, m := ff1NextM s,
        c := ff1NextC p s }, tx ++ ff1NextTxns p s⟩ =
      .ok () ⟨advanceRound 10 (s.withWork (ff1NextWork p s)), tx ++ ff1NextTxns p s⟩ := by
    have hfits : encodeNumeral (ff1NextC p s) s.ctx.radix (ff1NextM s) =
        some (render (ff1NextC p s) s.ctx.radix (ff1NextM s)) := encodeNumeral_of_lt hm0 (combine_lt _ _ _ hpow)
    unfold ff1SwapStep
    simp only [State.withWork_work, State.withWork_ctx, hfits, Flow.need_some, Flow.andThen_ok]
    rfl
  unfold ff1Round
  rw [e1, Flow.andThen_ok, e2, Flow.andThen_ok, e3, Flow.andThen_ok, e4, Flow.andThen_ok, e5, Flow.andThen_ok, e6,
    Flow.andThen_ok, e7, Flow.andThen_ok, e8, Flow.settle_ok]

end Sys2Proof.Machine
end

