-- ==== Sys2Proof/Laws/FF31.lean ====
section
/-! SUPPORT. The FF3-1 engine: the tweak halves, the round block, and one lemma that says all that a round does. -/

namespace Sys2Proof.Machine

/-! ### The tweak halves (R177) -/

theorem ff31TweakLeft_length {t : Bytes} (h : t.length = 7) : (ff31TweakLeft t).length = 4 := by
  simp [ff31TweakLeft, slice_length, h]

theorem ff31TweakRight_length {t : Bytes} (h : t.length = 7) : (ff31TweakRight t).length = 4 := by
  simp [ff31TweakRight, slice_length, h]

/-- The tweak half that the round index `r` selects: the right one for an even `r`, in both directions (R180). -/
def ff31TweakHalf (t : Bytes) (r : Nat) : Bytes := if r % 2 = 0 then ff31TweakRight t else ff31TweakLeft t

theorem ff31TweakHalf_length {t : Bytes} (h : t.length = 7) (r : Nat) : (ff31TweakHalf t r).length = 4 := by
  unfold ff31TweakHalf
  split
  · exact ff31TweakRight_length h
  · exact ff31TweakLeft_length h

/-- The direction offset makes the selection a function of the round index alone (R180). -/
theorem ff31_offset_parity (d : Direction) {rnd : Nat} (h : rnd < 8) :
    (rnd + ff31Offset d) % 2 = (roundIndex 8 d rnd + 1) % 2 := by
  cases d
  · simp only [ff31Offset, roundIndex]
  · simp only [ff31Offset, roundIndex]; omega

theorem ff31Half_eq {s : State} (h0 : s.work.tw0 = ff31TweakLeft s.work.t) (h1 : s.work.tw1 = ff31TweakRight s.work.t)
    (hr : s.rnd < 8) : ff31Half s = ff31TweakHalf s.work.t (ff31RoundIndex s) := by
  have hpar := ff31_offset_parity s.work.dir hr
  have hidx : ff31RoundIndex s = roundIndex 8 s.work.dir s.rnd := rfl
  unfold ff31Half ff31TweakHalf
  rw [h0, h1, hidx]
  by_cases h : roundIndex 8 s.work.dir s.rnd % 2 = 0
  · rw [if_neg (by omega), if_pos h]
  · rw [if_pos (by omega), if_neg h]

/-! ### The round block (R179, R181, 30 R69) -/

theorem xorIndexByte_length {x : Bytes} (h : 4 ≤ x.length) (r : Nat) : (xorIndexByte x r).length = x.length :=
  storeAt_length (by simpa using h)

theorem xorIndexByte_append {x : Bytes} (h : x.length = 4) (y : Bytes) (r : Nat) :
    xorIndexByte (x ++ y) r = xorIndexByte x r ++ y := by
  obtain ⟨a, b, c, d, rfl⟩ : ∃ a b c d, x = [a, b, c, d] := by
    match x, h with
    | [a, b, c, d], _ => exact ⟨a, b, c, d, rfl⟩
  simp [xorIndexByte, storeAt]

/-- Writing the tweak half and then the numeral makes the round block, whatever block was there (R69). -/
theorem ff31_block_rewritten {pblk half e : Bytes} (hp : pblk.length = 0 ∨ pblk.length = 16) (hh : half.length = 4)
    (he : e.length = 12) (r : Nat) :
    storeAt (xorIndexByte (storeAt pblk 0 half) r) 4 e = xorIndexByte half r ++ e := by
  have hx : (xorIndexByte half r).length = 4 := by rw [xorIndexByte_length (by omega), hh]
  have hs : storeAt pblk 0 half = half ++ pblk.drop 4 := by simp [storeAt, hh]
  rw [hs, xorIndexByte_append hh]
  unfold storeAt
  rw [List.take_append_of_le_length (by omega), List.take_of_length_le (by omega)]
  have : (xorIndexByte half r ++ List.drop 4 pblk).drop (4 + e.length) = [] := by
    apply List.drop_of_length_le
    rw [List.length_append, List.length_drop]
    omega
  rw [this, List.append_nil]

theorem ff31P_length {t : Bytes} (h : t.length = 7) (r nb : Nat) : (ff31P t r nb).length = 16 := by
  have h4 := ff31TweakHalf_length h r
  unfold ff31P
  rw [List.length_append, show (if r % 2 = 0 then ff31TweakRight t else ff31TweakLeft t) = ff31TweakHalf t r from rfl,
    xorIndexByte_length (by omega), h4, beBytes_length]
  rfl

/-! ### One round -/

/-- The numeral value of the reversed `B` of the present round (R181). -/
def ff31NextNumeral (s : State) : Nat := numRadix s.ctx.radix (revs s.work.b)

/-- `P` of the present round. -/
def ff31NextP (s : State) : Bytes := ff31P s.work.t (ff31RoundIndex s) (ff31NextNumeral s)

/-- `S` of the present round. -/
def ff31NextS (p : Params) (s : State) : Bytes := revb (ciphValue p s.aespKey (revb (ff31NextP s)))

/-- `Y` of the present round. -/
def ff31NextY (p : Params) (s : State) : Nat := numBytes (ff31NextS p s)

/-- `M` of the present round. -/
def ff31NextM (s : State) : Nat := roundWidth (ff31RoundIndex s) s.work.u s.work.v

/-- `C` of the present round. -/
def ff31NextC (p : Params) (s : State) : Nat :=
  combine s.work.dir (numRadix s.ctx.radix (revs s.work.a)) (ff31NextY p s) (s.ctx.radix ^ ff31NextM s)

/-- The working registers after the present round. -/
def ff31NextWork (p : Params) (s : State) : Work :=
  { s.work with
    p := ff31NextP s
    s := ff31NextS p s
    y := ff31NextY p s
    m := ff31NextM s
    c := ff31NextC p s
    a := s.work.b
    b := revs (render (ff31NextC p s) s.ctx.radix (ff31NextM s)) }

/-- The working registers as the round leaves them when the 12-byte field overflows (R182). -/
def ff31OverflowWork (s : State) : Work :=
  { s.work with p := xorIndexByte (storeAt s.work.p 0 (ff31Half s)) (ff31RoundIndex s) }

theorem ff31Shaped_bounds {s : State} (hn : 2 ≤ s.work.n) (hs : FF31Shaped s) :
    s.work.a.length ≠ 0 ∧ s.work.b.length ≠ 0 ∧ ff31NextM s ≠ 0 := by
  obtain ⟨-, hv, hu, ⟨hla, hlb, -, -⟩, -⟩ := hs
  have hu0 : s.work.u ≠ 0 := by omega
  have hv0 : s.work.v ≠ 0 := by omega
  exact ⟨by rw [hla]; exact roundWidth_ne_zero _ hu0 hv0, by rw [hlb]; exact roundWidth_ne_zero _ hu0 hv0,
    roundWidth_ne_zero _ hu0 hv0⟩

theorem ff31TweakBlockStep_eq (s : State) (tx : List PortTxn) :
    ff31TweakBlockStep ⟨s, tx⟩ = .ok () ⟨s.withWork (ff31OverflowWork s), tx⟩ := rfl

/-- A round whose numeral does not fit its 12 bytes stops fatally, before any transaction of its own (R181, R182). -/
theorem ff31Round_overflow (p : Params) (m : Move) (hn : 2 ≤ m.state.work.n) (hs : FF31Shaped m.state)
    (h : 2 ^ 96 ≤ ff31NextNumeral m.state) :
    ff31Round p m = ⟨raiseError .lengthExceeded (m.state.withWork (ff31OverflowWork m.state)), m.txns⟩ := by
  obtain ⟨s, tx⟩ := m
  simp only at *
  obtain ⟨-, hlb0, -⟩ := ff31Shaped_bounds hn hs
  have hdb := allDigits_revs hs.halves.b_digits
  have e2 : ff31NumeralStep ⟨s.withWork (ff31OverflowWork s), tx⟩ =
      .raised .lengthExceeded ⟨s.withWork (ff31OverflowWork s), tx⟩ := by
    unfold ff31NumeralStep
    have hd : decodeNumeral (revs s.work.b) s.ctx.radix = some (ff31NextNumeral s) :=
      decodeNumeral_digits (by simpa using hlb0) hdb
    have hb : be (ff31NextNumeral s) Config.ff31NumBytes = none := be_of_le (by norm_num at h ⊢; exact h)
    simp only [State.withWork_work, State.withWork_ctx, ff31OverflowWork, hd, hb, Flow.need_some, Flow.need_none,
      Flow.andThen_ok, Flow.andThen_raised]
  unfold ff31Round
  rw [ff31TweakBlockStep_eq, Flow.andThen_ok, e2]
  rfl

/-- All that one FF3-1 round does when its numeral fits (R178 to R189): no other step of it raises (R198). -/
theorem ff31Round_eq (p : Params) (m : Move) (hr : 2 ≤ m.state.ctx.radix)
    (hn : 2 ≤ m.state.work.n) (ht : m.state.work.t.length = 7) (hc : m.state.chain = zeroBytes 16)
    (hs : FF31Shaped m.state) (h : ff31NextNumeral m.state < 2 ^ 96) :
    ff31Round p m =
      ⟨advanceRound 8 (m.state.withWork (ff31NextWork p m.state)),
        m.txns ++ [ciphTxn p m.state.aespKey (revb (ff31NextP m.state))]⟩ := by
  obtain ⟨s, tx⟩ := m
  simp only at *
  obtain ⟨hla0, hlb0, hm0⟩ := ff31Shaped_bounds hn hs
  have hda := allDigits_revs hs.halves.a_digits
  have hdb := allDigits_revs hs.halves.b_digits
  have hpow : 0 < s.ctx.radix ^ ff31NextM s := Nat.pow_pos (by omega)
  have hchain : ∀ w, (s.withWork w).withChain (zeroBytes 16) = s.withWork w := fun w => by rw [← hc]; rfl
  have hP : storeAt (xorIndexByte (storeAt s.work.p 0 (ff31Half s)) (ff31RoundIndex s)) 4
      (beBytes (ff31NextNumeral s) 12) = ff31NextP s := by
    rw [ff31Half_eq hs.tw0 hs.tw1 hs.rnd]
    rw [ff31_block_rewritten hs.p (ff31TweakHalf_length ht _) (by simp)]
    rfl
  have hPlen : (revb (ff31NextP s)).length = 16 := by rw [revb_length]; exact ff31P_length ht _ _
  have e2 : ff31NumeralStep ⟨s.withWork (ff31OverflowWork s), tx⟩ =
      .ok () ⟨s.withWork { s.work with p := ff31NextP s }, tx⟩ := by
    unfold ff31NumeralStep
    have hd : decodeNumeral (revs s.work.b) s.ctx.radix = some (ff31NextNumeral s) :=
      decodeNumeral_digits (by simpa using hlb0) hdb
    have hb : be (ff31NextNumeral s) Config.ff31NumBytes = some (beBytes (ff31NextNumeral s) 12) :=
      be_of_lt (by norm_num at h ⊢; exact h)
    simp only [State.withWork_work, State.withWork_ctx, ff31OverflowWork, hd, hb, Flow.need_some, Flow.andThen_ok,
      Flow.set_eq, Move.updateWork, Move.update, State.withWork_twice, hP]
  have e3 : ff31CiphStep p ⟨s.withWork { s.work with p := ff31NextP s }, tx⟩ =
      .ok () ⟨s.withWork { s.work with p := ff31NextP s, s := ff31NextS p s },
        tx ++ [ciphTxn p s.aespKey (revb (ff31NextP s))]⟩ := by
    unfold ff31CiphStep
    simp only [State.withWork_work, ciph_block p hPlen, hchain]
    rfl
  have e4 : ff31RandomStep ⟨s.withWork { s.work with p := ff31NextP s, s := ff31NextS p s },
        tx ++ [ciphTxn p s.aespKey (revb (ff31NextP s))]⟩ =
      .ok () ⟨s.withWork { s.work with p := ff31NextP s, s := ff31NextS p s, y := ff31NextY p s },
        tx ++ [ciphTxn p s.aespKey (revb (ff31NextP s))]⟩ := by
    have hy : numBytes (ff31NextS p s) % 2 ^ 128 = ff31NextY p s := by
      refine Nat.mod_eq_of_lt ?_
      have := numBytes_lt (ff31NextS p s)
      have hl : (ff31NextS p s).length = 16 := by simp [ff31NextS, ciphValue]
      rw [hl] at this
      norm_num at this ⊢
      exact this
    unfold ff31RandomStep
    simp only [Flow.set_eq, Move.updateWork, Move.update, State.withWork_work, State.withWork_twice, hy]
  have e5 : ff31WidthStep ⟨s.withWork { s.work with p := ff31NextP s, s := ff31NextS p s, y := ff31NextY p s },
        tx ++ [ciphTxn p s.aespKey (revb (ff31NextP s))]⟩ =
      .ok () ⟨s.withWork { s.work with
        p := ff31NextP s, s := ff31NextS p s, y := ff31NextY p s, m := ff31NextM s },
        tx ++ [ciphTxn p s.aespKey (revb (ff31NextP s))]⟩ := rfl
  have e6 : ff31ResidueStep ⟨s.withWork { s.work with
        p := ff31NextP s, s := ff31NextS p s, y := ff31NextY p s, m := ff31NextM s },
        tx ++ [ciphTxn p s.aespKey (revb (ff31NextP s))]⟩ =
      .ok () ⟨s.withWork { s.work with
        p := ff31NextP s, s := ff31NextS p s, y := ff31NextY p s, m := ff31NextM s, c := ff31NextC p s },
        tx ++ [ciphTxn p s.aespKey (revb (ff31NextP s))]⟩ := by
    have hd : decodeNumeral (revs s.work.a) s.ctx.radix = some (numRadix s.ctx.radix (revs s.work.a)) :=
      decodeNumeral_digits (by simpa using hla0) hda
    unfold ff31ResidueStep
    simp only [State.withWork_work, State.withWork_ctx, hd, Flow.need_some, Flow.andThen_ok]
    rfl
  have e7 : ff31SwapStep ⟨s.withWork { s.work with
        p := ff31NextP s, s := ff31NextS p s, y := ff31NextY p s, m := ff31NextM s, c := ff31NextC p s },
        tx ++ [ciphTxn p s.aespKey (revb (ff31NextP s))]⟩ =
      .ok () ⟨advanceRound 8 (s.withWork (ff31NextWork p s)),
        tx ++ [ciphTxn p s.aespKey (revb (ff31NextP s))]⟩ := by
    have hfits : encodeNumeral (ff31NextC p s) s.ctx.radix (ff31NextM s) =
        some (render (ff31NextC p s) s.ctx.radix (ff31NextM s)) := encodeNumeral_of_lt hm0 (combine_lt _ _ _ hpow)
    unfold ff31SwapStep
    simp only [State.withWork_work, State.withWork_ctx, hfits, Flow.need_some, Flow.andThen_ok]
    rfl
  unfold ff31Round
  rw [ff31TweakBlockStep_eq, Flow.andThen_ok, e2, Flow.andThen_ok, e3, Flow.andThen_ok, e4, Flow.andThen_ok, e5,
    Flow.andThen_ok, e6, Flow.andThen_ok, e7, Flow.settle_ok]

end Sys2Proof.Machine
end

