-- ==== Sys2Proof/Laws/Setup.lean ====
section
/-! SUPPORT. Phase SETUP of the two engines, and the shape of the working registers from there to FINISH. -/

namespace Sys2Proof.Machine

/-- The working registers after the FF1 setup (R150 to R154). -/
def ff1SetupWork (s : State) : Work :=
  { s.work with
    u := s.work.n / 2
    v := s.work.n - s.work.n / 2
    a := (splitHalves s.work.dir s.lat.txt (s.work.n / 2) s.work.n).1
    b := (splitHalves s.work.dir s.lat.txt (s.work.n / 2) s.work.n).2
    bb := ff1ByteWidth s.ctx.radix (s.work.n - s.work.n / 2)
    dd := ff1RandomBytes (ff1ByteWidth s.ctx.radix (s.work.n - s.work.n / 2))
    p := ff1P s.ctx.radix s.work.n s.work.tl
    ql := s.work.tl + ff1Pad s.work.tl (ff1ByteWidth s.ctx.radix (s.work.n - s.work.n / 2)) + 1
      + ff1ByteWidth s.ctx.radix (s.work.n - s.work.n / 2)
    q := s.work.t ++ zeroBytes (ff1Pad s.work.tl (ff1ByteWidth s.ctx.radix (s.work.n - s.work.n / 2))) ++ zeroBytes 1
      ++ zeroBytes (ff1ByteWidth s.ctx.radix (s.work.n - s.work.n / 2)) }

/-- All that the FF1 setup does: no `BE` of it can fail (R150 to R154, 42_byte_utilities.md R124). -/
theorem ff1Setup_eq (m : Move) (hr : m.state.ctx.radix ≤ 36) (hn : m.state.work.n < 2 ^ 32)
    (ht : m.state.work.tl < 2 ^ 32) :
    ff1Setup m = ⟨((m.state.withWork (ff1SetupWork m.state)).withRound 0).withPhase .round, m.txns⟩ := by
  obtain ⟨s, tx⟩ := m
  simp only at *
  have h1 : be s.ctx.radix 3 = some (beBytes s.ctx.radix 3) := be_of_lt (by norm_num; omega)
  have h2 : be s.work.n 4 = some (beBytes s.work.n 4) := be_of_lt (by norm_num at hn ⊢; omega)
  have h3 : be s.work.tl 4 = some (beBytes s.work.tl 4) := be_of_lt (by norm_num at ht ⊢; omega)
  simp only [ff1Setup, ff1SplitStep, ff1ByteWidthStep, ff1RandomBytesStep, ff1HeaderStep, ff1SkeletonStep, enterRounds,
    Flow.set_eq, Flow.andThen_ok, Move.update, Move.updateWork, State.withWork_work, State.withWork_ctx,
    State.withWork_twice, h1, h2, h3, Flow.need_some, Flow.settle_ok]
  rfl

/-- The working registers after the FF3-1 setup (R176, R177). -/
def ff31SetupWork (s : State) : Work :=
  { s.work with
    v := s.work.n / 2
    u := s.work.n - s.work.n / 2
    a := (splitHalves s.work.dir s.lat.txt (s.work.n - s.work.n / 2) s.work.n).1
    b := (splitHalves s.work.dir s.lat.txt (s.work.n - s.work.n / 2) s.work.n).2
    tw0 := ff31TweakLeft s.work.t
    tw1 := ff31TweakRight s.work.t }

/-- All that the FF3-1 setup does (R176, R177). -/
theorem ff31Setup_eq (m : Move) :
    ff31Setup m = ⟨((m.state.withWork (ff31SetupWork m.state)).withRound 0).withPhase .round, m.txns⟩ := rfl

/-! ### The halves -/

/-- The halves that a split makes have the widths of the first round (R150, R176). -/
theorem halvesShaped_of_split {radix rounds cut other n : Nat} {x : Bytes} {w : Work} {d : Direction}
    (hrounds : rounds % 2 = 0) (hpos : 0 < rounds) (hcut : cut + other = n) (hn : n ≤ x.length)
    (hu : w.u = cut) (hv : w.v = other) (hx : allDigits radix (x.take n) = true)
    (ha : w.a = (splitHalves d x cut n).1) (hb : w.b = (splitHalves d x cut n).2) :
    HalvesShaped radix (roundIndex rounds d 0) w := by
  have hd := splitHalves_digits hx d cut n
  rw [splitHalves_take d x (by omega : cut ≤ n)] at hd
  refine ⟨?_, ?_, by rw [ha]; exact hd.1, by rw [hb]; exact hd.2⟩
  · rw [ha, hu, hv]
    cases d with
    | encrypt => exact (splitHalves_encrypt_length (by omega) hn).1
    | decrypt =>
      rw [(splitHalves_decrypt_length (by omega) hn).1, roundWidth_odd (by simp only [roundIndex]; omega)]
      omega
  · rw [hb, hu, hv]
    cases d with
    | encrypt =>
      rw [(splitHalves_encrypt_length (by omega) hn).2, roundWidth_odd (by simp only [roundIndex])]
      omega
    | decrypt =>
      rw [(splitHalves_decrypt_length (by omega) hn).2, roundWidth_even (by simp only [roundIndex]; omega)]

/-- The two widths swap their roles from one round to the next (R162, R189). -/
theorem roundWidth_next_succ {rounds rnd : Nat} (d : Direction) (u v : Nat) (h : rnd + 1 < rounds) :
    roundWidth (roundIndex rounds d (rnd + 1) + 1) u v = roundWidth (roundIndex rounds d rnd) u v := by
  cases d with
  | encrypt =>
    simp only [roundIndex]
    exact roundWidth_add_two rnd u v
  | decrypt =>
    simp only [roundIndex]
    congr 1
    omega

/-- A round that replaces `A` by `B` and `B` by M digits keeps the shape of the halves (10_state.md R26). -/
theorem halvesShaped_next {radix rounds rnd : Nat} {w w' : Work} (hr : rnd + 1 < rounds)
    (h : HalvesShaped radix (roundIndex rounds w.dir rnd) w) (hd : w'.dir = w.dir) (hu : w'.u = w.u) (hv : w'.v = w.v)
    (ha : w'.a = w.b) (hb : w'.b.length = roundWidth (roundIndex rounds w.dir rnd) w.u w.v)
    (hbd : allDigits radix w'.b = true) : HalvesShaped radix (roundIndex rounds w'.dir (rnd + 1)) w' := by
  refine ⟨?_, ?_, by rw [ha]; exact h.b_digits, hbd⟩
  · rw [ha, hu, hv, hd, h.b, roundWidth_next w.dir w.u w.v hr]
  · rw [hb, hu, hv, hd, roundWidth_next_succ w.dir w.u w.v hr]

/-- The two widths of a round add up to `N` (R26). -/
theorem roundWidth_sum (r u v : Nat) : roundWidth (r + 1) u v + roundWidth r u v = u + v := by
  rw [roundWidth_succ]
  unfold roundWidth
  split <;> omega

theorem effectiveTweakLength_ff31 {p : Params} {s : State} (hc : ContextLegal p s.ctx) (ha : s.ctx.alg = .ff31)
    (ho : OperandsChecked p s) : s.work.tl = 7 := by
  obtain ⟨h1, h2⟩ := hc.ff31_tweak ha
  have h3 := ho.t_low
  have h4 := ho.t_high (by omega)
  omega

/-- What the rounds need to know of `N` (R147, R83). -/
theorem operandsChecked_n {p : Params} {s : State} (hp : p.wellFormed = true) (hc : ContextLegal p s.ctx)
    (ho : OperandsChecked p s) : 4 ≤ s.work.n ∧ s.work.n < 2 ^ 32 ∧ s.work.n ≤ s.lat.txt.length := by
  have hb := textMin_bounds hc.radix.1 hc.radix.2
  have hmin := hc.txt_min
  have hmax := textMax_le_nCap hc
  have hcap := wellFormed_bounds hp
  have h1 := ho.n_bounds
  have h2 := ho.n
  have h3 := ho.latched.txt
  omega

/-- The FF1 registers have their shape at the start of the first round (R150 to R154). -/
theorem ff1Shaped_setup {p : Params} {s : State} (hp : p.wellFormed = true) (hc : ContextLegal p s.ctx)
    (ho : OperandsChecked p s) :
    FF1Shaped (((s.withWork (ff1SetupWork s)).withRound 0).withPhase .round) := by
  obtain ⟨-, -, hlen⟩ := operandsChecked_n hp hc ho
  have hx := ho.digits
  rw [slice_zero] at hx
  exact {
    rnd := by simp
    u := rfl
    v := rfl
    halves := halvesShaped_of_split (d := s.work.dir) (n := s.work.n) (cut := s.work.n / 2)
      (other := s.work.n - s.work.n / 2) (x := s.lat.txt) rfl (by simp) (by omega) hlen rfl rfl hx rfl rfl
    bb := rfl
    dd := rfl
    ql := rfl
    p := rfl
    q := by simp [ff1SetupWork, ho.t]; omega
    q_tweak := by
      have ht := ho.t
      simp only [State.withPhase_work, State.withRound_work, State.withWork_work, ff1SetupWork, slice_zero]
      rw [List.append_assoc, List.append_assoc]
      rw [← List.append_assoc]
      apply List.take_left'
      simp only [List.length_append, zeroBytes_length]
      omega }

/-- The FF3-1 registers have their shape at the start of the first round (R176, R177). -/
theorem ff31Shaped_setup {p : Params} {s : State} (hp : p.wellFormed = true) (hc : ContextLegal p s.ctx)
    (ho : OperandsChecked p s) (hclean : OperandsOnly s) :
    FF31Shaped (((s.withWork (ff31SetupWork s)).withRound 0).withPhase .round) := by
  obtain ⟨-, -, hlen⟩ := operandsChecked_n hp hc ho
  have hx := ho.digits
  rw [slice_zero] at hx
  exact {
    rnd := by simp
    v := rfl
    u := rfl
    halves := halvesShaped_of_split (d := s.work.dir) (n := s.work.n) (cut := s.work.n - s.work.n / 2)
      (other := s.work.n / 2) (x := s.lat.txt) rfl (by simp) (by omega) hlen rfl rfl hx rfl rfl
    tw0 := rfl
    tw1 := rfl
    p := by
      left
      simp only [State.withPhase_work, State.withRound_work, State.withWork_work, ff31SetupWork]
      rw [hclean.1]
      rfl
    unused := by
      simp only [State.withPhase_work, State.withRound_work, State.withWork_work, ff31SetupWork]
      rw [hclean.1]
      exact ⟨rfl, rfl, rfl, rfl, rfl⟩ }

end Sys2Proof.Machine
end

