-- ==== Sys2Proof/Laws/Engine.lean ====
section
/-! SUPPORT. The engine from SETUP to the end of a cipher command: the rounds run one after another compute the closed
forms of Machine/Atomic.lean, and keep the shape of the working registers. -/

namespace Sys2Proof.Machine

/-! ### Moves in a row -/

theorem runEngine_add (p : Params) (j k : Nat) (m : Move) : runEngine p (j + k) m = runEngine p k (runEngine p j m) :=
    by
  induction j generalizing m with
  | zero => simp [runEngine]
  | succ j ih => rw [Nat.succ_add]; exact ih _

/-- In IDLE and FATAL the engine waits (10_state.md R32). -/
theorem runEngine_waits (p : Params) (k : Nat) {m : Move} (h : m.state.ph = .idle ∨ m.state.ph = .fatal) :
    runEngine p k m = m := by
  have h1 : engineMove p m = m := by
    unfold engineMove
    rcases h with h | h <;> rw [h]
  induction k with
  | zero => rfl
  | succ k ih => rw [runEngine, h1, ih]

theorem engineMove_check {p : Params} {m : Move} (h : m.state.ph = .check) : engineMove p m = m.update
    (checkPhase p) := by
  unfold engineMove; rw [h]

theorem engineMove_setup {p : Params} {m : Move} (h : m.state.ph = .setup) : engineMove p m = setupPhase m := by
  unfold engineMove; rw [h]

theorem engineMove_round {p : Params} {m : Move} (h : m.state.ph = .round) : engineMove p m = roundPhase p m := by
  unfold engineMove; rw [h]

theorem engineMove_finish {p : Params} {m : Move} (h : m.state.ph = .finish) : engineMove p m = finishPhase p m := by
  unfold engineMove; rw [h]

theorem advanceRound_next {rounds : Nat} {s : State} (h : s.rnd + 1 < rounds) :
    advanceRound rounds s = s.withRound (s.rnd + 1) := by unfold advanceRound; rw [if_pos h]

theorem advanceRound_last {rounds : Nat} {s : State} (h : s.rnd + 1 = rounds) :
    advanceRound rounds s = s.withPhase .finish := by unfold advanceRound; rw [if_neg (by omega)]

/-- `OperandsChecked` reads only the latches, the context and four working registers. -/
theorem operandsChecked_congr {p : Params} {s t : State} (h : OperandsChecked p s) (hl : t.lat = s.lat)
    (hc : t.ctx = s.ctx) (hd : t.work.dir = s.work.dir) (hn : t.work.n = s.work.n) (htl : t.work.tl = s.work.tl)
    (ht : t.work.t = s.work.t) : OperandsChecked p t := by
  obtain ⟨h1, h2, h3, h4, h5, h6, h7, h8, h9, h10, h11⟩ := h
  constructor <;> simp only [hl, hc, hd, hn, htl, ht] <;> assumption

/-! ### FF1 -/

/-- The round's results are those of the closed form (R164). -/
theorem ff1NextWork_pair {p : Params} {s : State} (ht : s.work.t.length = s.work.tl) (hs : FF1Shaped s) :
    ((ff1NextWork p s).a, (ff1NextWork p s).b) =
      ff1RoundPair p s.aespKey s.ctx.radix s.work.n s.work.t s.work.dir s.rnd (s.work.a, s.work.b) := by
  have h1 := hs.u
  have h2 := hs.v
  have h3 := hs.bb
  have h4 := hs.dd
  have h5 := hs.p
  simp only [ff1NextWork, ff1RoundPair, ff1NextC, ff1NextY, ff1NextS, ff1NextR, ff1NextQ, ff1NextM, ff1RoundIndex, ff1Y,
    ff1Input, h1, h2, h3, h4, h5, ← ht]

theorem ff1NextTxns_eq {p : Params} {s : State} (ht : s.work.t.length = s.work.tl) (hs : FF1Shaped s) :
    ff1NextTxns p s = ff1RoundTxns p s.aespKey s.ctx.radix s.work.n s.work.t (ff1RoundIndex s) s.work.b := by
  have h2 := hs.v
  have h3 := hs.bb
  have h4 := hs.dd
  have h5 := hs.p
  simp only [ff1NextTxns, ff1RoundTxns, ff1NextR, ff1NextQ, ff1Input, h2, h3, h4, h5, ← ht]

/-- A round that is not the last keeps the shape of the registers (R162). -/
theorem ff1Shaped_next {p : Params} {s : State} (hr : 2 ≤ s.ctx.radix) (hr' : s.ctx.radix ≤ 36)
    (ht : s.work.t.length = s.work.tl) (hs : FF1Shaped s) (hlast : s.rnd + 1 < 10) :
    FF1Shaped ((s.withWork (ff1NextWork p s)).withRound (s.rnd + 1)) := by
  have hpad : s.work.ql - s.work.bb - 1 = s.work.tl + ff1Pad s.work.tl s.work.bb := by have := hs.ql; omega
  exact {
    rnd := hlast
    u := hs.u
    v := hs.v
    halves := halvesShaped_next (w := s.work) hlast hs.halves rfl rfl rfl rfl (by simp [ff1NextWork, ff1NextM,
      ff1RoundIndex]) (allDigits_render hr hr' _ _)
    bb := hs.bb
    dd := hs.dd
    ql := hs.ql
    p := hs.p
    q := by
      simp only [State.withRound_work, State.withWork_work, ff1NextWork, ff1NextQ, ff1Q_length, ht]
      exact hs.ql.symm
    q_tweak := by
      simp only [State.withRound_work, State.withWork_work, ff1NextWork, ff1NextQ, ff1Q, slice_zero, hpad, ht]
      rw [List.append_assoc]
      apply List.take_left'
      simp [ht] }

/-- The result of the last round has `N` characters, all of them digits (R163). -/
theorem ff1NextWork_length {p : Params} {s : State} (hs : FF1Shaped s) :
    (ff1NextWork p s).a.length + (ff1NextWork p s).b.length = s.work.n := by
  have hu := hs.u
  have hv := hs.v
  have hsum := roundWidth_sum (ff1RoundIndex s) s.work.u s.work.v
  have hb := hs.halves.b
  simp only [ff1NextWork, render_length, ff1NextM]
  omega

/-- The rounds that remain, run one after another: the halves and the transactions of the closed form (R164, R171). -/
theorem ff1_rounds_run {p : Params} (hp : p.wellFormed = true) (j : Nat) (s : State) (tx : List PortTxn)
    (hph : s.ph = .round) (halg : s.ctx.alg = .ff1) (hc : ContextLegal p s.ctx) (ho : OperandsChecked p s)
    (hch : s.chain = zeroBytes 16) (hs : FF1Shaped s) (hj : s.rnd + (j + 1) = 10) :
    ∃ w r, runEngine p (j + 1) ⟨s, tx⟩ = ⟨((s.withWork w).withRound r).withPhase .finish,
        tx ++ ff1RoundsTxns p s.aespKey s.ctx.radix s.work.n s.work.t s.work.dir (List.range' s.rnd (j + 1))
          (s.work.a, s.work.b)⟩ ∧
      (w.a, w.b) = ff1Halves p s.aespKey s.ctx.radix s.work.n s.work.t s.work.dir (List.range' s.rnd (j + 1))
        (s.work.a, s.work.b) ∧
      w.dir = s.work.dir ∧ w.n = s.work.n ∧ w.tl = s.work.tl ∧ w.t = s.work.t ∧ w.a.length + w.b.length = w.n := by
  induction j generalizing s tx with
  | zero =>
    obtain ⟨h4, h32, -⟩ := operandsChecked_n hp hc ho
    refine ⟨ff1NextWork p s, s.rnd, ?_, ?_, rfl, rfl, rfl, rfl, ff1NextWork_length hs⟩
    · simp only [runEngine]
      rw [engineMove_round (by exact hph)]
      simp only [roundPhase, halg]
      rw [ff1Round_eq p ⟨s, tx⟩ hc.radix.1 hc.radix.2 (by simp only; omega) h32 ho.t hch hs,
        advanceRound_last (by simp only [State.withWork_rnd]; omega)]
      simp only [ff1NextTxns_eq ho.t hs, Nat.zero_add, List.range'_one, ff1RoundsTxns, List.append_nil]
      rfl
    · rw [ff1NextWork_pair ho.t hs]
      rfl
  | succ j ih =>
    obtain ⟨h4, h32, -⟩ := operandsChecked_n hp hc ho
    have hmove : engineMove p ⟨s, tx⟩ =
        ⟨(s.withWork (ff1NextWork p s)).withRound (s.rnd + 1),
          tx ++ ff1RoundTxns p s.aespKey s.ctx.radix s.work.n s.work.t (ff1RoundIndex s) s.work.b⟩ := by
      rw [engineMove_round (by exact hph)]
      simp only [roundPhase, halg]
      rw [ff1Round_eq p ⟨s, tx⟩ hc.radix.1 hc.radix.2 (by simp only; omega) h32 ho.t hch hs,
        advanceRound_next (by simp only [State.withWork_rnd]; omega)]
      simp only [ff1NextTxns_eq ho.t hs, State.withWork_rnd]
    obtain ⟨w, r, hrun, hab, h1, h2, h3, h5, h6⟩ := ih ((s.withWork (ff1NextWork p s)).withRound (s.rnd + 1))
      (tx ++ ff1RoundTxns p s.aespKey s.ctx.radix s.work.n s.work.t (ff1RoundIndex s) s.work.b)
      hph halg hc (operandsChecked_congr ho rfl rfl rfl rfl rfl rfl) hch
      (ff1Shaped_next hc.radix.1 hc.radix.2 ho.t hs (by omega)) (by simp only [State.withRound_rnd]; omega)
    have hpair := ff1NextWork_pair (p := p) ho.t hs
    simp only [State.withRound_work, State.withWork_work, State.withRound_aespKey, State.withWork_aespKey,
      State.withRound_ctx, State.withWork_ctx, State.withRound_rnd] at hrun hab h1 h2 h3 h5
    rw [hpair] at hrun hab
    refine ⟨w, r, ?_, ?_, h1, h2, h3, h5, h6⟩
    · rw [runEngine, hmove, hrun]
      simp only [List.range'_succ, ff1RoundsTxns, List.append_assoc]
      rfl
    · rw [hab]
      simp only [List.range'_succ, ff1Halves]
      rfl

/-! ### FF3-1 -/

theorem ff31Shaped_next {p : Params} {s : State} (hr : 2 ≤ s.ctx.radix) (hr' : s.ctx.radix ≤ 36)
    (ht : s.work.t.length = 7) (hs : FF31Shaped s) (hlast : s.rnd + 1 < 8) :
    FF31Shaped ((s.withWork (ff31NextWork p s)).withRound (s.rnd + 1)) :=
  { rnd := hlast
    v := hs.v
    u := hs.u
    halves := halvesShaped_next (w := s.work) hlast hs.halves rfl rfl rfl rfl (by simp [ff31NextWork, ff31NextM,
      ff31RoundIndex]) (allDigits_revs (allDigits_render hr hr' _ _))
    tw0 := hs.tw0
    tw1 := hs.tw1
    p := .inr (ff31P_length ht _ _)
    unused := hs.unused }

theorem ff31NextWork_length {p : Params} {s : State} (hs : FF31Shaped s) :
    (ff31NextWork p s).a.length + (ff31NextWork p s).b.length = s.work.n := by
  have hu := hs.u
  have hv := hs.v
  have hsum := roundWidth_sum (ff31RoundIndex s) s.work.u s.work.v
  have hb := hs.halves.b
  simp only [ff31NextWork, revs_length, render_length, ff31NextM]
  omega

/-- One round of the closed form on the present halves (R191). -/
theorem ff31RoundPair_eq {p : Params} {s : State} (hs : FF31Shaped s) :
    ff31RoundPair p s.aespKey s.ctx.radix s.work.n s.work.t s.work.dir s.rnd (s.work.a, s.work.b) =
      if 2 ^ 96 ≤ ff31NextNumeral s then none
      else some ((ff31NextWork p s).a, (ff31NextWork p s).b) := by
  have hu := hs.u
  have hv := hs.v
  simp only [ff31RoundPair, ff31NextWork, ff31NextC, ff31NextY, ff31NextS, ff31NextP, ff31NextM, ff31NextNumeral,
    ff31RoundIndex, ff31Y, hu, hv]

/-- The transaction of one FF3-1 round, from the halves `ab` (R196). -/
theorem ff31RoundTxn_eq {p : Params} {s : State} :
    ciphTxn p s.aespKey (revb (ff31NextP s)) = ciphTxn p s.aespKey
      (revb (ff31P s.work.t (roundIndex Config.roundsFF31 s.work.dir s.rnd) (numRadix s.ctx.radix
          (revs s.work.b)))) := rfl

/-- The rounds that remain, run one after another: either all of them fit and the closed form's halves are reached, or
one overflows and the engine has stopped fatally (R182, R191, R196). -/
theorem ff31_rounds_run {p : Params} (hp : p.wellFormed = true) (j : Nat) (s : State) (tx : List PortTxn)
    (hph : s.ph = .round) (halg : s.ctx.alg = .ff31) (hc : ContextLegal p s.ctx) (ho : OperandsChecked p s)
    (hch : s.chain = zeroBytes 16) (hs : FF31Shaped s) (hj : s.rnd + (j + 1) = 8) :
    (ff31Halves p s.aespKey s.ctx.radix s.work.n s.work.t s.work.dir (List.range' s.rnd (j + 1))
        (s.work.a, s.work.b) = none ∧
      runEngine p (j + 1) ⟨s, tx⟩ = ⟨raiseError .lengthExceeded s,
        tx ++ ff31RoundsTxns p s.aespKey s.ctx.radix s.work.n s.work.t s.work.dir (List.range' s.rnd (j + 1))
          (s.work.a, s.work.b)⟩) ∨
    ∃ w r, ff31Halves p s.aespKey s.ctx.radix s.work.n s.work.t s.work.dir (List.range' s.rnd (j + 1))
        (s.work.a, s.work.b) = some (w.a, w.b) ∧
      runEngine p (j + 1) ⟨s, tx⟩ = ⟨((s.withWork w).withRound r).withPhase .finish,
        tx ++ ff31RoundsTxns p s.aespKey s.ctx.radix s.work.n s.work.t s.work.dir (List.range' s.rnd (j + 1))
          (s.work.a, s.work.b)⟩ ∧
      w.dir = s.work.dir ∧ w.n = s.work.n ∧ w.tl = s.work.tl ∧ w.t = s.work.t ∧ w.a.length + w.b.length = w.n := by
  induction j generalizing s tx with
  | zero =>
    have ht7 : s.work.t.length = 7 := by rw [ho.t, effectiveTweakLength_ff31 hc halg ho]
    obtain ⟨h4, h32, -⟩ := operandsChecked_n hp hc ho
    have hpair := ff31RoundPair_eq (p := p) hs
    by_cases hfit : 2 ^ 96 ≤ ff31NextNumeral s
    · left
      rw [if_pos hfit] at hpair
      constructor
      · simp only [List.range'_succ, ff31Halves, hpair]
      · rw [runEngine, engineMove_round (by exact hph)]
        simp only [roundPhase, halg]
        rw [ff31Round_overflow p ⟨s, tx⟩ (by simp only; omega) hs hfit]
        simp only [runEngine, List.range'_succ, ff31RoundsTxns, hpair, List.append_nil]
        simp only [raiseError_eq, State.withWork]
    · right
      rw [if_neg hfit] at hpair
      refine ⟨ff31NextWork p s, s.rnd, ?_, ?_, rfl, rfl, rfl, rfl, ff31NextWork_length hs⟩
      · simp only [Nat.zero_add, List.range'_one, ff31Halves, hpair]
      · simp only [runEngine]
        rw [engineMove_round (by exact hph)]
        simp only [roundPhase, halg]
        rw [ff31Round_eq p ⟨s, tx⟩ hc.radix.1 (by simp only; omega) ht7 hch hs (by simp only; omega),
          advanceRound_last (by simp only [State.withWork_rnd]; omega)]
        simp only [Nat.zero_add, List.range'_one, ff31RoundsTxns, hpair, ff31RoundTxn_eq]
        rfl
  | succ j ih =>
    have ht7 : s.work.t.length = 7 := by rw [ho.t, effectiveTweakLength_ff31 hc halg ho]
    obtain ⟨h4, h32, -⟩ := operandsChecked_n hp hc ho
    have hpair := ff31RoundPair_eq (p := p) hs
    by_cases hfit : 2 ^ 96 ≤ ff31NextNumeral s
    · left
      rw [if_pos hfit] at hpair
      constructor
      · simp only [List.range'_succ, ff31Halves, hpair]
      · rw [runEngine, engineMove_round (by exact hph)]
        simp only [roundPhase, halg]
        rw [ff31Round_overflow p ⟨s, tx⟩ (by simp only; omega) hs hfit,
          runEngine_waits p (j + 1) (.inr (by simp [errorIsFatal]))]
        simp only [List.range'_succ, ff31RoundsTxns, hpair, List.append_nil]
        simp only [raiseError_eq, State.withWork]
    · rw [if_neg hfit] at hpair
      have hmove : engineMove p ⟨s, tx⟩ = ⟨(s.withWork (ff31NextWork p s)).withRound (s.rnd + 1),
          tx ++ [ciphTxn p s.aespKey (revb (ff31NextP s))]⟩ := by
        rw [engineMove_round (by exact hph)]
        simp only [roundPhase, halg]
        rw [ff31Round_eq p ⟨s, tx⟩ hc.radix.1 (by simp only; omega) ht7 hch hs (by simp only; omega),
          advanceRound_next (by simp only [State.withWork_rnd]; omega)]
        simp only [State.withWork_rnd]
      have hnext := ih ((s.withWork (ff31NextWork p s)).withRound (s.rnd + 1))
        (tx ++ [ciphTxn p s.aespKey (revb (ff31NextP s))])
        hph halg hc (operandsChecked_congr ho rfl rfl rfl rfl rfl rfl) hch
        (ff31Shaped_next hc.radix.1 hc.radix.2 ht7 hs (by omega)) (by simp only [State.withRound_rnd]; omega)
      simp only [State.withRound_work, State.withWork_work, State.withRound_aespKey, State.withWork_aespKey,
        State.withRound_ctx, State.withWork_ctx, State.withRound_rnd] at hnext
      have hhalves : ff31Halves p s.aespKey s.ctx.radix s.work.n s.work.t s.work.dir (List.range' s.rnd (j + 1 + 1))
          (s.work.a, s.work.b) = ff31Halves p s.aespKey s.ctx.radix s.work.n s.work.t s.work.dir
            (List.range' (s.rnd + 1) (j + 1)) ((ff31NextWork p s).a, (ff31NextWork p s).b) := by
        rw [List.range'_succ]
        simp only [ff31Halves, hpair]
      have htxns : ff31RoundsTxns p s.aespKey s.ctx.radix s.work.n s.work.t s.work.dir (List.range' s.rnd (j + 1 + 1))
          (s.work.a, s.work.b) = ciphTxn p s.aespKey (revb (ff31NextP s)) ::
            ff31RoundsTxns p s.aespKey s.ctx.radix s.work.n s.work.t s.work.dir
              (List.range' (s.rnd + 1) (j + 1)) ((ff31NextWork p s).a, (ff31NextWork p s).b) := by
        rw [List.range'_succ]
        simp only [ff31RoundsTxns, hpair, ff31RoundTxn_eq]
      rw [hhalves, htxns, runEngine, hmove]
      rcases hnext with ⟨hnone, hrun⟩ | ⟨w, r, hsome, hrun, h1, h2, h3, h5, h6⟩
      · left
        refine ⟨hnone, ?_⟩
        rw [hrun]
        simp only [raiseError_eq, State.withWork, State.withRound, List.append_assoc, List.singleton_append]
        rfl
      · right
        refine ⟨w, r, hsome, ?_, h1, h2, h3, h5, h6⟩
        rw [hrun]
        simp only [List.append_assoc, List.singleton_append]
        rfl

end Sys2Proof.Machine
end

