-- ==== Sys2Proof/Laws/Closed.lean ====
section
/-! SUPPORT. The closed forms of Machine/Atomic.lean: the lengths of their results, and one round undone by the other
direction's. -/

namespace Sys2Proof.Machine

/-! ### Lengths -/

theorem roundWidth_sum_left (r u v : Nat) : roundWidth r u v + roundWidth (r + 1) u v = u + v := by
  have := roundWidth_sum r u v; omega

/-- The rounds keep the two lengths adding up to n (R26, R162). -/
theorem ff1Halves_length {p : Params} {key : Option Bytes} {radix n : Nat} {t : Bytes} {d : Direction}
    (k i : Nat) {ab : Bytes × Bytes}
    (hi : i + k = 10)
    (ha : k ≠ 0 → ab.1.length = roundWidth (roundIndex 10 d i) (n/2) (n - n/2)) (hb : k ≠ 0 →
       ab.2.length = roundWidth (roundIndex 10 d i + 1) (n/2) (n - n/2))
    (hs : ab.1.length + ab.2.length = n) :
    (ff1Halves p key radix n t d (List.range' i k) ab).1.length + (ff1Halves p key radix n t d
       (List.range' i k) ab).2.length = n := by
  induction k generalizing i ab with
  | zero => exact hs
  | succ k ih =>
    rw [List.range'_succ, ff1Halves]
    have ha := ha (by omega)
    have hb := hb (by omega)
    have hl : (ff1RoundPair p key radix n t d i ab).2.length = roundWidth (roundIndex 10 d i) (n/2) (n - n/2) :=
        by simp [ff1RoundPair]
    have hl1 : (ff1RoundPair p key radix n t d i ab).1 = ab.2 := rfl
    apply ih (i+1) (by omega)
    · intro hk
      rw [hl1, hb, ← roundWidth_next d (n/2) (n-n/2) (show i + 1 < 10 by omega)]
    · intro hk
      rw [hl, roundWidth_next_succ d (n/2) (n-n/2) (show i + 1 < 10 by omega)]
    · rw [hl, hl1]; omega

theorem ff1_halves_digits {p : Params} {key : Option Bytes} {radix n : Nat} {t : Bytes} {d : Direction}
    (hr : 2 ≤ radix) (hr' : radix ≤ 36) (l : List Nat) {ab : Bytes × Bytes}
    (ha : allDigits radix ab.1 = true) (hb : allDigits radix ab.2 = true) :
    allDigits radix (ff1Halves p key radix n t d l ab).1 = true ∧ allDigits radix
       (ff1Halves p key radix n t d l ab).2 = true := by
  induction l generalizing ab with
  | nil => exact ⟨ha, hb⟩
  | cons i l ih => exact ih hb (allDigits_render hr hr' _ _)

/-- The parts of a split have the widths of the round with index `roundIndex rounds d 0` (R150, R176). -/
theorem splitHalves_widths (d : Direction) {rounds cut other n : Nat} {x : Bytes} (hrounds : rounds % 2 = 0)
    (hpos : 0 < rounds) (hcut : cut + other = n) (hn : n ≤ x.length) :
    (splitHalves d x cut n).1.length = roundWidth (roundIndex rounds d 0) cut other ∧
       (splitHalves d x cut n).2.length = roundWidth (roundIndex rounds d 0 + 1) cut other := by
  cases d with
  | encrypt =>
    obtain ⟨h1, h2⟩ := splitHalves_encrypt_length (cut := cut) (n := n) (x := x) (by omega) hn
    rw [h1, h2]
    simp only [roundIndex, roundWidth]; simp; omega
  | decrypt =>
    obtain ⟨h1, h2⟩ := splitHalves_decrypt_length (cut := cut) (n := n) (x := x) (by omega) hn
    rw [h1, h2, roundWidth_odd (by simp only [roundIndex]; omega), roundWidth_even (by simp only [roundIndex]; omega)]
    exact ⟨by omega, rfl⟩

theorem ff1Cipher_length (p : Params) (key : Option Bytes) (radix : Nat) (d : Direction) (t x : Bytes) :
    (ff1Cipher p key radix d t x).length = x.length := by
  unfold ff1Cipher
  simp only [joinHalves_length, Config.roundsFF1, List.range_eq_range']
  obtain ⟨h1, h2⟩ := splitHalves_widths d (rounds := 10) (cut := x.length/2) (other := x.length - x.length/2) (n :=
      x.length) (x := x) rfl (by norm_num) (by omega) le_rfl
  apply ff1Halves_length 10 0 rfl (fun _ => h1) (fun _ => h2)
  rw [h1, h2, roundWidth_sum_left]; omega

theorem ff31Halves_length {p : Params} {key : Option Bytes} {radix n : Nat} {t : Bytes} {d : Direction}
    (k i : Nat) {ab res : Bytes × Bytes}
    (hi : i + k = 8)
    (ha : k ≠ 0 → ab.1.length = roundWidth (roundIndex 8 d i) (n - n/2) (n/2)) (hb : k ≠ 0 →
       ab.2.length = roundWidth (roundIndex 8 d i + 1) (n - n/2) (n/2))
    (hs : ab.1.length + ab.2.length = n) (h : ff31Halves p key radix n t d (List.range' i k) ab = some res) :
    res.1.length + res.2.length = n := by
  induction k generalizing i ab with
  | zero => simp [ff31Halves] at h; subst h; exact hs
  | succ k ih =>
    rw [List.range'_succ, ff31Halves] at h
    split at h
    swap
    · simp at h
    rename_i ab' hp
    have ha := ha (by omega)
    have hb := hb (by omega)
    unfold ff31RoundPair at hp
    simp only at hp
    split at hp
    · simp at hp
    simp only [Option.some.injEq] at hp
    have hl : ab'.2.length = roundWidth (roundIndex 8 d i) (n - n/2) (n/2) := by rw [← hp]; simp
    have hl1 : ab'.1 = ab.2 := by rw [← hp]
    apply ih (i+1) (by omega) _ _ _ h
    · intro hk
      rw [hl1, hb, ← roundWidth_next d _ _ (show i + 1 < 8 by omega)]
    · intro hk
      rw [hl, roundWidth_next_succ d _ _ (show i + 1 < 8 by omega)]
    · rw [hl, hl1]; omega

theorem ff31Cipher_length {p : Params} {key : Option Bytes} {radix : Nat} {d : Direction} {t x res : Bytes}
    (h : ff31Cipher p key radix d t x = some res) : res.length = x.length := by
  unfold ff31Cipher at h
  split at h
  swap
  · simp at h
  rename_i ab hh
  simp only [Option.some.injEq] at h
  subst h
  simp only [joinHalves_length]
  simp only [Config.roundsFF31, List.range_eq_range'] at hh
  obtain ⟨h1, h2⟩ := splitHalves_widths d (rounds := 8) (cut := x.length - x.length/2) (other := x.length/2) (n :=
      x.length) (x := x) rfl (by norm_num) (by omega) le_rfl
  refine ff31Halves_length 8 0 rfl (fun _ => h1) (fun _ => h2) ?_ hh
  rw [h1, h2, roundWidth_sum_left]; omega

/-! ### Lower case, and the other direction -/

/-- The other direction. -/
def opposite : Direction → Direction
  | .encrypt => .decrypt
  | .decrypt => .encrypt

theorem digit_lowerChar (ch : Byte) (radix : Nat) : digit (lowerChar ch) radix = digit ch radix := by
  have hv : digitValue (lowerChar ch) = digitValue ch := by
    have hlt := ch.isLt
    unfold lowerChar
    split
    · rename_i h
      have ht : (ch + 0x20).toNat = ch.toNat + 0x20 := by
        rw [BitVec.toNat_add]; simp; omega
      unfold digitValue
      rw [ht]
      rw [if_neg (by omega), if_pos (by omega), if_neg (by omega), if_neg (by omega), if_pos (by omega)]
      congr 1
    · rfl
  unfold digit; rw [hv]

theorem accumulate_lower (radix acc : Nat) (x : Bytes) : accumulate radix acc (lower x) = accumulate radix acc x := by
  induction x generalizing acc with
  | nil => rfl
  | cons c x ih =>
    have hstep : accumulate radix acc (lower (c :: x)) =
        match digit (lowerChar c) radix with
        | some d => accumulate radix (acc * radix + d) (lower x)
        | none => none := rfl
    rw [hstep]
    rw [digit_lowerChar]
    simp only [ih]
    rfl

/-- The numeral value reads upper case like lower case (R71, R101). -/
theorem numRadix_lower (radix : Nat) (x : Bytes) : numRadix radix (lower x) = numRadix radix x := by
  unfold numRadix
  cases x with
  | nil => rfl
  | cons c x =>
    have h1 : decodeNumeral (lower (c :: x)) radix = accumulate radix 0 (lower (c :: x)) := rfl
    rw [h1, accumulate_lower]; rfl

theorem numRadix_congr {radix : Nat} {x y : Bytes} (h : lower x = lower y) : numRadix radix x = numRadix radix y := by
  rw [← numRadix_lower radix x, h, numRadix_lower]

/-- The residue of one direction is undone by the other (R161, R188). -/
theorem combine_opposite (d : Direction) {a k : Nat} (y : Nat) (h : a < k) : combine (opposite d)
    (combine d a y k) y k = a := by
  cases d
  · exact combine_decrypt_encrypt y h
  · exact combine_encrypt_decrypt y h

/-- Step i of one direction has the round index of step `rounds - 1 - i` of the other (R155, R178). -/
theorem roundIndex_opposite (rounds : Nat) (d : Direction) {i : Nat} (h : i < rounds) : roundIndex rounds (opposite d)
    (rounds - 1 - i) = roundIndex rounds d i := by
  cases d <;> simp only [opposite, roundIndex]; omega

theorem lower_render {radix : Nat} (hr : 2 ≤ radix) (hr' : radix ≤ 36) (v w : Nat) : lower
    (render v radix w) = render v radix w := by
  unfold lower render
  rw [List.map_map]
  apply List.map_congr_left
  intro k _
  simp only [Function.comp]
  have hd : v / radix ^ (w - 1 - k) % radix < 36 := lt_of_lt_of_le (Nat.mod_lt _ (by omega)) hr'
  exact (charOf_of_digitValue (digitValue_charOf hd)).symm

theorem lower_lower (x : Bytes) : lower (lower x) = lower x := by
  unfold lower
  rw [List.map_map]
  apply List.map_congr_left
  intro ch _
  simp only [Function.comp]
  unfold lowerChar
  have hlt := ch.isLt
  split
  · have ht : (ch + 0x20).toNat = ch.toNat + 0x20 := by
        rw [BitVec.toNat_add]; simp; omega
    rw [ht, if_neg (by omega)]
  · rfl

/-! ### One round undone -/

theorem ff1Y_congr {p : Params} {key : Option Bytes} {radix n : Nat} {t : Bytes} {r : Nat} {x y : Bytes}
    (h : lower x = lower y) : ff1Y p key radix n t r x = ff1Y p key radix n t r y := by
  simp only [ff1Y, ff1Input, ff1Q, numRadix_congr h]

/-- One FF1 round of the other direction undoes a round, up to the case of letters (R165). -/
theorem ff1RoundPair_undone {p : Params} {key : Option Bytes} {radix n : Nat} {t : Bytes} {d : Direction}
    (hr : 2 ≤ radix) (hr' : radix ≤ 36) (hn : 2 ≤ n)
    {i : Nat} (hi : i < 10) {ab : Bytes × Bytes} (hl : ab.1.length = roundWidth (roundIndex 10 d i) (n/2) (n-n/2))
       (hd : allDigits radix ab.1 = true)
    {xy : Bytes × Bytes} (hx : lower xy.1 = lower (ff1RoundPair p key radix n t d i ab).2)
       (hy : lower xy.2 = lower ab.2) :
    ff1RoundPair p key radix n t (opposite d) (9 - i) xy = (xy.2, lower ab.1) := by
  have hidx : roundIndex 10 (opposite d) (9 - i) = roundIndex 10 d i := roundIndex_opposite 10 d hi
  have hm : roundWidth (roundIndex 10 d i) (n/2) (n-n/2) ≠ 0 := roundWidth_ne_zero _ (by omega) (by omega)
  have hlt : numRadix radix ab.1 < radix ^ ab.1.length := numRadix_lt (by omega) hd
  have hk : 0 < radix ^ ab.1.length := Nat.pow_pos (by omega)
  have hnum : numRadix radix xy.1 = combine d (numRadix radix ab.1) (ff1Y p key radix n t (roundIndex 10 d i) ab.2)
      (radix ^ ab.1.length) := by
    rw [numRadix_congr hx]
    simp only [ff1RoundPair, Config.roundsFF1, ← hl]
    exact numRadix_render hr hr' (by omega) (combine_lt _ _ _ hk)
  show (xy.2, render (combine (opposite d) (numRadix radix xy.1) (ff1Y p key radix n t (roundIndex 10 (opposite d)
      (9-i)) xy.2) (radix ^ (roundWidth (roundIndex 10 (opposite d) (9-i)) (n/2) (n-n/2)))) radix (roundWidth
      (roundIndex 10 (opposite d) (9-i)) (n/2) (n-n/2))) = _
  rw [hidx, hnum, ff1Y_congr hy, ← hl, combine_opposite d _ hlt, render_numRadix (by omega) hd]

/-- When an FF3-1 round completes, and with what (R182, R191). -/
theorem ff31RoundPair_eq_some {p : Params} {key : Option Bytes} {radix n : Nat} {t : Bytes} {d : Direction} {i : Nat}
    {ab ab' : Bytes × Bytes} :
    ff31RoundPair p key radix n t d i ab = some ab' ↔ numRadix radix (revs ab.2) < 2^96 ∧
       ab' = (ab.2, revs (render (combine d (numRadix radix (revs ab.1)) (ff31Y p key t (roundIndex 8 d i)
       (numRadix radix (revs ab.2))) (radix ^ (roundWidth (roundIndex 8 d i) (n - n / 2) (n / 2)))) radix (roundWidth
       (roundIndex 8 d i) (n - n / 2) (n / 2)))) := by
  unfold ff31RoundPair
  simp only [Config.roundsFF31]
  split
  · simp; omega
  · simp only [Option.some.injEq]
    constructor
    · intro h; exact ⟨by omega, h.symm⟩
    · intro h; exact h.2.symm

theorem lower_revs' {x y : Bytes} (h : lower x = lower y) : lower (revs x) = lower (revs y) :=
    by rw [lower_revs, lower_revs, h]

/-- One FF3-1 round of the other direction undoes a completed round, up to the case of letters (R192). -/
theorem ff31RoundPair_undone {p : Params} {key : Option Bytes} {radix n : Nat} {t : Bytes} {d : Direction}
    (hr : 2 ≤ radix) (hr' : radix ≤ 36) (hn : 2 ≤ n)
    {i : Nat} (hi : i < 8) {ab ab' : Bytes × Bytes} (hl : ab.1.length = roundWidth (roundIndex 8 d i) (n-n/2) (n/2))
       (hd : allDigits radix ab.1 = true)
    (hp : ff31RoundPair p key radix n t d i ab = some ab')
    {xy : Bytes × Bytes} (hx : lower xy.1 = lower ab'.2) (hy : lower xy.2 = lower ab.2) :
    ff31RoundPair p key radix n t (opposite d) (7 - i) xy = some (xy.2, lower ab.1) := by
  have hidx : roundIndex 8 (opposite d) (7 - i) = roundIndex 8 d i := roundIndex_opposite 8 d hi
  have hm : roundWidth (roundIndex 8 d i) (n-n/2) (n/2) ≠ 0 := roundWidth_ne_zero _ (by omega) (by omega)
  have hlt : numRadix radix (revs ab.1) < radix ^ ab.1.length := by
    have := numRadix_lt (x := revs ab.1) (by rw [revs_length]; omega) (allDigits_revs hd); simpa using this
  have hk : 0 < radix ^ ab.1.length := Nat.pow_pos (by omega)
  obtain ⟨hfit, rfl⟩ := ff31RoundPair_eq_some.mp hp
  have hy' := numRadix_congr (radix := radix) (lower_revs' hy)
  rw [← hl] at hx
  have hnum : numRadix radix (revs xy.1) = combine d (numRadix radix (revs ab.1)) (ff31Y p key t (roundIndex 8 d i)
      (numRadix radix (revs ab.2))) (radix ^ ab.1.length) := by
    rw [numRadix_congr (lower_revs' hx)]
    simp only [revs_revs]
    exact numRadix_render hr hr' (by omega) (combine_lt _ _ _ hk)
  rw [ff31RoundPair_eq_some]
  refine ⟨by rw [hy']; exact hfit, ?_⟩
  rw [hidx, hnum, hy', ← hl, combine_opposite d _ hlt]
  have h2 := render_numRadix (radix := radix) (x := revs ab.1) (by rw [revs_length]; omega) (allDigits_revs hd)
  rw [revs_length] at h2
  rw [h2, lower_revs, revs_revs]

end Sys2Proof.Machine
end

