-- ==== Sys2Proof/Laws/Commands.lean ====
section
/-! SUPPORT. A cipher command from SETUP to its end, and how a command's operands look from the host's side. -/

namespace Sys2Proof.Machine

/-- Phase FINISH of a cipher command (R163, R190). -/
theorem finishPhase_cipher {p : Params} {m : Move} (h : ∃ i, decode m.state.lat.cmd = .ok i ∧ isCipher i = true) :
    finishPhase p m = commitResult m := by
  obtain ⟨i, hd, hi⟩ := h
  unfold finishPhase
  rw [hd]
  cases i <;> first | rfl | simp [isCipher] at hi

/-- The end of a cipher command: whatever the working registers were, only the result, `OUT` and `OUTLEN` remain. -/
theorem commitResult_eq {s : State} {tx : List PortTxn} {w w' : Work} {r r' : Nat} {ph : Phase} :
    commitResult ⟨((((((s.withWork w').withRound r').withPhase ph).withWork w).withRound r).withPhase .finish), tx⟩ =
      ⟨completeOk (storeResult (joinHalves w.dir w.a w.b) w.n s), tx⟩ := by
  simp only [commitResult, Move.update, completeOk_eq, storeResult, State.withWork, State.withRound, State.withPhase,
    State.withBuf, State.withReg]

/-- What a cipher command reads of X (R147). -/
def latchedText (s : State) : Bytes := slice s.lat.txt 0 s.work.n

theorem latchedText_length {p : Params} {s : State} (hp : p.wellFormed = true) (hc : ContextLegal p s.ctx)
    (ho : OperandsChecked p s) : (latchedText s).length = s.work.n := by
  obtain ⟨-, -, h⟩ := operandsChecked_n hp hc ho
  rw [latchedText, slice_length]
  omega

theorem ff1SetupWork_dir (s : State) : (ff1SetupWork s).dir = s.work.dir := rfl
theorem ff1SetupWork_n (s : State) : (ff1SetupWork s).n = s.work.n := rfl
theorem ff1SetupWork_t (s : State) : (ff1SetupWork s).t = s.work.t := rfl
theorem ff31SetupWork_dir (s : State) : (ff31SetupWork s).dir = s.work.dir := rfl
theorem ff31SetupWork_n (s : State) : (ff31SetupWork s).n = s.work.n := rfl
theorem ff31SetupWork_t (s : State) : (ff31SetupWork s).t = s.work.t := rfl

theorem runEngine_ff1 (p : Params) (m : Move) :
    runEngine p 12 m = engineMove p (runEngine p (9 + 1) (engineMove p m)) := rfl

theorem runEngine_ff31 (p : Params) (m : Move) :
    runEngine p 12 m = runEngine p 2 (engineMove p (runEngine p (7 + 1) (engineMove p m))) := rfl

/-- An FF1 command from SETUP on: it completes, with the result and the transactions of the closed form (R164, R170). -/
theorem ff1_command_run {p : Params} (hp : p.wellFormed = true) {s : State} (hph : s.ph = .setup)
    (halg : s.ctx.alg = .ff1) (hc : ContextLegal p s.ctx) (ho : OperandsChecked p s) (hch : s.chain = zeroBytes 16) :
    runEngine p 12 ⟨s, []⟩ =
      ⟨completeOk (storeResult (ff1Cipher p s.aespKey s.ctx.radix s.work.dir s.work.t (latchedText s)) s.work.n s),
        ff1Txns p s.aespKey s.ctx.radix s.work.dir s.work.t (latchedText s)⟩ := by
  obtain ⟨h4, h32, hlen⟩ := operandsChecked_n hp hc ho
  have hcap := wellFormed_bounds hp
  have htl := ho.t_fits
  have hX := latchedText_length hp hc ho
  have hmove : engineMove p ⟨s, []⟩ = ⟨((s.withWork (ff1SetupWork s)).withRound 0).withPhase .round, []⟩ := by
    rw [engineMove_setup (by exact hph)]
    simp only [setupPhase, halg]
    rw [ff1Setup_eq _ hc.radix.2 h32 (by simp only; omega)]
  have hsplit : splitHalves s.work.dir (latchedText s) (s.work.n / 2) s.work.n =
      ((ff1SetupWork s).a, (ff1SetupWork s).b) := by
    rw [latchedText, slice_zero, splitHalves_take _ _ (by omega)]
    rfl
  have hrounds := ff1_rounds_run hp 9
    (((s.withWork (ff1SetupWork s)).withRound 0).withPhase .round) [] rfl halg hc
    (operandsChecked_congr ho rfl rfl rfl rfl rfl rfl) hch (ff1Shaped_setup hp hc ho) rfl
  simp only [State.withPhase_work, State.withRound_work, State.withWork_work, State.withPhase_aespKey,
    State.withRound_aespKey, State.withWork_aespKey, State.withPhase_ctx, State.withRound_ctx, State.withWork_ctx,
    State.withPhase_rnd, State.withRound_rnd, List.nil_append, ff1SetupWork_dir, ff1SetupWork_n,
        ff1SetupWork_t] at hrounds
  obtain ⟨w, r, hrun, hab, hdir, hn, -⟩ := hrounds
  rw [runEngine_ff1, hmove, hrun, engineMove_finish rfl, finishPhase_cipher ho.cipher, commitResult_eq]
  unfold ff1Cipher ff1Txns
  simp only [hX, hsplit, Config.roundsFF1, List.range_eq_range', ← hab, hn, hdir, Nat.reduceAdd]

/-- An FF3-1 command from SETUP on: the closed form's result, or the fatal stop where the closed form has none (R191,
R182), with the transactions of the closed form (R196). -/
theorem ff31_command_run {p : Params} (hp : p.wellFormed = true) {s : State} (hph : s.ph = .setup)
    (halg : s.ctx.alg = .ff31) (hc : ContextLegal p s.ctx) (ho : OperandsChecked p s) (hclean : OperandsOnly s)
    (hch : s.chain = zeroBytes 16) :
    runEngine p 12 ⟨s, []⟩ =
      ⟨match ff31Cipher p s.aespKey s.ctx.radix s.work.dir s.work.t (latchedText s) with
        | some res => completeOk (storeResult res s.work.n s)
        | none => raiseError .lengthExceeded s,
        ff31Txns p s.aespKey s.ctx.radix s.work.dir s.work.t (latchedText s)⟩ := by
  obtain ⟨h4, h32, hlen⟩ := operandsChecked_n hp hc ho
  have hX := latchedText_length hp hc ho
  have hmove : engineMove p ⟨s, []⟩ = ⟨((s.withWork (ff31SetupWork s)).withRound 0).withPhase .round, []⟩ := by
    rw [engineMove_setup (by exact hph)]
    simp only [setupPhase, halg]
    rw [ff31Setup_eq]
  have hsplit : splitHalves s.work.dir (latchedText s) (s.work.n - s.work.n / 2) s.work.n =
      ((ff31SetupWork s).a, (ff31SetupWork s).b) := by
    rw [latchedText, slice_zero, splitHalves_take _ _ (by omega)]
    rfl
  have hrounds := ff31_rounds_run hp 7
    (((s.withWork (ff31SetupWork s)).withRound 0).withPhase .round) [] rfl halg hc
    (operandsChecked_congr ho rfl rfl rfl rfl rfl rfl) hch (ff31Shaped_setup hp hc ho hclean) rfl
  simp only [State.withPhase_work, State.withRound_work, State.withWork_work, State.withPhase_aespKey,
    State.withRound_aespKey, State.withWork_aespKey, State.withPhase_ctx, State.withRound_ctx, State.withWork_ctx,
    State.withPhase_rnd, State.withRound_rnd, List.nil_append, ff31SetupWork_dir, ff31SetupWork_n,
        ff31SetupWork_t] at hrounds
  unfold ff31Cipher ff31Txns
  simp only [hX, hsplit, Config.roundsFF31, List.range_eq_range']
  rw [runEngine_ff31, hmove]
  rcases hrounds with ⟨hnone, hrun⟩ | ⟨w, r, hsome, hrun, hdir, hn, -⟩
  · rw [hrun, show ∀ m, runEngine p 2 (engineMove p m) = runEngine p 3 m from fun _ => rfl,
      runEngine_waits p 3 (.inr (by simp [errorIsFatal]))]
    simp only [Nat.reduceAdd] at hnone ⊢
    simp only [hnone]
    simp only [raiseError_eq, State.withWork, State.withRound, State.withPhase]
  · rw [hrun, engineMove_finish rfl, finishPhase_cipher ho.cipher, commitResult_eq,
      runEngine_waits p 2 (.inl (completeOk_ph _))]
    simp only [Nat.reduceAdd] at hsome ⊢
    simp only [hsome, hdir, hn]

/-! ### A command from the host's side (10_state.md R24) -/

/-- The tweak that an accepted cipher command takes is the host's or the context's (R146). -/
theorem effectiveTweakLength_accepted (p : Params) (s : State) (i : Instr) (hi : isCipher i = true) :
    effectiveTweakLength (latchOperands p (encode i) s.reg s.buf) s.ctx = callTweakLength i s := by
  have hcmd : (latchOperands p (encode i) s.reg s.buf).cmd = encode i := rfl
  have h := fieldTwo_encode i hi
  unfold effectiveTweakLength callTweakLength
  rw [hcmd]
  by_cases ho : cipherOverride i = true
  · rw [if_pos (h.mpr ho), if_pos ho]; rfl
  · rw [if_neg (fun hh => ho (h.mp hh)), if_neg ho]

theorem effectiveTweak_accepted {p : Params} {s : State} {i : Instr} (hi : isCipher i = true)
    (hfit : callTweakLength i s ≤ p.tCap) :
    effectiveTweak (latchOperands p (encode i) s.reg s.buf) s.ctx = callTweak i s := by
  have hcmd : (latchOperands p (encode i) s.reg s.buf).cmd = encode i := rfl
  have h := fieldTwo_encode i hi
  unfold effectiveTweak callTweak
  rw [hcmd]
  by_cases ho : cipherOverride i = true
  · rw [if_pos (h.mpr ho), if_pos ho]
    unfold callTweakLength at hfit
    rw [if_pos ho] at hfit
    exact twk_latched p _ s hfit
  · rw [if_neg (fun hh => ho (h.mp hh)), if_neg ho]

theorem latchedText_accepted {p : Params} {s : State} (w : Word) (h : s.reg.txtlen.toNat ≤ p.nCap) :
    latchedText (takeOperands (accept p w s)) = textInput s := by
  unfold latchedText
  simp only [takeOperands_lat, accept_lat, takeOperands_n]
  rw [txt_latched p w s h, slice_zero]
  apply List.take_of_length_le
  simp [textInput, latchOperands]

/-! ### Whole commands, in the model's own terms -/

theorem raiseError_withWork (e : ErrorName) (s : State) (w : Work) : raiseError e (s.withWork w) = raiseError e s := by
  simp only [raiseError_eq, State.withWork]

theorem raiseError_withWork_takeOperands (e : ErrorName) (s : State) : raiseError e (takeOperands s) = raiseError e s :=
  raiseError_withWork e s _

/-- Ending with a recoverable error leaves the state before acceptance but for the status (R204). -/
theorem raiseError_accept {e : ErrorName} (he : errorIsFatal e = false) (p : Params) (w : Word) (s : State) :
    raiseError e (accept p w s) = endsWithError e s := by
  simp only [raiseError_eq, he, accept_eq, endsWithError, settled, regsFailed, regsAccepted]
  rfl

/-- Stopping fatally leaves the state before acceptance but for the status and the phase (R205). -/
theorem raiseError_accept_fatal {e : ErrorName} (he : errorIsFatal e = true) (p : Params) (w : Word) (s : State) :
    raiseError e (accept p w s) = endsFatal e s := by
  simp only [raiseError_eq, he, accept_eq, endsFatal, endsWithError, settled, regsFailed, regsAccepted,
    State.withPhase]
  rfl

/-- A command in IDLE: acceptance, phase CHECK, and at most twelve moves more (R9). -/
theorem runCommand_idle (p : Params) (w : Word) (check : State → State) {s : State} (h : s.ph = .idle) :
    runCommand p w check s = runEngine p 12 (Move.start (check (accept p w s))) := by
  unfold runCommand; rw [h]

/-- A command in any other phase is ignored (R218). -/
theorem runCommand_ignored (p : Params) (w : Word) (check : State → State) {s : State} (h : s.ph ≠ .idle) :
    runCommand p w check s = Move.start s := by
  unfold runCommand
  cases hp : s.ph <;> simp_all

/-- How a context command ends, from what its checks answer and the context it would store. -/
def contextOutcome (err : Option ErrorName) (c : Context) (s : State) : Move :=
  match err with
  | some e => ⟨endsWithError e s, []⟩
  | none => ⟨endsWithContext c s, [.keyLoad c.key]⟩

/-- A context command whose checks answer `err` and whose commit stores `c`. -/
theorem context_command_run {p : Params} {s : State} {i : Instr} {c : Context} {err : Option ErrorName}
    (hph : s.ph = .idle) (hrec : ∀ e, err = some e → errorIsFatal e = false)
    (hfin : err = none → ∀ m : Move, m.state = ((accept p (encode i) s).withPhase .finish) →
      finishPhase p m = commitContext c m) :
    runCommand p (encode i) (settleCheck err) s = contextOutcome err c s := by
  rw [runCommand_idle p _ _ hph]
  cases err with
  | some e =>
    have he := hrec e rfl
    simp only [settleCheck]
    rw [raiseError_accept he, runEngine_waits p 12 (.inl rfl)]
    rfl
  | none =>
    simp only [settleCheck]
    rw [show (12 : Nat) = 11 + 1 from rfl, runEngine, engineMove_finish rfl, hfin rfl _ rfl, commitContext_eq,
      runEngine_waits p 11 (.inl rfl)]
    simp only [Move.start_state, Move.start_txns, List.nil_append, completeOk_eq, accept_eq, State.withPhase,
      State.withCtx, State.withAespKey, regsCompleted, regsAccepted]
    rfl

theorem moveCtxFF1_idle {p : Params} {s : State} (hph : s.ph = .idle) :
    moveCtxFF1 p s = contextOutcome (ctxFF1Error p (latchOperands p (encode .ctxFF1) s.reg s.buf))
      (ctxFF1Context p (latchOperands p (encode .ctxFF1) s.reg s.buf)) s := by
  have h := context_command_run (p := p) (i := .ctxFF1)
    (c := ctxFF1Context p (latchOperands p (encode .ctxFF1) s.reg s.buf))
    (err := ctxFF1Error p (latchOperands p (encode .ctxFF1) s.reg s.buf)) hph
    (fun e he => ctxFF1Error_recoverable he)
    (fun _ m hm => by
      unfold finishPhase
      rw [hm]
      simp only [State.withPhase_lat, accept_lat, latchOperands]
      rw [show decode (encode .ctxFF1) = .ok .ctxFF1 from rfl]
      simp only [finishCommand, commitCtxFF1, hm]
      rfl)
  rw [← h, runCommand_idle p _ _ hph]
  unfold moveCtxFF1
  rw [runCommand_idle p _ _ hph]
  rfl

theorem moveCtxFF31_idle {p : Params} {s : State} (hph : s.ph = .idle) :
    moveCtxFF31 p s = contextOutcome (ctxFF31Error p (latchOperands p (encode .ctxFF31) s.reg s.buf))
      (ctxFF31Context p (latchOperands p (encode .ctxFF31) s.reg s.buf)) s := by
  have h := context_command_run (p := p) (i := .ctxFF31)
    (c := ctxFF31Context p (latchOperands p (encode .ctxFF31) s.reg s.buf))
    (err := ctxFF31Error p (latchOperands p (encode .ctxFF31) s.reg s.buf)) hph
    (fun e he => ctxFF31Error_recoverable he)
    (fun _ m hm => by
      unfold finishPhase
      rw [hm]
      simp only [State.withPhase_lat, accept_lat, latchOperands]
      rw [show decode (encode .ctxFF31) = .ok .ctxFF31 from rfl]
      simp only [finishCommand, commitCtxFF31, hm]
      rfl)
  rw [← h, runCommand_idle p _ _ hph]
  unfold moveCtxFF31
  rw [runCommand_idle p _ _ hph]
  rfl

/-- The four cipher commands are one front end over their own words (R145). -/
theorem moveCommand_cipher (p : Params) {i : Instr} (hi : isCipher i = true) (s : State) :
    moveCommand p i s = runCommand p (encode i) (cipherFrontEnd p) s := by
  cases i <;> first | rfl | simp [isCipher] at hi

/-- A cipher command in IDLE that ends in phase CHECK (R145, R202). -/
theorem cipher_rejected {p : Params} {i : Instr} {s : State} (hi : isCipher i = true) (hph : s.ph = .idle) :
    (s.ctx.valid = false → moveCommand p i s = ⟨endsWithError .noContext s, []⟩) ∧
    (s.ctx.valid = true → ∀ e, operandError p (takeOperands (accept p (encode i) s)) = some e →
      moveCommand p i s = ⟨endsWithError e s, []⟩) := by
  rw [moveCommand_cipher p hi, runCommand_idle p _ _ hph]
  rcases cipherFrontEnd_cases p (accept p (encode i) s) with ⟨hv, h⟩ | ⟨hv, e, he, h⟩ | ⟨hv, hn, h⟩
  · rw [h, raiseError_accept rfl, runEngine_waits p 12 (.inl rfl)]
    simp only [accept_ctx] at hv
    exact ⟨fun _ => rfl, fun h' => absurd (hv.symm.trans h') (by decide)⟩
  · rw [h, raiseError_withWork_takeOperands, raiseError_accept (operandError_recoverable he),
      runEngine_waits p 12 (.inl rfl)]
    simp only [accept_ctx] at hv
    refine ⟨fun h' => absurd (hv.symm.trans h') (by decide), fun _ e' he' => ?_⟩
    rw [he] at he'
    cases he'
    rfl
  · simp only [accept_ctx] at hv
    refine ⟨fun h' => absurd (hv.symm.trans h') (by decide), fun _ e' he' => ?_⟩
    rw [hn] at he'
    cases he'

/-! ### A legal cipher command (R145 to R149) -/

/-- The checks of an accepted cipher command, in the host's terms. -/
theorem operandError_accepted {p : Params} {i : Instr} {s : State} (hi : isCipher i = true)
    (hc : ContextLegal p s.ctx) :
    (¬textLengthLegal s → operandError p (takeOperands (accept p (encode i) s)) = some .invalidTextLength) ∧
    (textLengthLegal s → ¬tweakLengthLegal p i s →
      operandError p (takeOperands (accept p (encode i) s)) = some .invalidTweakLength) ∧
    (textLengthLegal s → tweakLengthLegal p i s → ¬numeralsLegal s →
      operandError p (takeOperands (accept p (encode i) s)) = some .invalidNumeral) ∧
    (textLengthLegal s → tweakLengthLegal p i s → numeralsLegal s →
      operandError p (takeOperands (accept p (encode i) s)) = none) := by
  have htext : textLengthError (takeOperands (accept p (encode i) s)).ctx
      (takeOperands (accept p (encode i) s)).work.n = none ↔ textLengthLegal s := by
    rw [textLengthError_eq_none]; exact Iff.rfl
  have htweak : tweakLengthError p (takeOperands (accept p (encode i) s)).ctx
      (takeOperands (accept p (encode i) s)).work.tl = none ↔ tweakLengthLegal p i s := by
    rw [tweakLengthError_eq_none, takeOperands_tl, accept_lat, accept_ctx, effectiveTweakLength_accepted p s i hi]
    exact Iff.rfl
  have hnum : textLengthLegal s → (allDigits (takeOperands (accept p (encode i) s)).ctx.radix
      (slice (takeOperands (accept p (encode i) s)).lat.txt 0 (takeOperands (accept p (encode i) s)).work.n) = true ↔
        numeralsLegal s) := by
    intro h
    have hle : s.reg.txtlen.toNat ≤ p.nCap := le_trans h.2 (textMax_le_nCap hc)
    rw [numeralsLegal_iff, ← latchedText_accepted (p := p) (encode i) hle]
    exact Iff.rfl
  rcases operandError_cases p (takeOperands (accept p (encode i) s)) with ⟨h1, h⟩ | ⟨h1, h2, h⟩ | ⟨h1, h2, h3, h⟩ |
    ⟨h1, h2, h3, h⟩
  · have hno : ¬textLengthLegal s := fun hl => by rw [htext.mpr hl] at h1; cases h1
    exact ⟨fun _ => h, fun hl => absurd hl hno, fun hl => absurd hl hno, fun hl => absurd hl hno⟩
  · have hl := htext.mp h1
    have hno : ¬tweakLengthLegal p i s := fun ht => by rw [htweak.mpr ht] at h2; cases h2
    exact ⟨fun hn => absurd hl hn, fun _ _ => h, fun _ ht => absurd ht hno, fun _ ht => absurd ht hno⟩
  · have hl := htext.mp h1
    have ht := htweak.mp h2
    have hno : ¬numeralsLegal s := fun hn => by rw [(hnum hl).mpr hn] at h3; cases h3
    exact ⟨fun hn => absurd hl hn, fun _ hn => absurd ht hn, fun _ _ _ => h, fun _ _ hn => absurd hn hno⟩
  · have hl := htext.mp h1
    have ht := htweak.mp h2
    have hn := (hnum hl).mp h3
    exact ⟨fun h' => absurd hl h', fun _ h' => absurd ht h', fun _ _ h' => absurd hn h', fun _ _ _ => h⟩

/-- The state in SETUP of an accepted cipher command. -/
def cipherSetup (p : Params) (i : Instr) (s : State) : State :=
  (takeOperands (accept p (encode i) s)).withPhase .setup

/-- A legal cipher command passes its checks and runs on from SETUP with its operands taken. -/
theorem cipher_passes {p : Params} {i : Instr} {s : State} (hinv : Inv p s) (hph : s.ph = .idle)
    (hcall : CallLegal p i s) :
    moveCommand p i s = runEngine p 12 ⟨cipherSetup p i s, []⟩ ∧ ContextLegal p s.ctx ∧
      OperandsChecked p (cipherSetup p i s) ∧ OperandsOnly (cipherSetup p i s) ∧ s.chain = zeroBytes 16 ∧
      s.aespKey = some s.ctx.key := by
  have hctx := hinv.context
  unfold ContextConsistent at hctx
  rw [if_pos hcall.valid] at hctx
  obtain ⟨hc, hk⟩ := hctx
  have hnone := (operandError_accepted hcall.cipher hc).2.2.2 hcall.text hcall.tweak hcall.numerals
  obtain ⟨-, hwork, hrnd⟩ := hinv.quiet.zeroed (by simp [State.busy, Phase.busy, hph])
  refine ⟨?_, hc, ?_, ?_, hinv.quiet.chain, hk⟩
  · rw [moveCommand_cipher p hcall.cipher, runCommand_idle p _ _ hph]
    rcases cipherFrontEnd_cases p (accept p (encode i) s) with ⟨hv, h⟩ | ⟨hv, e, he, h⟩ | ⟨hv, hn, h⟩
    · rw [accept_ctx, hcall.valid] at hv; cases hv
    · rw [hnone] at he; cases he
    · rw [h]; rfl
  · refine operandsChecked_of_front_end (latchOperands_sized p _ _ _) hc hcall.valid ⟨i, ?_, hcall.cipher⟩ hnone
    show decode (encode i) = .ok i
    cases i <;> decide
  · refine ⟨?_, hrnd⟩
    simp only [cipherSetup, takeOperands, State.withPhase_work, State.withWork_work, accept_work, hwork]

/-- What a legal cipher command takes is what the host put there (R146, R147). -/
theorem cipherSetup_operands {p : Params} {i : Instr} {s : State} (hinv : Inv p s) (hcall : CallLegal p i s) :
    latchedText (cipherSetup p i s) = textInput s ∧ (cipherSetup p i s).work.t = callTweak i s ∧
      (cipherSetup p i s).work.dir = cipherDirection i ∧ (textInput s).length = s.reg.txtlen.toNat := by
  have hctx := hinv.context
  unfold ContextConsistent at hctx
  rw [if_pos hcall.valid] at hctx
  have hle : s.reg.txtlen.toNat ≤ p.nCap := le_trans hcall.text.2 (textMax_le_nCap hctx.1)
  refine ⟨latchedText_accepted (p := p) (encode i) hle, effectiveTweak_accepted hcall.cipher hcall.tweak.1,
    wordDirection_encode i hcall.cipher, ?_⟩
  simp [textInput]

/-- The end of a legal cipher command with a result, from the host's side (R163, R190). -/
theorem completeOk_cipherSetup {p : Params} {i : Instr} {s : State} {res : Bytes}
    (hl : res.length = s.reg.txtlen.toNat) :
    completeOk (storeResult res (cipherSetup p i s).work.n (cipherSetup p i s)) = endsWithResult res s := by
  have hn : (cipherSetup p i s).work.n = res.length := by rw [hl]; rfl
  rw [hn]
  simp only [completeOk_eq, storeResult, endsWithResult, endsOk, settled, State.withBuf, State.withReg, cipherSetup,
    takeOperands, State.withPhase, State.withWork, accept_eq, regsCompleted, regsAccepted]

/-- The fatal end of a legal cipher command, from the host's side (R205). -/
theorem raiseError_cipherSetup {p : Params} {i : Instr} {s : State} :
    raiseError .lengthExceeded (cipherSetup p i s) = endsFatal .lengthExceeded s := by
  rw [← raiseError_accept_fatal rfl p (encode i) s]
  simp only [raiseError_eq, cipherSetup, takeOperands, State.withPhase, State.withWork]

end Sys2Proof.Machine
end

