-- ==== Sys2Proof/Laws/Decode.lean ====
section
/-! SUPPORT. The decoder accepts a word only if it is the encoder's. -/

namespace Sys2Proof

/-- A word is the sum of its fields (30_encoding.md R61). -/
theorem fields_eq (w : Word) : w.toNat = fieldOp w + 16 * fieldAlg w + 64 *
    (w.toNat / 64 % 4) + 256 * fieldDir w + 512 * fieldTwo w + 1024 * (w.toNat / 1024) := by
  unfold fieldOp fieldAlg fieldDir fieldTwo; omega

/-- The decoder is the encoder's inverse (R62). -/
theorem decode_ok_word {w : Word} {i : Instr} (h : decode w = .ok i) : w = encode i := by
  have hf := fields_eq w
  apply BitVec.eq_of_toNat_eq
  unfold decode at h
  by_cases h0 : fieldRsv w = 0
  · rw [if_neg (by simpa using h0)] at h
    have h0' : w.toNat / 64 % 4 = 0 ∧ w.toNat / 1024 = 0 := by unfold fieldRsv at h0; omega
    by_cases h1 : fieldOp w = 1
    · rw [if_pos h1] at h
      unfold decodeContext at h
      split at h
      · simp at h
      · split at h
        · simp at h; subst h; show w.toNat = 17; omega
        · split at h
          · simp at h; subst h; show w.toNat = 33; omega
          · simp at h
    · rw [if_neg h1] at h
      by_cases h2 : fieldOp w = 2
      · rw [if_pos h2] at h
        unfold decodeCipher at h
        split at h
        · simp at h
        · split at h
          · split at h
            · simp at h; subst h; show w.toNat = 2; omega
            · simp at h; subst h
              show w.toNat = 514
              have : fieldTwo w < 2 := by unfold fieldTwo; omega
              omega
          · have : fieldTwo w < 2 := by unfold fieldTwo; omega
            have : fieldDir w < 2 := by unfold fieldDir; omega
            split at h
            · simp at h; subst h
              show w.toNat = 258
              omega
            · simp at h; subst h
              show w.toNat = 770
              omega
      · rw [if_neg h2] at h; simp at h
  · rw [if_pos (by simpa using h0)] at h; simp at h

end Sys2Proof
end

