-- ==== Sys2Proof/Laws/Frame.lean ====
section
/-! SUPPORT. What the two engines read and write in any state at all: the steps of SETUP and ROUND keep the host
registers, the buffers, the context, the latches, the AES key and the pending events, and they read no host register,
no buffer and no pending event. -/

namespace Sys2Proof.Machine

/-! ### The steps before their error is settled -/

/-- The steps of the FF1 setup. -/
def ff1SetupFlow (m : Move) : Flow Unit :=
  (ff1SplitStep m).andThen fun _ m =>
  (ff1ByteWidthStep m).andThen fun _ m =>
  (ff1RandomBytesStep m).andThen fun _ m =>
  (ff1HeaderStep m).andThen fun _ m =>
  (ff1SkeletonStep m).andThen fun _ m =>
  enterRounds m

/-- The steps of an FF1 round. -/
def ff1RoundFlow (p : Params) (m : Move) : Flow Unit :=
  (ff1IndexStep m).andThen fun _ m =>
  (ff1NumeralStep m).andThen fun _ m =>
  (ff1PrfStep p m).andThen fun _ m =>
  (ff1ExtendStep p m).andThen fun _ m =>
  (ff1RandomStep m).andThen fun _ m =>
  (ff1WidthStep m).andThen fun _ m =>
  (ff1ResidueStep m).andThen fun _ m =>
  ff1SwapStep m

/-- The steps of an FF3-1 round. -/
def ff31RoundFlow (p : Params) (m : Move) : Flow Unit :=
  (ff31TweakBlockStep m).andThen fun _ m =>
  (ff31NumeralStep m).andThen fun _ m =>
  (ff31CiphStep p m).andThen fun _ m =>
  (ff31RandomStep m).andThen fun _ m =>
  (ff31WidthStep m).andThen fun _ m =>
  (ff31ResidueStep m).andThen fun _ m =>
  ff31SwapStep m

/-! ### What a step keeps -/

/-- Everything but the working registers, the phase, the round counter and `CHAIN` is the same. -/
structure OutsideKept (s t : State) : Prop where
  reg : t.reg = s.reg
  buf : t.buf = s.buf
  ctx : t.ctx = s.ctx
  lat : t.lat = s.lat
  aespKey : t.aespKey = s.aespKey
  pending : t.pending = s.pending

theorem OutsideKept.refl (s : State) : OutsideKept s s := ⟨rfl, rfl, rfl, rfl, rfl, rfl⟩

theorem OutsideKept.trans {s t u : State} (h : OutsideKept s t) (h' : OutsideKept t u) : OutsideKept s u :=
  ⟨h'.reg.trans h.reg, h'.buf.trans h.buf, h'.ctx.trans h.ctx, h'.lat.trans h.lat, h'.aespKey.trans h.aespKey,
    h'.pending.trans h.pending⟩

/-- The move that a flow has reached, whether it goes on or has raised. -/
def Flow.move {α : Type} : Flow α → Move
  | .ok _ m => m
  | .raised _ m => m

/-- A sequence keeps what its two parts keep. -/
theorem kept_andThen {α β : Type} {x : Flow α} {y : α → Move → Flow β} {s : State}
    (hx : OutsideKept s x.move.state) (hy : ∀ a m, OutsideKept m.state (y a m).move.state) :
    OutsideKept s (x.andThen y).move.state := by
  cases x with
  | ok a m => exact hx.trans (hy a m)
  | raised e m => exact hx

theorem kept_need {α : Type} (e : ErrorName) (x : Option α) (m : Move) :
    OutsideKept m.state (Flow.need e x m).move.state := by
  cases x <;> exact .refl _

theorem kept_work (f : Work → Work) (m : Move) : OutsideKept m.state (Flow.set (m.updateWork f)).move.state :=
  ⟨rfl, rfl, rfl, rfl, rfl, rfl⟩

theorem kept_withWork (f : State → Work) (m : Move) :
    OutsideKept m.state (Flow.set (m.update fun s => s.withWork (f s))).move.state :=
  ⟨rfl, rfl, rfl, rfl, rfl, rfl⟩

theorem kept_advanceRound (k : Nat) (s : State) : OutsideKept s (advanceRound k s) := by
  unfold advanceRound
  split <;> exact ⟨rfl, rfl, rfl, rfl, rfl, rfl⟩

theorem kept_swap (f : Work → Work) (k : Nat) (m : Move) :
    OutsideKept m.state (Flow.set ((m.updateWork f).update (advanceRound k))).move.state :=
  (kept_work f m).trans (kept_advanceRound k _)

theorem kept_prf (p : Params) (x : Bytes) (m : Move) : OutsideKept m.state (prf p x m).move.state := by
  unfold prf
  split
  · exact .refl _
  · simp only [prfBody, chainBlocks_eq, clearChain, Flow.move, Move.update]
    exact ⟨rfl, rfl, rfl, rfl, rfl, rfl⟩

theorem kept_ff1ExtensionBlock (p : Params) (j : Nat) (m : Move) :
    OutsideKept m.state (ff1ExtensionBlock p j m).move.state :=
  kept_andThen (kept_need ..) fun _ _ => kept_andThen (kept_prf ..) fun _ _ => kept_work _ _

theorem kept_ff1ExtensionBlocks (p : Params) (js : List Nat) (m : Move) :
    OutsideKept m.state (ff1ExtensionBlocks p js m).move.state := by
  induction js generalizing m with
  | nil => exact .refl _
  | cons j js ih => exact kept_andThen (kept_ff1ExtensionBlock p j m) fun _ m => ih m

theorem kept_ff1ExtendStep (p : Params) (m : Move) : OutsideKept m.state (ff1ExtendStep p m).move.state :=
  (kept_work (fun w => { w with s := w.r }) m).trans (kept_ff1ExtensionBlocks p _ _)

/-- The steps of a flow that ends in phase SETUP or ROUND, settled: the state but for its insides, or that state ended
with an error. -/
theorem settle_kept {x : Flow Unit} {s : State} (h : OutsideKept s x.move.state) :
    OutsideKept s x.settle.state ∨ ∃ e t, OutsideKept s t ∧ x.settle.state = raiseError e t := by
  cases x with
  | ok u m => exact .inl h
  | raised e m => exact .inr ⟨e, m.state, h, rfl⟩

theorem kept_ff1SetupFlow (m : Move) : OutsideKept m.state (ff1SetupFlow m).move.state :=
    kept_andThen (kept_withWork _ _) fun _ _ =>
    kept_andThen (kept_withWork _ _) fun _ _ =>
    kept_andThen (kept_work _ _) fun _ _ =>
    kept_andThen (kept_andThen (kept_need ..) fun _ _ => kept_andThen (kept_need ..) fun _ _ =>
      kept_andThen (kept_need ..) fun _ _ => kept_work _ _) fun _ _ =>
    kept_andThen (kept_work _ _) fun _ _ => ⟨rfl, rfl, rfl, rfl, rfl, rfl⟩

theorem kept_ff1Setup (m : Move) :
    OutsideKept m.state (ff1Setup m).state ∨ ∃ e t, OutsideKept m.state t ∧ (ff1Setup m).state = raiseError e t :=
  settle_kept (kept_ff1SetupFlow m)

theorem kept_ff31Setup (m : Move) : OutsideKept m.state (ff31Setup m).state := ⟨rfl, rfl, rfl, rfl, rfl, rfl⟩

theorem kept_ff1RoundFlow (p : Params) (m : Move) : OutsideKept m.state (ff1RoundFlow p m).move.state :=
    kept_andThen (kept_withWork _ _) fun _ _ =>
    kept_andThen (kept_andThen (kept_need ..) fun _ _ => kept_andThen (kept_need ..) fun _ _ => kept_work _ _) fun _ _
        =>
    kept_andThen (kept_andThen (kept_prf ..) fun _ _ => kept_work _ _) fun _ _ =>
    kept_andThen (kept_ff1ExtendStep ..) fun _ _ =>
    kept_andThen (kept_work _ _) fun _ _ =>
    kept_andThen (kept_withWork _ _) fun _ _ =>
    kept_andThen (kept_andThen (kept_need ..) fun _ _ => kept_withWork _ _) fun _ _ =>
    kept_andThen (kept_need ..) fun _ _ => kept_swap _ _ _

theorem kept_ff1Round (p : Params) (m : Move) :
    OutsideKept m.state (ff1Round p m).state ∨ ∃ e t, OutsideKept m.state t ∧ (ff1Round p m).state = raiseError e t :=
  settle_kept (kept_ff1RoundFlow p m)

theorem kept_ff31RoundFlow (p : Params) (m : Move) : OutsideKept m.state (ff31RoundFlow p m).move.state :=
    kept_andThen (kept_withWork _ _) fun _ _ =>
    kept_andThen (kept_andThen (kept_need ..) fun _ _ => kept_andThen (kept_need ..) fun _ _ => kept_work _ _) fun _ _
        =>
    kept_andThen (kept_andThen (kept_prf ..) fun _ _ => kept_work _ _) fun _ _ =>
    kept_andThen (kept_work _ _) fun _ _ =>
    kept_andThen (kept_withWork _ _) fun _ _ =>
    kept_andThen (kept_andThen (kept_need ..) fun _ _ => kept_withWork _ _) fun _ _ =>
    kept_andThen (kept_need ..) fun _ _ => kept_swap _ _ _

theorem kept_ff31Round (p : Params) (m : Move) :
    OutsideKept m.state (ff31Round p m).state ∨ ∃ e t, OutsideKept m.state t ∧ (ff31Round p m).state = raiseError e t :=
  settle_kept (kept_ff31RoundFlow p m)

/-- Phases SETUP and ROUND in any state: the outside is kept, or the command has ended with an error. -/
theorem setupPhase_kept (m : Move) :
    OutsideKept m.state (setupPhase m).state ∨ ∃ e t, OutsideKept m.state t ∧
        (setupPhase m).state = raiseError e t := by
  unfold setupPhase
  split
  · exact .inl (.refl _)
  · exact kept_ff1Setup m
  · exact .inl (kept_ff31Setup m)

theorem roundPhase_kept (p : Params) (m : Move) :
    OutsideKept m.state (roundPhase p m).state ∨
      ∃ e t, OutsideKept m.state t ∧ (roundPhase p m).state = raiseError e t := by
  unfold roundPhase
  split
  · exact .inl (.refl _)
  · exact kept_ff1Round p m
  · exact kept_ff31Round p m

/-- All that phase CHECK can do in any state: end with a recoverable error that changes nothing but the registers of the
command, go to SETUP with the operands taken, or go to FINISH. -/
theorem checkPhase_cases (p : Params) (s : State) :
    (∃ e, errorIsFatal e = false ∧ checkPhase p s = raiseError e s) ∨
      checkPhase p s = (takeOperands s).withPhase .setup ∨ checkPhase p s = s.withPhase .finish := by
  have hcipher : (∃ e, errorIsFatal e = false ∧ cipherFrontEnd p s = raiseError e s) ∨
      cipherFrontEnd p s = (takeOperands s).withPhase .setup := by
    rcases cipherFrontEnd_cases p s with ⟨-, h⟩ | ⟨-, e, he, h⟩ | ⟨-, -, h⟩
    · exact .inl ⟨_, rfl, h⟩
    · refine .inl ⟨e, operandError_recoverable he, ?_⟩
      rw [h]
      simp only [raiseError_eq, takeOperands, State.withWork]
    · exact .inr h
  have hctx : ∀ err, (∀ e, err = some e → errorIsFatal e = false) →
      (∃ e, errorIsFatal e = false ∧ settleCheck err s = raiseError e s) ∨ settleCheck err s = s.withPhase .finish := by
    intro err hrec
    cases err with
    | some e => exact .inl ⟨e, hrec e rfl, rfl⟩
    | none => exact .inr rfl
  unfold checkPhase
  split
  · rename_i i _
    cases i
    · rcases hctx (ctxFF1Error p s.lat) fun e he => ctxFF1Error_recoverable he with h | h
      · exact .inl h
      · exact .inr (.inr h)
    · rcases hctx (ctxFF31Error p s.lat) fun e he => ctxFF31Error_recoverable he with h | h
      · exact .inl h
      · exact .inr (.inr h)
    all_goals
      rcases hcipher with h | h
      · exact .inl h
      · exact .inr (.inl h)
  · exact .inl ⟨_, rfl, rfl⟩

/-- A phase in which the engine does not wait. -/
theorem busy_of {s : State} {ph : Phase} (h : s.ph = ph) (hb : ph.busy = true) : s.busy = true := by
  unfold State.busy; rw [h]; exact hb

/-- All that a move of the engine can do in any state: keep the outside, end the command with an error, or commit in
phase FINISH. -/
theorem engineMove_cases (p : Params) (m : Move) :
    OutsideKept m.state (engineMove p m).state ∨
    (∃ e t, OutsideKept m.state t ∧ (engineMove p m).state = raiseError e t ∧ m.state.busy = true) ∨
    (m.state.ph = .finish ∧ engineMove p m = commitResult m ∧
      ∃ i, decode m.state.lat.cmd = .ok i ∧ isCipher i = true) ∨
    (m.state.ph = .finish ∧ ∃ c, engineMove p m = commitContext c m ∧
      ∃ i, decode m.state.lat.cmd = .ok i ∧ isCipher i = false) := by
  unfold engineMove
  cases hph : m.state.ph <;> simp only
  · exact .inl (.refl _)
  · rcases checkPhase_cases p m.state with ⟨e, he, h'⟩ | h' | h'
    · exact .inr (.inl ⟨e, m.state, .refl _, h', busy_of hph rfl⟩)
    · left; simp only [Move.update_state, h']; exact ⟨rfl, rfl, rfl, rfl, rfl, rfl⟩
    · left; simp only [Move.update_state, h']; exact ⟨rfl, rfl, rfl, rfl, rfl, rfl⟩
  · rcases setupPhase_kept m with h | ⟨e, t, h1, h2⟩
    · exact .inl h
    · exact .inr (.inl ⟨e, t, h1, h2, busy_of hph rfl⟩)
  · rcases roundPhase_kept p m with h | ⟨e, t, h1, h2⟩
    · exact .inl h
    · exact .inr (.inl ⟨e, t, h1, h2, busy_of hph rfl⟩)
  · unfold finishPhase
    cases hd : decode m.state.lat.cmd with
    | error e => exact .inl (.refl _)
    | ok i =>
      cases i
      · exact .inr (.inr (.inr ⟨trivial, _, rfl, .ctxFF1, rfl, rfl⟩))
      · exact .inr (.inr (.inr ⟨trivial, _, rfl, .ctxFF31, rfl, rfl⟩))
      · exact .inr (.inr (.inl ⟨trivial, rfl, .enc, rfl, rfl⟩))
      · exact .inr (.inr (.inl ⟨trivial, rfl, .encT, rfl, rfl⟩))
      · exact .inr (.inr (.inl ⟨trivial, rfl, .dec, rfl, rfl⟩))
      · exact .inr (.inr (.inl ⟨trivial, rfl, .decT, rfl, rfl⟩))
  · exact .inl (.refl _)

/-! ### What a step reads -/

/-- The state with other host registers, other buffers and other pending events. -/
def State.outside (s : State) (r : HostRegs) (b : Buffers) (es : List Event) : State :=
  ((s.withReg r).withBuf b).withPending es

/-- A move with another outside, and with transactions that went before. -/
def Move.outside (m : Move) (r : HostRegs) (b : Buffers) (es : List Event) (tx : List PortTxn) : Move :=
  ⟨m.state.outside r b es, tx ++ m.txns⟩

/-- A flow whose move is changed, whether it goes on or has raised. -/
def Flow.mapMove {α : Type} (f : Move → Move) : Flow α → Flow α
  | .ok a m => .ok a (f m)
  | .raised e m => .raised e (f m)

/-- A step that does not read what `outside` replaces, nor the transactions made so far. -/
def Blind {α : Type} (x : Move → Flow α) : Prop :=
  ∀ (r : HostRegs) (b : Buffers) (es : List Event) (tx : List PortTxn) (m : Move),
    x (m.outside r b es tx) = (x m).mapMove fun m => m.outside r b es tx

theorem blind_andThen {α β : Type} {x : Move → Flow α} {y : α → Move → Flow β} (hx : Blind x) (hy : ∀ a, Blind (y a)) :
    Blind fun m => (x m).andThen y := by
  intro r b es tx m
  simp only
  rw [hx r b es tx m]
  cases x m with
  | ok a m => exact hy a r b es tx m
  | raised e m => rfl

theorem blind_need {α : Type} (e : ErrorName) (x : Move → Option α)
    (hx : ∀ r b es tx m, x (m.outside r b es tx) = x m) : Blind fun m => Flow.need e (x m) m := by
  intro r b es tx m
  simp only [hx]
  cases x m <;> rfl

theorem blind_set {f : Move → Move}
    (hf : ∀ r b es tx m, f (m.outside r b es tx) = (f m).outside r b es tx) :
    Blind fun m => Flow.set (f m) := by
  intro r b es tx m
  simp only [hf]
  rfl

theorem blind_prf (p : Params) (x : Move → Bytes)
    (hx : ∀ r b es tx m, x (m.outside r b es tx) = x m) : Blind fun m => prf p (x m) m := by
  intro r b es tx m
  simp only [hx]
  unfold prf
  split
  · rfl
  · simp only [prfBody, chainBlocks_eq, clearChain, Flow.mapMove, Move.update, Move.outside, List.append_assoc]
    rfl

theorem advanceRound_outside (k : Nat) (s : State) (r : HostRegs) (b : Buffers) (es : List Event) :
    advanceRound k (s.outside r b es) = (advanceRound k s).outside r b es := by
  unfold advanceRound
  have h : (s.outside r b es).rnd = s.rnd := rfl
  rw [h]
  split <;> rfl

theorem blind_ff1ExtensionBlock (p : Params) (j : Nat) : Blind (ff1ExtensionBlock p j) :=
  blind_andThen (blind_need _ _ fun _ _ _ _ _ => rfl) fun _ =>
    blind_andThen (blind_prf p _ fun _ _ _ _ _ => rfl) fun _ => blind_set fun _ _ _ _ _ => rfl

theorem blind_ff1ExtensionBlocks (p : Params) (js : List Nat) : Blind (ff1ExtensionBlocks p js) := by
  induction js with
  | nil => exact fun _ _ _ _ _ => rfl
  | cons j js ih => exact blind_andThen (blind_ff1ExtensionBlock p j) fun _ => ih

theorem blind_ff1ExtendStep (p : Params) : Blind (ff1ExtendStep p) :=
  fun r b es tx m => blind_ff1ExtensionBlocks p ((List.range (ff1ExtensionCount m.state.work.dd)).map (· + 1)) r b es tx
    (m.updateWork fun w => { w with s := w.r })

theorem blind_ff1Setup : Blind ff1SetupFlow :=
  blind_andThen (blind_set fun _ _ _ _ _ => rfl) fun _ =>
  blind_andThen (blind_set fun _ _ _ _ _ => rfl) fun _ =>
  blind_andThen (blind_set fun _ _ _ _ _ => rfl) fun _ =>
  blind_andThen (blind_andThen (blind_need _ _ fun _ _ _ _ _ => rfl) fun _ =>
    blind_andThen (blind_need _ _ fun _ _ _ _ _ => rfl) fun _ =>
    blind_andThen (blind_need _ _ fun _ _ _ _ _ => rfl) fun _ => blind_set fun _ _ _ _ _ => rfl) fun _ =>
  blind_andThen (blind_set fun _ _ _ _ _ => rfl) fun _ =>
  blind_set fun _ _ _ _ _ => rfl

theorem blind_ff1Round (p : Params) : Blind (ff1RoundFlow p) :=
  blind_andThen (blind_set fun _ _ _ _ _ => rfl) fun _ =>
  blind_andThen (blind_andThen (blind_need _ _ fun _ _ _ _ _ => rfl) fun _ =>
    blind_andThen (blind_need _ _ fun _ _ _ _ _ => rfl) fun _ => blind_set fun _ _ _ _ _ => rfl) fun _ =>
  blind_andThen (blind_andThen (blind_prf p _ fun _ _ _ _ _ => rfl) fun _ => blind_set fun _ _ _ _ _ => rfl) fun _ =>
  blind_andThen (blind_ff1ExtendStep p) fun _ =>
  blind_andThen (blind_set fun _ _ _ _ _ => rfl) fun _ =>
  blind_andThen (blind_set fun _ _ _ _ _ => rfl) fun _ =>
  blind_andThen (blind_andThen (blind_need _ _ fun _ _ _ _ _ => rfl) fun _ => blind_set fun _ _ _ _ _ => rfl) fun _ =>
  blind_andThen (blind_need _ _ fun _ _ _ _ _ => rfl) fun _ =>
    blind_set fun r b es tx _ => by
      simp only [Move.update, Move.updateWork, Move.outside, ← advanceRound_outside]
      rfl

theorem blind_ff31Round (p : Params) : Blind (ff31RoundFlow p) :=
  blind_andThen (blind_set fun _ _ _ _ _ => rfl) fun _ =>
  blind_andThen (blind_andThen (blind_need _ _ fun _ _ _ _ _ => rfl) fun _ =>
    blind_andThen (blind_need _ _ fun _ _ _ _ _ => rfl) fun _ => blind_set fun _ _ _ _ _ => rfl) fun _ =>
  blind_andThen (blind_andThen (blind_prf p _ fun _ _ _ _ _ => rfl) fun _ => blind_set fun _ _ _ _ _ => rfl) fun _ =>
  blind_andThen (blind_set fun _ _ _ _ _ => rfl) fun _ =>
  blind_andThen (blind_set fun _ _ _ _ _ => rfl) fun _ =>
  blind_andThen (blind_andThen (blind_need _ _ fun _ _ _ _ _ => rfl) fun _ => blind_set fun _ _ _ _ _ => rfl) fun _ =>
  blind_andThen (blind_need _ _ fun _ _ _ _ _ => rfl) fun _ =>
    blind_set fun r b es tx _ => by
      simp only [Move.update, Move.updateWork, Move.outside, ← advanceRound_outside]
      rfl

end Sys2Proof.Machine
end

