-- ==== Sys2Proof/Laws/Invariant.lean ====
section
/-! SUPPORT. What the invariant reads of a state, and that each phase of the engine, each host access and each way a
command ends keeps it. -/

namespace Sys2Proof.Machine

theorem ff1Shaped_congr {s t : State} (h : FF1Shaped s) (hw : t.work = s.work) (hr : t.rnd = s.rnd)
    (hc : t.ctx = s.ctx) :
    FF1Shaped t := by
  obtain ⟨h1, h2, h3, h4, h5, h6, h7, h8, h9, h10⟩ := h
  constructor <;> simp only [hw, hr, hc, ff1RoundIndex] at * <;> assumption

theorem ff31Shaped_congr {s t : State} (h : FF31Shaped s) (hw : t.work = s.work) (hr : t.rnd = s.rnd)
    (hc : t.ctx = s.ctx) :
    FF31Shaped t := by
  obtain ⟨h1, h2, h3, h4, h5, h6, h7, h8⟩ := h
  constructor <;> simp only [hw, hr, hc, ff31RoundIndex] at * <;> assumption

theorem commitReady_congr {p : Params} {s t : State} {i : Instr} (h : CommitReady p s i) (hl : t.lat = s.lat)
    (hw : t.work = s.work)
    (hc : t.ctx = s.ctx) : CommitReady p t i := by
  have ho : OperandsChecked p s → OperandsChecked p t := fun h => operandsChecked_congr h hl hc (by rw [hw])
      (by rw [hw]) (by rw [hw]) (by rw [hw])
  cases i <;> simp only [CommitReady, hl, hw] at h ⊢ <;> first | exact h | exact ⟨ho h.1, h.2⟩

/-- `PhaseConsistent` reads only the phase, the latches, the working registers, the round counter and the context. -/
theorem phaseConsistent_congr {p : Params} {s t : State} (h : PhaseConsistent p s) (hp : t.ph = s.ph)
    (hl : t.lat = s.lat)
    (hw : t.work = s.work) (hr : t.rnd = s.rnd) (hc : t.ctx = s.ctx) : PhaseConsistent p t := by
  have ho : OperandsChecked p s → OperandsChecked p t := fun h =>
    operandsChecked_congr h hl hc (by rw [hw]) (by rw [hw]) (by rw [hw]) (by rw [hw])
  unfold PhaseConsistent at h ⊢
  rw [hp]
  cases hph : s.ph <;> simp only [hph] at h ⊢
  · rw [hl, hw, hr]; exact h
  · refine ⟨ho h.1, ?_⟩
    have := h.2
    unfold OperandsOnly at this ⊢
    rw [hw, hr]; exact this
  · refine ⟨ho h.1, ?_⟩
    rw [hc]
    have h2 := h.2
    cases ha : s.ctx.alg <;> simp only [ha] at h2 ⊢
    · exact ff1Shaped_congr h2 hw hr hc
    · exact ff31Shaped_congr h2 hw hr hc
  · obtain ⟨i, hd, hi⟩ := h
    exact ⟨i, by rw [hl]; exact hd, commitReady_congr hi hl hw hc⟩

theorem contextConsistent_congr {p : Params} {s t : State} (h : ContextConsistent p s) (hc : t.ctx = s.ctx)
    (hk : t.aespKey = s.aespKey) : ContextConsistent p t := by
  unfold ContextConsistent at h ⊢
  rw [hc, hk]; exact h

theorem buffersCanonical_congr {p : Params} {s t : State} (h : BuffersCanonical p s) (hb : t.buf = s.buf) :
    BuffersCanonical p t := by
  obtain ⟨h1, h2, h3, h4⟩ := h
  constructor <;> rw [hb] <;> assumption

theorem statusConsistent_busy {s t : State} (h : StatusConsistent s) (hs : s.busy = true) (ht : t.busy = true)
    (hr : t.reg = s.reg) : StatusConsistent t := by
  obtain ⟨h1, h2, h3, h4, h5⟩ := h
  have hf : t.ph ≠ .fatal := by
    intro hf; unfold State.busy at ht; rw [hf] at ht; simp [Phase.busy] at ht
  constructor
  · intro _; rw [hr]; exact h1 hs
  · rw [hr]; exact h2
  · intro hh; exact absurd hh hf
  · rw [hr]; exact h4
  · rw [hr]; exact h5

/-- One move of the engine inside a command keeps the invariant if it keeps the shape of its phase. -/
theorem inv_busy {p : Params} {s t : State} (h : Inv p s) (hs : s.busy = true) (ht : t.busy = true) (hr : t.reg = s.reg)
    (hb : t.buf = s.buf) (hc : t.ctx = s.ctx) (hk : t.aespKey = s.aespKey) (hch : t.chain = s.chain)
    (hph : PhaseConsistent p t) : Inv p t where
  buffers := buffersCanonical_congr h.buffers hb
  status := statusConsistent_busy h.status hs ht hr
  context := contextConsistent_congr h.context hc hk
  quiet := ⟨by rw [hch]; exact h.quiet.chain, fun hh => by rw [ht] at hh; cases hh⟩
  phase := hph

theorem regsFailed_status {s : State} {e : ErrorName} (ho : s.reg.outlen = 0) {t : State}
    (hr : t.reg = regsFailed e s.reg)
    (hb : t.busy = false) : StatusConsistent t where
  busy_clear := fun h => by rw [hb] at h; cases h
  err_done := fun _ => by rw [hr]; exact ⟨rfl, ho⟩
  fatal_err := fun _ => by rw [hr]; exact ⟨rfl, rfl⟩
  no_error := fun h => by rw [hr] at h; cases h
  error_code := fun _ => ⟨e, by rw [hr]; rfl⟩

theorem raiseError_busy (e : ErrorName) (s : State) : (raiseError e s).busy = false := by
  unfold State.busy; rw [raiseError_ph]; split <;> rfl

/-- Ending with an error keeps the invariant (R203, R205). -/
theorem inv_raiseError {p : Params} {s : State} (e : ErrorName) (hb : BuffersCanonical p s) (hc : ContextConsistent p s)
    (ho : s.reg.outlen = 0) : Inv p (raiseError e s) where
  buffers := buffersCanonical_congr hb (raiseError_buf e s)
  status := regsFailed_status ho (raiseError_reg e s) (raiseError_busy e s)
  context := contextConsistent_congr hc (raiseError_ctx e s) (raiseError_aespKey e s)
  quiet := ⟨raiseError_chain e s, fun _ => ⟨raiseError_lat e s, raiseError_work e s, raiseError_rnd e s⟩⟩
  phase := by unfold PhaseConsistent; rw [raiseError_ph]; cases errorIsFatal e <;> trivial

/-- Completing without error keeps the invariant (R203). -/
theorem inv_completeOk {p : Params} {s : State} (hb : BuffersCanonical p s) (hc : ContextConsistent p s) :
    Inv p (completeOk s) where
  buffers := buffersCanonical_congr hb rfl
  status := {
    busy_clear := fun h => by cases h
    err_done := fun h => by cases h
    fatal_err := fun h => by cases h
    no_error := fun _ => rfl
    error_code := fun h => by cases h }
  context := contextConsistent_congr hc rfl rfl
  quiet := ⟨rfl, fun _ => ⟨rfl, rfl, rfl⟩⟩
  phase := trivial

theorem decode_cipher_ctx {p : Params} {s : State} (ho : OperandsChecked p s) (h : Inv p s) :
    ContextLegal p s.ctx ∧ s.aespKey = some s.ctx.key := by
  have hc := h.context
  unfold ContextConsistent at hc
  rw [if_pos ho.valid] at hc
  exact hc

theorem busy_outlen {s : State} (h : StatusConsistent s) (hb : s.busy = true) : s.reg.outlen = 0 :=
    (h.busy_clear hb).2.2

theorem inv_check {p : Params} {s : State} (h : Inv p s) (hph : s.ph = .check) : Inv p (checkPhase p s) := by
  have hb : s.busy = true := busy_of hph rfl
  have hphase := h.phase
  unfold PhaseConsistent at hphase
  simp only [hph] at hphase
  obtain ⟨hl, hw, hr⟩ := hphase
  have hout := busy_outlen h.status hb
  have hraise := fun e => inv_raiseError (p := p) e h.buffers h.context hout
  unfold checkPhase
  split
  · rename_i i hd
    have hcipher : isCipher i = true → Inv p (cipherFrontEnd p s) := by
      intro hi
      rcases cipherFrontEnd_cases p s with ⟨-, hh⟩ | ⟨-, e, -, hh⟩ | ⟨hv, hn, hh⟩
      · rw [hh]; exact hraise _
      · rw [hh, raiseError_withWork_takeOperands]; exact hraise _
      · rw [hh]
        have hc := h.context
        unfold ContextConsistent at hc
        rw [if_pos hv] at hc
        refine inv_busy h hb rfl rfl rfl rfl rfl rfl ?_
        refine ⟨operandsChecked_of_front_end hl hc.1 hv ⟨i, hd, hi⟩ hn, ?_, hr⟩
        simp only [takeOperands, State.withPhase_work, State.withWork_work, hw]
    cases i
    · show Inv p (settleCheck _ s)
      unfold settleCheck
      split
      · exact hraise _
      · rename_i hn
        exact inv_busy h hb rfl rfl rfl rfl rfl rfl ⟨.ctxFF1, hd, hl, hn⟩
    · show Inv p (settleCheck _ s)
      unfold settleCheck
      split
      · exact hraise _
      · rename_i hn
        exact inv_busy h hb rfl rfl rfl rfl rfl rfl ⟨.ctxFF31, hd, hl, hn⟩
    all_goals exact hcipher rfl
  · exact hraise _

theorem inv_setup {p : Params} (hp : p.wellFormed = true) {s : State} (h : Inv p s) (hph : s.ph = .setup)
    (tx : List PortTxn) :
    Inv p (setupPhase ⟨s, tx⟩).state ∧ (setupPhase ⟨s, tx⟩).state.ph = .round ∧ (setupPhase ⟨s, tx⟩).state.rnd = 0 := by
  have hb : s.busy = true := busy_of hph rfl
  have hphase := h.phase
  unfold PhaseConsistent at hphase
  simp only [hph] at hphase
  obtain ⟨ho, hclean⟩ := hphase
  obtain ⟨hc, hk⟩ := decode_cipher_ctx ho h
  obtain ⟨h4, h32, hlen⟩ := operandsChecked_n hp hc ho
  have hcap := wellFormed_bounds hp
  have htl := ho.t_fits
  cases ha : s.ctx.alg with
  | none => exact absurd ha hc.alg
  | ff1 =>
    simp only [setupPhase, ha]
    rw [ff1Setup_eq _ hc.radix.2 h32 (by simp only; omega)]
    refine ⟨inv_busy h hb rfl rfl rfl rfl rfl rfl ?_, rfl, rfl⟩
    refine ⟨operandsChecked_congr ho rfl rfl rfl rfl rfl rfl, ?_⟩
    show match s.ctx.alg with | .none => False | .ff1 => FF1Shaped _ | .ff31 => FF31Shaped _
    rw [ha]
    exact ff1Shaped_setup hp hc ho
  | ff31 =>
    simp only [setupPhase, ha]
    rw [ff31Setup_eq]
    refine ⟨inv_busy h hb rfl rfl rfl rfl rfl rfl ?_, rfl, rfl⟩
    refine ⟨operandsChecked_congr ho rfl rfl rfl rfl rfl rfl, ?_⟩
    show match s.ctx.alg with | .none => False | .ff1 => FF1Shaped _ | .ff31 => FF31Shaped _
    rw [ha]
    exact ff31Shaped_setup hp hc ho hclean

theorem commitReady_cipher {p : Params} {s : State} (ho : OperandsChecked p s)
    (hl : s.work.a.length + s.work.b.length = s.work.n) : ∃ i, decode s.lat.cmd = .ok i ∧ CommitReady p s i := by
  obtain ⟨i, hd, hi⟩ := ho.cipher
  refine ⟨i, hd, ?_⟩
  cases i <;> first | exact ⟨ho, hl⟩ | simp [isCipher] at hi

theorem inv_round {p : Params} (hp : p.wellFormed = true) {s : State} (h : Inv p s) (hph : s.ph = .round)
    (tx : List PortTxn) :
    Inv p (roundPhase p ⟨s, tx⟩).state ∧
    ((s.rnd + 1 < (if s.ctx.alg = .ff1 then 10 else 8) ∧ (roundPhase p ⟨s, tx⟩).state.ph = .round ∧
        (roundPhase p ⟨s, tx⟩).state.rnd = s.rnd + 1) ∨
      (s.rnd + 1 = (if s.ctx.alg = .ff1 then 10 else 8) ∧ (roundPhase p ⟨s, tx⟩).state.ph = .finish) ∨
      (s.ctx.alg = .ff31 ∧ s.ctx.valid = true ∧ (roundPhase p ⟨s, tx⟩).state = raiseError .lengthExceeded s)) := by
  have hb : s.busy = true := busy_of hph rfl
  have hphase := h.phase
  unfold PhaseConsistent at hphase
  simp only [hph] at hphase
  obtain ⟨ho, hshape⟩ := hphase
  obtain ⟨hc, hk⟩ := decode_cipher_ctx ho h
  obtain ⟨h4, h32, hlen⟩ := operandsChecked_n hp hc ho
  have hout := busy_outlen h.status hb
  cases ha : s.ctx.alg with
  | none => exact absurd ha hc.alg
  | ff1 =>
    simp only [ha] at hshape
    simp only [roundPhase, ha]
    rw [ff1Round_eq p ⟨s, tx⟩ hc.radix.1 hc.radix.2 (by simp only; omega) h32 ho.t h.quiet.chain hshape]
    have hlt := hshape.rnd
    simp only [Config.roundsFF1] at hlt
    by_cases hl : s.rnd + 1 < 10
    · rw [advanceRound_next (by exact hl)]
      refine ⟨inv_busy h hb (busy_of hph rfl) rfl rfl rfl rfl rfl ?_, .inl ⟨hl, hph, rfl⟩⟩
      refine ?_
      unfold PhaseConsistent
      rw [show ((s.withWork (ff1NextWork p s)).withRound ((s.withWork (ff1NextWork p s)).rnd + 1)).ph = .round from hph]
      refine ⟨operandsChecked_congr ho rfl rfl rfl rfl rfl rfl, ?_⟩
      show match s.ctx.alg with | .none => False | .ff1 => FF1Shaped _ | .ff31 => FF31Shaped _
      rw [ha]
      exact ff1Shaped_next hc.radix.1 hc.radix.2 ho.t hshape hl
    · have hl' : s.rnd + 1 = 10 := by omega
      rw [advanceRound_last (by exact hl')]
      refine ⟨inv_busy h hb rfl rfl rfl rfl rfl rfl ?_, .inr (.inl ⟨hl', rfl⟩)⟩
      exact commitReady_cipher (operandsChecked_congr ho rfl rfl rfl rfl rfl rfl) (ff1NextWork_length hshape)
  | ff31 =>
    simp only [ha] at hshape
    simp only [roundPhase, ha]
    have ht7 : s.work.t.length = 7 := by rw [ho.t, effectiveTweakLength_ff31 hc ha ho]
    have hlt := hshape.rnd
    simp only [Config.roundsFF31] at hlt
    by_cases hfit : 2 ^ 96 ≤ ff31NextNumeral s
    · rw [ff31Round_overflow p ⟨s, tx⟩ (by simp only; omega) hshape hfit]
      simp only [raiseError_withWork]
      exact ⟨inv_raiseError _ h.buffers h.context hout, .inr (.inr ⟨trivial, ho.valid, trivial⟩)⟩
    · rw [ff31Round_eq p ⟨s, tx⟩ hc.radix.1 (by simp only; omega) ht7 h.quiet.chain hshape (by simp only; omega)]
      by_cases hl : s.rnd + 1 < 8
      · rw [advanceRound_next (by exact hl)]
        refine ⟨inv_busy h hb (busy_of hph rfl) rfl rfl rfl rfl rfl ?_, .inl ⟨hl, hph, rfl⟩⟩
        unfold PhaseConsistent
        rw [show ((s.withWork (ff31NextWork p s)).withRound ((s.withWork
            (ff31NextWork p s)).rnd + 1)).ph = .round from hph]
        refine ⟨operandsChecked_congr ho rfl rfl rfl rfl rfl rfl, ?_⟩
        show match s.ctx.alg with | .none => False | .ff1 => FF1Shaped _ | .ff31 => FF31Shaped _
        rw [ha]
        exact ff31Shaped_next hc.radix.1 hc.radix.2 ht7 hshape hl
      · have hl' : s.rnd + 1 = 8 := by omega
        rw [advanceRound_last (by exact hl')]
        refine ⟨inv_busy h hb rfl rfl rfl rfl rfl rfl ?_, .inr (.inl ⟨hl', rfl⟩)⟩
        exact commitReady_cipher (operandsChecked_congr ho rfl rfl rfl rfl rfl rfl) (ff31NextWork_length hshape)

theorem inv_finish {p : Params} (hp : p.wellFormed = true) {s : State} (h : Inv p s) (hph : s.ph = .finish)
    (tx : List PortTxn) :
    Inv p (finishPhase p ⟨s, tx⟩).state ∧ (finishPhase p ⟨s, tx⟩).state.ph = .idle ∧
        (finishPhase p ⟨s, tx⟩).state.reg.err = false := by
  have hb : s.busy = true := busy_of hph rfl
  have hcap := wellFormed_bounds hp
  have hphase := h.phase
  unfold PhaseConsistent at hphase
  simp only [hph] at hphase
  obtain ⟨i, hd, hi⟩ := hphase
  have hcipher : OperandsChecked p s → s.work.a.length + s.work.b.length = s.work.n →
      Inv p (commitResult ⟨s, tx⟩).state ∧ (commitResult ⟨s, tx⟩).state.ph = .idle ∧
          (commitResult ⟨s, tx⟩).state.reg.err = false := by
    intro ho hl
    refine ⟨?_, rfl, rfl⟩
    obtain ⟨hc, hk⟩ := decode_cipher_ctx ho h
    refine inv_completeOk ?_ (contextConsistent_congr h.context rfl rfl)
    obtain ⟨hk, ht, hx, ho1, ho2⟩ := h.buffers
    refine ⟨hk, ht, hx, Memory.canonical_store _ _ ho1, Memory.within_store _ ho2 ?_⟩
    have := textMax_le_nCap hc
    have := ho.n_bounds
    simp only [bufSize, joinHalves]
    cases s.work.dir <;> simp only [List.length_append] <;> omega
  have hctx : ∀ c : Context, c.valid = true → ContextLegal p c →
      Inv p (commitContext c ⟨s, tx⟩).state ∧ (commitContext c ⟨s, tx⟩).state.ph = .idle ∧
          (commitContext c ⟨s, tx⟩).state.reg.err = false := by
    intro c hv hc
    refine ⟨?_, rfl, rfl⟩
    refine inv_completeOk (buffersCanonical_congr h.buffers rfl) ?_
    unfold ContextConsistent
    rw [if_pos (by exact hv)]
    exact ⟨hc, rfl⟩
  unfold finishPhase
  simp only [hd]
  cases i
  · exact hctx _ rfl (ctxFF1Context_legal hi.1 hi.2)
  · exact hctx _ rfl (ctxFF31Context_legal (by omega) hi.1 hi.2)
  all_goals exact hcipher hi.1 hi.2

/-- One move of the engine keeps the invariant. -/
theorem inv_engineMove {p : Params} (hp : p.wellFormed = true) {m : Move} (h : Inv p m.state) :
    Inv p (engineMove p m).state := by
  obtain ⟨s, tx⟩ := m
  unfold engineMove
  cases hph : s.ph <;> simp only
  · exact h
  · exact inv_check h hph
  · exact (inv_setup hp h hph tx).1
  · exact (inv_round hp h hph tx).1
  · exact (inv_finish hp h hph tx).1
  · exact h

theorem inv_runEngine {p : Params} (hp : p.wellFormed = true) (k : Nat) {m : Move} (h : Inv p m.state) :
    Inv p (runEngine p k m).state := by
  induction k generalizing m with
  | zero => exact h
  | succ k ih => exact ih (inv_engineMove hp h)

theorem inv_accept {p : Params} {s : State} (w : Word) (h : Inv p s) (hph : s.ph = .idle) : Inv p (accept p w s) where
  buffers := buffersCanonical_congr h.buffers rfl
  status := {
    busy_clear := fun _ => ⟨rfl, rfl, rfl⟩
    err_done := fun h => by cases h
    fatal_err := fun h => by cases h
    no_error := fun _ => rfl
    error_code := fun h => by cases h }
  context := contextConsistent_congr h.context rfl rfl
  quiet := ⟨h.quiet.chain, fun h => by cases h⟩
  phase := by
    obtain ⟨-, hw, hr⟩ := h.quiet.zeroed (by unfold State.busy; rw [hph]; rfl)
    exact ⟨latchOperands_sized p w _ _, hw, hr⟩

/-- Only the operand registers and buffers of a state have changed. -/
theorem inv_operands {p : Params} {s t : State} (h : Inv p s) (hb : BuffersCanonical p t) (hph : t.ph = s.ph)
    (hl : t.lat = s.lat)
    (hw : t.work = s.work) (hr : t.rnd = s.rnd) (hc : t.ctx = s.ctx) (hk : t.aespKey = s.aespKey)
        (hch : t.chain = s.chain)
    (h1 : t.reg.done = s.reg.done) (h2 : t.reg.err = s.reg.err) (h3 : t.reg.errcode = s.reg.errcode)
    (h4 : t.reg.outlen = s.reg.outlen) : Inv p t where
  buffers := hb
  status := by
    obtain ⟨a1, a2, a3, a4, a5⟩ := h.status
    constructor <;> simp only [State.busy, hph, h1, h2, h3, h4] at * <;> assumption
  context := contextConsistent_congr h.context hc hk
  quiet := by
    refine ⟨by rw [hch]; exact h.quiet.chain, ?_⟩
    intro hb
    rw [hl, hw, hr]
    refine h.quiet.zeroed ?_
    unfold State.busy at hb ⊢; rw [← hph]; exact hb
  phase := phaseConsistent_congr h.phase hph hl hw hr hc

theorem buffersCanonical_hostWrite {p : Params} {s : State} (h : BuffersCanonical p s) (b : BufName) {i : Nat}
    (v : Byte) (hi : i < bufSize p b) :
    BuffersCanonical p (s.withBuf (s.buf.hostWrite b i v)) := by
  obtain ⟨⟨k1,k2⟩, ⟨t1,t2⟩, ⟨x1,x2⟩, ⟨o1,o2⟩⟩ := h
  cases b
  · exact ⟨⟨Memory.canonical_write i v k1, Memory.within_write v k2 hi⟩, ⟨t1,t2⟩, ⟨x1,x2⟩, ⟨o1,o2⟩⟩
  · exact ⟨⟨k1,k2⟩, ⟨Memory.canonical_write i v t1, Memory.within_write v t2 hi⟩, ⟨x1,x2⟩, ⟨o1,o2⟩⟩
  · exact ⟨⟨k1,k2⟩, ⟨t1,t2⟩, ⟨Memory.canonical_write i v x1, Memory.within_write v x2 hi⟩, ⟨o1,o2⟩⟩
  · exact ⟨⟨k1,k2⟩, ⟨t1,t2⟩, ⟨x1,x2⟩, ⟨o1,o2⟩⟩

theorem inv_hostAccess {p : Params} {s : State} (h : Inv p s) (a : Access) : Inv p (hostAccess p s a) := by
  cases a with
  | regRead k => exact h
  | bufRead b i => exact h
  | bufWrite b i v =>
    show Inv p (writeByte p s b i v)
    unfold writeByte
    split
    · rename_i hi
      exact inv_operands h (buffersCanonical_hostWrite h.buffers b v hi) rfl rfl rfl rfl rfl rfl rfl rfl rfl rfl rfl
    · exact h
  | regWrite k w =>
    simp only [hostAccess]
    split
    · rename_i r hr
      cases r
      case cmd =>
        show Inv p (writeCmd p w s)
        unfold writeCmd
        split
        · rename_i hph; exact inv_accept w h hph
        all_goals exact h
      all_goals exact inv_operands h (buffersCanonical_congr h.buffers rfl) rfl rfl rfl rfl rfl rfl rfl rfl rfl rfl rfl
    · exact h

theorem moveWord_idle {p : Params} {s : State} {w : Word} (h : s.ph = .idle) :
    moveWord p w s = runEngine p 13 (Move.start (accept p w s)) := by
  show _ = runEngine p 12 (engineMove p (Move.start (accept p w s)))
  rw [engineMove_check (by rfl)]
  have hc : decode (accept p w s).lat.cmd = decode w := rfl
  simp only [Move.update, Move.start_state, Move.start_txns]
  unfold checkPhase moveWord
  rw [hc]
  cases hd : decode w with
  | error e => simp only [runIllegal]; rw [runCommand_idle p _ _ h]; rfl
  | ok i =>
    simp only
    have hw := decode_ok_word hd
    subst hw
    cases i <;> (simp only [moveCommand, moveCtxFF1, moveCtxFF31, moveEnc, moveEncT, moveDec,
        moveDecT]; rw [runCommand_idle p _ _ h]; rfl)

theorem moveWord_ignored {p : Params} {s : State} {w : Word} (h : s.ph ≠ .idle) :
    moveWord p w s = Move.start s := by
  unfold moveWord
  split
  · rename_i i _
    cases i <;> exact runCommand_ignored p _ _ h
  · exact runCommand_ignored p _ _ h

theorem inv_moveWord {p : Params} (hp : p.wellFormed = true) {s : State} (w : Word) (h : Inv p s) : Inv p
    (moveWord p w s).state := by
  by_cases hph : s.ph = .idle
  · rw [moveWord_idle hph]; exact inv_runEngine hp _ (inv_accept w h hph)
  · rw [moveWord_ignored hph]; exact h

/-- A command is the `CMD` write of its word. -/
theorem moveWord_encode (p : Params) (i : Instr) (s : State) : moveWord p (encode i) s = moveCommand p i s := by
  cases i <;> rfl

/-- Every meaning completes to the state of its move. -/
theorem exec_eq (i : Instr) (s : State) : exec i s = .next (moveCommand Config.hardware i s).state := by
  cases i <;> rfl

theorem stepCommand_eq (w : Word) (s : State) : stepCommand w s = .next (moveWord Config.hardware w s).state := by
  unfold stepCommand moveWord
  cases decode w with
  | error e => rfl
  | ok i => cases i <;> rfl

theorem inv_withPending {p : Params} {s : State} (h : Inv p s) (es : List Event) : Inv p (s.withPending es) :=
  inv_operands h (buffersCanonical_congr h.buffers rfl) rfl rfl rfl rfl rfl rfl rfl rfl rfl rfl rfl

end Sys2Proof.Machine
end

