-- ==== Sys2Proof/Laws/PerInstr.lean ====
section
/-! SUPPORT. Per-command facts about the syntax: the command's word decodes to the command, and it is a legal word with
its must-be-zero bits clear. -/

namespace Sys2Proof.Laws

/-- The word of a well-formed command decodes to that command (spec/30_encoding.md R62). -/
def WordDecodes.Statement (i : Instr) : Prop :=
  i.wellFormed = true → decode (encode i) = .ok i ∧ legalWord (encode i) = true ∧ fieldRsv (encode i) = 0

theorem WordDecodes.ctxFF1 : WordDecodes.Statement .ctxFF1 := fun _ => ⟨rfl, rfl, rfl⟩
theorem WordDecodes.ctxFF31 : WordDecodes.Statement .ctxFF31 := fun _ => ⟨rfl, rfl, rfl⟩
theorem WordDecodes.enc : WordDecodes.Statement .enc := fun _ => ⟨rfl, rfl, rfl⟩
theorem WordDecodes.encT : WordDecodes.Statement .encT := fun _ => ⟨rfl, rfl, rfl⟩
theorem WordDecodes.dec : WordDecodes.Statement .dec := fun _ => ⟨rfl, rfl, rfl⟩
theorem WordDecodes.decT : WordDecodes.Statement .decT := fun _ => ⟨rfl, rfl, rfl⟩

end Sys2Proof.Laws
end

