-- ==== Sys2Proof/Laws/Step.lean ====
section
/-! SUPPORT. Steps: the machine's run, one step at a time, and what a host access leaves alone. -/

namespace Sys2Proof.Machine

/-- One step of a run. -/
theorem core_run_succ (k : Nat) {s t : State} (h : step s = .next t) :
    Sys2Proof.core.run (k + 1) s = Sys2Proof.core.run k t := by
  have h' : Sys2Proof.core.step s = .next t := h
  simp only [Host.Core.run, h']

/-- A step whose next event is a host access. -/
theorem step_access {s : State} {a : Access} (h : s.nextEvent = .access a) :
    step s = .next (hostAccess Config.hardware s.afterFetch a) := by
  unfold step; rw [h]; rfl

/-- A step whose next event is a whole command. -/
theorem step_command {s : State} {w : Word} (h : s.nextEvent = .command w) :
    step s = .next (moveWord Config.hardware w s.afterFetch).state := by
  unfold step; rw [h]; exact stepCommand_eq w _

/-- A step whose next event is a move of the engine, where R32 lists one. -/
theorem step_engine {s : State} (h : s.nextEvent = .engine) (ht : s.afterFetch.hasTransition = true) :
    step s = .next (engineMove Config.hardware (Move.start s.afterFetch)).state := by
  unfold step; rw [h]
  simp only [stepEvent, stepEngine, ht]

/-- A step whose next event is a reset. -/
theorem step_reset {s : State} {k : Nat} (h : s.nextEvent = .reset k) : step s = .next (resetInput s.afterFetch) := by
  unfold step; rw [h]; rfl

/-- No host access reaches the context or the AES key (10_state.md R23, R35). -/
theorem hostAccess_context (p : Params) (s : State) (a : Access) :
    (hostAccess p s a).ctx = s.ctx ∧ (hostAccess p s a).aespKey = s.aespKey := by
  cases a with
  | regRead k => exact ⟨rfl, rfl⟩
  | bufRead b i => exact ⟨rfl, rfl⟩
  | bufWrite b i v =>
    simp only [hostAccess, writeByte]
    split
    · cases b <;> exact ⟨rfl, rfl⟩
    · exact ⟨rfl, rfl⟩
  | regWrite k w =>
    simp only [hostAccess]
    split
    · rename_i r _
      cases r
      case cmd =>
        show (writeCmd _ _ _).ctx = _ ∧ (writeCmd _ _ _).aespKey = _
        unfold writeCmd
        split <;> exact ⟨rfl, rfl⟩
      all_goals exact ⟨rfl, rfl⟩
    · exact ⟨rfl, rfl⟩

end Sys2Proof.Machine
end

