-- ==== Sys2Proof/Tests/Slice0.lean ====
section
/-! SUPPORT. Tests: words, ill-formed terms, one command at a time on the vectors of spec/95_test_vectors.md (AES is
there a finite table, as 43_keyed_block_function.md R135 allows), and for each statement with hypotheses a witness that
meets them. -/

open Sys2Proof.Machine

namespace Sys2Proof.Tests

set_option Elab.async false

/-! ### Words (30_encoding.md R60 to R63) -/

/-- `CTX.FF1`: OP = 1, ALG = 1. -/
theorem test_decode_ctxFF1 : decode 0b00000000000000000000000000010001#32 = .ok .ctxFF1 := by decide
/-- `CTX.FF31`: OP = 1, ALG = 2. -/
theorem test_decode_ctxFF31 : decode 0b00000000000000000000000000100001#32 = .ok .ctxFF31 := by decide
/-- `ENC`: OP = 2. -/
theorem test_decode_enc : decode 0b00000000000000000000000000000010#32 = .ok .enc := by decide
/-- `ENC.T`: OP = 2, TWO = 1. -/
theorem test_decode_encT : decode 0b00000000000000000000001000000010#32 = .ok .encT := by decide
/-- `DEC`: OP = 2, DIR = 1. -/
theorem test_decode_dec : decode 0b00000000000000000000000100000010#32 = .ok .dec := by decide
/-- `DEC.T`: OP = 2, DIR = 1, TWO = 1. -/
theorem test_decode_decT : decode 0b00000000000000000000001100000010#32 = .ok .decT := by decide

/-- The host's view of the table: bits above the row's are zero. -/
theorem test_decodeTableWord : decodeTableWord 32 0x302 = some .decT ∧ decodeTableWord 8 0x302 = some .enc ∧
    decodeTableWord 32 0 = none ∧ decodeTableWord 64 2 = none := by decide

/-! ### Ill-formed terms -/

/-- Each reason for which R63 refuses a word. -/
theorem test_decode_refuses :
    decode 0x00000000#32 = .error .reservedOp ∧ decode 0x00000003#32 = .error .reservedOp ∧
      decode 0x00000001#32 = .error .contextAlg ∧ decode 0x00000031#32 = .error .contextAlg ∧
      decode 0x00000111#32 = .error .contextFlag ∧ decode 0x00000211#32 = .error .contextFlag ∧
      decode 0x00000012#32 = .error .cipherAlg ∧ decode 0x00000042#32 = .error .mustBeZero ∧
      decode 0x80000011#32 = .error .mustBeZero := by decide

/-- The same words are no legal words. -/
theorem test_legalWord_refuses :
    [0x00000000#32, 0x00000003#32, 0x00000001#32, 0x00000031#32, 0x00000111#32, 0x00000211#32, 0x00000012#32,
      0x00000042#32, 0x80000011#32].all (fun w => !legalWord w) = true := by decide

/-- A legal word is one. -/
theorem test_legalWord_accepts : legalWord 0x00000302#32 = true := by decide

/-- The parameters of the tests with other capacities. -/
def capacities (n t : Nat) : Params := ⟨n, t, fun _ _ => Vector.replicate 16 0, fun _ => 0⟩

/-- N_CAP below 20 is refused. -/
theorem test_wellFormed_refuses_small_text : (capacities 19 7).wellFormed = false := by decide
/-- N_CAP of 2^32 is refused. -/
theorem test_wellFormed_refuses_large_text : (capacities (2 ^ 32) 7).wellFormed = false := by decide
/-- T_CAP below 7 is refused. -/
theorem test_wellFormed_refuses_small_tweak : (capacities 20 6).wellFormed = false := by decide
/-- T_CAP of 2^32 is refused. -/
theorem test_wellFormed_refuses_large_tweak : (capacities 20 (2 ^ 32)).wellFormed = false := by decide
/-- The bounds themselves pass. -/
theorem test_wellFormed_bounds : (capacities 20 7).wellFormed = true ∧
    (capacities (2 ^ 32 - 1) (2 ^ 32 - 1)).wellFormed = true := by decide
/-- Every command passes the check of its word. -/
theorem test_wellFormed_commands : ∀ i : Instr, i.wellFormed = true := by intro i; cases i <;> decide

/-- `xor` of R122's first example. -/
theorem test_xor : xorBytes (beBytes 0x56258048dec2bd1e3c1af1410668421d 16) (beBytes 0xddd5 16) 16 =
    beBytes 0x56258048dec2bd1e3c1af14106689fc8 16 := by decide

/-! ### A finite table for AES -/

/-- Requests and responses of V1, key K1. -/
def blocksV1 : List (Nat × Nat) :=
  [(0x01020100000a0a050000000a00000000, 0x56258048dec2bd1e3c1af1410668421d),
    (0x56258048dec2bd1e3c1af14106689fc8, 0xc3b829a1e8642b78cc29947b3b93db63),
    (0x56258048dec2bd1e3c1af1410768b357, 0x79643d9eddfa83104802e059bddcc72c),
    (0x56258048dec2bd1e3c1af14104686d18, 0x09844b3a2e970a33a5455f64c743384d),
    (0x56258048dec2bd1e3c1af14105689f20, 0x7d1da0b2299e944268b3882e3bc64839),
    (0x56258048dec2bd1e3c1af141026932da, 0x437a5293dafbf6ef8f126f37e5b40672),
    (0x56258048dec2bd1e3c1af1410368ef51, 0xd8ba8ac1f434111608bc795f3e961c12),
    (0x56258048dec2bd1e3c1af14100690900, 0xbe0f13a39d29fde8120a37a607db15c0),
    (0x56258048dec2bd1e3c1af141016905c9, 0x4f191dbf9970f29a9b81ca63f54729c0),
    (0x56258048dec2bd1e3c1af1410e68c02a, 0xc23476753a32eb1af4cfe11555bdbd1b),
    (0x56258048dec2bd1e3c1af1410f681d13, 0x8fc4da4d430e801570acc54aec9a04f3)]

/-- Requests and responses of V2, key K1. -/
def blocksV2 : List (Nat × Nat) :=
  [(0x01020100000a0a050000000a0000000a, 0x3c9ea722440d229f75aa36ee42043547),
    (0x05a69014713911ad449a36ee4204e892, 0xb2175ee3eb6bf158ffe17c2371e5cc13),
    (0x05a69014713911ad449a36ee4304502d, 0x33bef93d046d786733ff4661148c5799),
    (0x05a69014713911ad449a36ee40041c7b, 0x2e779d929682f1c06f86e5a0c99dda62),
    (0x05a69014713911ad449a36ee410444ed, 0xae7be057b8f838542c0a1be39de9b25b),
    (0x05a69014713911ad449a36ee4604b6b7, 0x8ff1bf54556d553e628e7ad9b1d0ef04),
    (0x05a69014713911ad449a36ee470506cf, 0x26477ebdba351f91ee4c56fd70a0aee7),
    (0x05a69014713911ad449a36ee440402a6, 0x7d4bed9e8337d10965c50079c2027484),
    (0x05a69014713911ad449a36ee4504d356, 0xf2f6e5eeeaa46195e253749833ff2387),
    (0x05a69014713911ad449a36ee4a040cf1, 0xcf001866b0a4c6a943dbe4643c6db283),
    (0x05a69014713911ad449a36ee4b04da7d, 0xf254e3010ca9d9cf3012e5850c45d292)]

/-- Requests and responses of E1: `revb(P)` and `revb(S)`, key K3 reversed. -/
def blocksE1 : List (Nat × Nat) :=
  [(0xb8189c26000000000000000037373839, 0x43ab51ef131533f868cc18feef5f54ef),
    (0xf20e2f21000000000000000066333435, 0x022c455940ffacb484da637e6c6818f9),
    (0xb606931b000000000000000035373839, 0x087e7335048d78b36d1f58d2adffde34),
    (0xea688522000000000000000064333435, 0x639cc5af01b4fd0a3e67cc2207229050),
    (0x53a2ec2a000000000000000033373839, 0x260eb401b43ebefd9fa7f79f6dd21333),
    (0xc44af83a000000000000000062333435, 0xaf921411af0a60098b4b13af4d373970),
    (0xa429b320000000000000000031373839, 0xf706ea0a9937735834ffbc328143f377),
    (0xcd810100000000000000000060333435, 0x9ab81c800bc8d3312c38e1ae2163e0c1)]

/-- Requests and responses of E2: `revb(P)` and `revb(S)`, key K3 reversed. -/
def blocksE2 : List (Nat × Nat) :=
  [(0xfd020000000000000000000070cdab89, 0x7576217485a63076b300d5e27a2f018a),
    (0xc6080000000000000000000061452301, 0xdd1311005dddc3251acc89094b0559b1),
    (0xa2030000000000000000000072cdab89, 0x7e5fd3b31ef6cd61946166f8d11e1624),
    (0x64250000000000000000000063452301, 0x68fea9a5d19aa5a029d285c96e805125),
    (0x3a030000000000000000000074cdab89, 0x807a25aeda35806a7251ed6b50477938),
    (0x64050000000000000000000065452301, 0xbfa2877443e847ba2ce6ab407862d854),
    (0x39010000000000000000000076cdab89, 0xd3a8c7f15ca3fe3a88b7f7adc7a0d96a),
    (0x37020000000000000000000067452301, 0x9d79849cf94c346cdaf975e3794f5aab)]

/-- The request and the response of E8 (a), key K3 reversed. -/
def blocksE8 : List (Nat × Nat) :=
  [(0x58cdd435067d49274987780600000000, 0xa9859b9f383f883912051249b34522c1)]

/-- K1 and K3 of spec/95_test_vectors.md, and K3 reversed. -/
def keyK1 : Bytes := beBytes 0x2b7e151628aed2a6abf7158809cf4f3c 16
def keyK3 : Bytes := beBytes 0xef4359d8d580aa4f7f036d6f04fc6a94 16
def keyK3reversed : Bytes := beBytes 0x946afc046f6d037f4faa80d5d85943ef 16

/-- The rows for a key; a request outside them gets zeros. -/
def tableFor (key : Bytes) : List (Nat × Nat) :=
  if key = keyK1 then blocksV1 ++ blocksV2
  else if key = keyK3reversed then blocksE1 ++ blocksE2 ++ blocksE8
  else []

/-- A block of 16 bytes, from its value. -/
def blockOf (n : Nat) : Vector Byte 16 := Vector.ofFn fun i => BitVec.ofNat 8 (n / 256 ^ (15 - i.val))

/-- Parameters whose AES is the table; N_CAP and T_CAP are those of spec/95_test_vectors.md. -/
def tabled : Params :=
  ⟨256, 64, fun key x => blockOf ((((tableFor key).find? fun e => decide (e.1 = numBytes x)).getD (0, 0)).2),
      fun _ => 0⟩

theorem test_wellFormed_tabled : tabled.wellFormed = true := by decide

/-! ### States -/

/-- The characters of the decimal number `n`, `w` of them. -/
def decimal (n w : Nat) : Bytes := (List.range w).map fun k => BitVec.ofNat 8 (0x30 + n / 10 ^ (w - 1 - k) % 10)

/-- The default tweak of the contexts below: empty for FF1, seven zero bytes for FF3-1. -/
def defaultTweak : Alg → Bytes
  | .none => []
  | .ff1 => []
  | .ff31 => zeroBytes 7

/-- The upper text bound of a context. -/
def upperBound (p : Params) : Alg → Nat
  | .none => 0
  | .ff1 => ff1TextMax p
  | .ff31 => ff31TextMax p 10

/-- A radix-10 context with a key of 16 bytes. -/
def contextOf (p : Params) (alg : Alg) (key : Bytes) : Context :=
  ⟨true, alg, 16, key, 10, (defaultTweak alg).length, defaultTweak alg, (defaultTweak alg).length,
    (defaultTweak alg).length, textMin 10, upperBound p alg⟩

/-- After a context command: the text `txt`, the tweak `twk` and their lengths stand in the operands. -/
def ready (p : Params) (alg : Alg) (key txt twk : Bytes) : State :=
  { State.reset with
    reg := { State.reset.reg with txtlen := BitVec.ofNat 32 txt.length, twklen := BitVec.ofNat 32 twk.length }
    buf := { State.reset.buf with txt := Memory.store [] 0 txt, twk := Memory.store [] 0 twk }
    ctx := contextOf p alg key
    aespKey := some key }

/-- Before a context command: the key, its length, the radix, the tweak, its length and its bounds. -/
def operands (key : Bytes) (radix : Word) (twk : Bytes) (lo hi : Word) : State :=
  { State.reset with
    reg :=
      { State.reset.reg with
        keylen := BitVec.ofNat 32 key.length, radix := radix, twklen := BitVec.ofNat 32 twk.length, twkmin := lo,
        twkmax := hi }
    buf := { State.reset.buf with key := Memory.store [] 0 key, twk := Memory.store [] 0 twk } }

/-! ### One command each -/

/-- X1: the read-back values, STATUS = 0x32 and the key load. -/
theorem test_ctxFF1 :
    (moveCtxFF1 tabled (operands keyK1 10 [] 0 0)).txns = [.keyLoad keyK1] ∧
      (moveCtxFF1 tabled (operands keyK1 10 [] 0 0)).state.statusWord = 0x32 ∧
      (moveCtxFF1 tabled (operands keyK1 10 [] 0 0)).state.ctx.txtMin = 6 ∧
      (moveCtxFF1 tabled (operands keyK1 10 [] 0 0)).state.ctx.txtMax = 256 := by decide +kernel

/-- X10: TWKMIN = 4, TWKMAX = 2. -/
theorem test_ctxFF1_tweak_bounds :
    moveCtxFF1 tabled (operands keyK1 10 [] 4 2) =
      ⟨endsWithError .invalidTweakLength (operands keyK1 10 [] 4 2), []⟩ := by decide +kernel

/-- X2: the reversed key, the tweak bounds, STATUS = 0x52. -/
theorem test_ctxFF31 :
    (moveCtxFF31 tabled (operands keyK3 10 (zeroBytes 7) 1 2)).txns = [.keyLoad keyK3reversed] ∧
      (moveCtxFF31 tabled (operands keyK3 10 (zeroBytes 7) 1 2)).state.statusWord = 0x52 ∧
      (moveCtxFF31 tabled (operands keyK3 10 (zeroBytes 7) 1 2)).state.ctx.twkMin = 7 ∧
      (moveCtxFF31 tabled (operands keyK3 10 (zeroBytes 7) 1 2)).state.ctx.txtMax = 57 := by decide +kernel

/-- X9: TWKLEN = 8. -/
theorem test_ctxFF31_tweak_length :
    moveCtxFF31 tabled (operands keyK3 10 (zeroBytes 8) 0 0) =
      ⟨endsWithError .invalidTweakLength (operands keyK3 10 (zeroBytes 8) 0 0), []⟩ := by decide +kernel

/-- V1: the result and the twenty transactions. -/
theorem test_enc_V1 :
    (moveEnc tabled (ready tabled .ff1 keyK1 (decimal 123456789 10) [])).state.buf.out.load 11
        = decimal 2433477484 10 ++ [0] ∧
      (moveEnc tabled (ready tabled .ff1 keyK1 (decimal 123456789 10) [])).txns.length = 20 := by decide +kernel

/-- X3: TXTLEN = 5 is too short for radix 10. -/
theorem test_enc_short :
    moveEnc tabled (ready tabled .ff1 keyK1 (decimal 12345 5) []) =
      ⟨endsWithError .invalidTextLength (ready tabled .ff1 keyK1 (decimal 12345 5) []), []⟩ := by decide +kernel

/-- V2: a tweak override of ten bytes. -/
theorem test_encT_V2 :
    (moveEncT tabled (ready tabled .ff1 keyK1 (decimal 123456789 10) (beBytes 0x39383736353433323130
        10))).state.buf.out.load
      10 = decimal 6124200773 10 := by decide +kernel

/-- E2: FF3-1, odd length. -/
theorem test_encT_E2 :
    (moveEncT tabled (ready tabled .ff31 keyK3reversed (decimal 1234567 7)
        (beBytes 0x0123456789abcd 7))).state.buf.out.load
      8 = decimal 7650627 7 ++ [0] := by decide +kernel

/-- D1: decryption of V1's output. -/
theorem test_dec_D1 :
    (moveDec tabled (ready tabled .ff1 keyK1 (decimal 2433477484 10) [])).state.buf.out.load 10
      = decimal 123456789 10 := by decide +kernel

/-- E8 (b): the fatal stop before any transaction, STATUS = 0x5E. -/
theorem test_dec_E8 :
    (moveDec tabled (ready tabled .ff31 keyK3reversed (List.replicate 57 0x39) [])).state.statusWord = 0x5E ∧
      (moveDec tabled (ready tabled .ff31 keyK3reversed (List.replicate 57 0x39) [])).txns = [] := by decide +kernel

/-- E1: FF3-1 decryption of V4's output. -/
theorem test_decT_E1 :
    (moveDecT tabled (ready tabled .ff31 keyK3reversed (decimal 251467746185412673 18)
      (beBytes 0x39383736353433 7))).state.buf.out.load 18 = decimal 890121234567890000 18 := by decide +kernel

/-- F2 for `DEC.T`: after reset there is no context. -/
theorem test_decT_no_context :
    (moveDecT tabled State.reset).state.statusWord = 0x06 ∧
      (moveDecT tabled State.reset).state.reg.errcode = 0x10 := by decide +kernel

/-- F3: an illegal word after reset. -/
theorem test_illegal_word :
    (moveWord tabled 0 State.reset).state.statusWord = 0x06 ∧
      (moveWord tabled 0 State.reset).state.reg.errcode = 0x11 := by decide +kernel

/-- A step from reset with the word of `ENC` placed runs it. -/
theorem test_withFetchWord : step (State.reset.withFetchWord 32 2) = .next (endsWithError .noContext State.reset) := rfl

/-! ### Witnesses: the invariant -/

/-- A context of these tests is legal. -/
theorem contextOf_legal {p : Params} (hp : p.wellFormed = true) {alg : Alg} (ha : alg ≠ .none) {key : Bytes}
    (hk : key.length = 16) : ContextLegal p (contextOf p alg key) := by
  have hcap := wellFormed_bounds hp
  have h6 : textMin 10 = 6 := by decide
  have h57 : ff31TextMaxDoc 10 = 57 := by decide +kernel
  have h1 := ff1TextMax_eq hp
  cases alg with
  | none => exact absurd rfl ha
  | ff1 =>
    constructor <;> simp [contextOf, defaultTweak, upperBound, hk, h6, h1, Config.radixMin, Config.radixMax]
    all_goals omega
  | ff31 =>
    constructor <;> simp [contextOf, defaultTweak, upperBound, hk, h6, h57, ff31TextMax, zeroBytes, Config.radixMin,
      Config.radixMax]
    all_goals omega

/-- The invariant holds of the states of these tests. -/
theorem ready_inv {p : Params} (hp : p.wellFormed = true) {alg : Alg} (ha : alg ≠ .none) {key : Bytes}
    (hk : key.length = 16) {txt twk : Bytes} (hx : txt.length ≤ p.nCap) (ht : twk.length ≤ p.tCap) :
    Inv p (ready p alg key txt twk) where
  buffers :=
    have hnil : Memory.Canonical [] := ⟨List.Pairwise.nil, by simp⟩
    have hin : ∀ n, Memory.Within [] n := by intro n c hc; cases hc
    { key := ⟨hnil, hin _⟩
      twk := ⟨Memory.canonical_store 0 twk hnil, Memory.within_store twk (hin _) (by simpa [bufSize] using ht)⟩
      txt := ⟨Memory.canonical_store 0 txt hnil, Memory.within_store txt (hin _) (by simpa [bufSize] using hx)⟩
      out := ⟨hnil, hin _⟩ }
  status := by constructor <;> simp [ready, State.reset, State.busy, Phase.busy]
  context := by
    unfold ContextConsistent
    exact ⟨contextOf_legal hp ha hk, rfl⟩
  quiet := ⟨rfl, fun _ => ⟨rfl, rfl, rfl⟩⟩
  phase := trivial

/-- The context alone, with an FF1 key, on the hardware at hand. -/
def hardReady (alg : Alg) (txt twk : Bytes) : State := ready Config.hardware alg keyK1 txt twk

theorem hard_bounds : 20 ≤ Config.hardware.nCap ∧ 7 ≤ Config.hardware.tCap := by
  have := wellFormed_bounds hardware_wellFormed; omega

theorem hardReady_inv {alg : Alg} (ha : alg ≠ .none) {txt twk : Bytes} (hx : txt.length ≤ 20) (ht : twk.length ≤ 7) :
    Inv Config.hardware (hardReady alg txt twk) :=
  have hb := hard_bounds
  ready_inv hardware_wellFormed ha (by decide) (by omega) (by omega)

/-- A legal call on such a state, at the least text length. -/
theorem hardReady_call {alg : Alg} (ha : alg ≠ .none) {i : Instr} (hi : isCipher i = true) :
    CallLegal Config.hardware i (hardReady alg (decimal 123456 6) (defaultTweak alg)) := by
  have hb := hard_bounds
  have h6 : textMin 10 = 6 := by decide
  have h57 : ff31TextMaxDoc 10 = 57 := by decide +kernel
  have h1 := ff1TextMax_eq hardware_wellFormed
  refine ⟨hi, rfl, ?_, ?_, ?_⟩
  · cases alg with
    | none => exact absurd rfl ha
    | ff1 =>
      simp only [textLengthLegal, hardReady, ready, contextOf, upperBound, h6, h1]
      exact ⟨by decide, le_trans (show _ ≤ 20 by decide) hb.1⟩
    | ff31 =>
      simp only [textLengthLegal, hardReady, ready, contextOf, upperBound, h6, ff31TextMax, h57]
      exact ⟨by decide, le_min (by decide) (le_trans (show _ ≤ 20 by decide) hb.1)⟩
  · cases alg <;> cases i <;>
      simp_all [tweakLengthLegal, callTweakLength, hardReady, ready, contextOf, defaultTweak, cipherOverride, isCipher,
        zeroBytes]
  · cases alg <;> exact numeralsLegal_iff.mpr (by decide)

/-- P3, lines 38 to 40: `WR CMD, 0x402`, one poll of `WAIT`, `RD ERRCODE`, on an FF3-1 context. -/
theorem test_script_P3 :
    ∃ t u, step ((hardReady .ff31 [] []).withPending
        (scriptEvents [.wr .cmd 0x402, .wait 1, .rd .errcode])) = .next t ∧
      (observe Config.hardware t).value = some 0x56 ∧ step t = .next u ∧
      (observe Config.hardware u).value = some 0x11 :=
  ⟨_, _, rfl, rfl, rfl, rfl⟩

/-! ### Witnesses: command words and host accesses -/

/-- O1: every command is well formed, so `CTX.FF1` is. -/
theorem witness_EveryCommandDecodesItsOwnWord : Instr.ctxFF1.wellFormed = true ∧
    Instr.decT.wellFormed = true := by decide

/-- O6. -/
theorem witness_StepRunsTheDecodedCommand :
    decode 0x302#32 = .ok .decT ∧ (State.reset.issueNext 0x302#32).pending = .command 0x302#32 :: [] := by decide

/-- O7. -/
theorem witness_IllegalWordEndsWithIllegalCommand :
    State.reset.ph = .idle ∧ decode 0x00000000#32 = .error .reservedOp ∧ decode 0xFFFFFFFF#32 = .error .mustBeZero := by
  decide

/-- O8: both clauses, the second in each other phase. -/
theorem witness_CmdWriteIsAcceptedOnlyInIdle :
    State.reset.ph = .idle ∧
      ∀ ph ∈ [Phase.check, .setup, .round, .finish, .fatal], (State.reset.withPhase ph).ph ≠ .idle := by decide

/-- O9. -/
theorem witness_CommandsAreIgnoredUnlessIdle :
    ∀ ph ∈ [Phase.check, .setup, .round, .finish, .fatal], (State.reset.withPhase ph).ph ≠ .idle := by decide

/-- O10: a valid context, none with the first and the last read-back register, and the invariant. -/
theorem witness_RegisterReads :
    (hardReady .ff1 [] []).ctx.valid = true ∧ State.reset.ctx.valid = false ∧ (10 ≤ 10 ∧ 10 < 16) ∧ (10 ≤ 15 ∧
        15 < 16) ∧
      Config.hardware.wellFormed = true ∧ Inv Config.hardware (hardReady .ff1 [] []) :=
  ⟨rfl, rfl, by decide, by decide, hardware_wellFormed, hardReady_inv (by decide) (by decide) (by decide)⟩

/-- O11: the ends of each range of registers. -/
theorem witness_RegisterWrites :
    (∀ k ∈ [4, 9], 4 ≤ k ∧ k < 10) ∧ ∀ k ∈ [1, 3, 10, 15], (1 ≤ k ∧ k < 4) ∨ (10 ≤ k ∧ k < 16) := by decide

/-- O12: the first word after the registers and the first byte after each buffer. -/
theorem witness_EmptyAddressesReadZero : 16 ≤ 16 ∧ ∀ b, bufSize tabled b ≤ bufSize tabled b := ⟨le_rfl, fun _ => le_rfl⟩

/-- O13: the last byte of each buffer; `OUT` just below and at `OUTLEN`. -/
theorem witness_BufferReads :
    31 < 32 ∧ 63 < tabled.tCap ∧ 255 < tabled.nCap ∧
      (9 < tabled.nCap ∧ 9 < (endsOk 10 State.reset).reg.outlen.toNat) ∧
      (10 < tabled.nCap ∧ (endsOk 10 State.reset).reg.outlen.toNat ≤ 10) := by decide

/-- O14: the last byte of `OUT`, `KEY`, `TWK` and `TXT`. -/
theorem witness_BufferWrites :
    BuffersCanonical tabled (ready tabled .ff1 keyK1 [0x31] [0x32]) ∧
      255 < bufSize tabled .out ∧ 31 < bufSize tabled .key ∧ 63 < bufSize tabled .twk ∧ 255 < bufSize tabled .txt ∧
      BufName.txt ≠ .out ∧ ¬(BufName.key = BufName.twk ∧ 31 = 31) ∧ ¬(BufName.key = BufName.key ∧ 30 = 31) :=
  ⟨(ready_inv (by decide) (by decide) (by decide) (by decide) (by decide)).buffers, by decide⟩

/-- O15: the lowest bit of the last clause. -/
theorem witness_StatusFields : 7 ≤ 7 := le_rfl

/-- O16: a command just accepted. -/
theorem witness_ReadsWhileBusy :
    Inv Config.hardware (writeCmd Config.hardware 0x2#32 (hardReady .ff1 [] [])) ∧
      (writeCmd Config.hardware 0x2#32 (hardReady .ff1 [] [])).busy = true :=
  ⟨inv_accept _ (hardReady_inv (by decide) (by decide) (by decide)) rfl, rfl⟩

/-- O17: the first and the last operand register, and a buffer. -/
theorem witness_OperandWritesDoNotDisturbTheEngine :
    operandWrite (.regWrite 4 1) = true ∧ operandWrite (.regWrite 9 1) = true ∧
      operandWrite (.bufWrite .txt 0 1) = true := by decide

/-- O18: two states that differ in the key. -/
theorem witness_KeyMaterialIsNeverReadable :
    keyBlind (ready tabled .ff1 keyK1 [] []) = keyBlind (ready tabled .ff1 keyK3 [] []) ∧
      ready tabled .ff1 keyK1 [] [] ≠ ready tabled .ff1 keyK3 [] [] ∧ isCipher .ctxFF1 = false := by decide +kernel

/-! ### Witnesses: reset, phases, the fatal stop -/

/-- O20: a reset between two requests of a round, and what is still to come. -/
theorem witness_ResetRestoresEverything :
    ((State.reset.withPhase .fatal).withPending [.reset 1, .engine]).pending = .reset 1 :: [.engine] := rfl

/-- O22: a step of each kind from a state of the invariant. -/
theorem witness_EveryStepKeepsTheInvariant :
    Inv Config.hardware (hardReady .ff31 [] []) ∧
      step (hardReady .ff31 [] []) = .next (hardReady .ff31 [] []) ∧
      Inv Config.hardware ((hardReady .ff31 [] []).withPending [.access (.regWrite 0 0x2)]) ∧
      step ((hardReady .ff31 [] []).withPending [.access (.regWrite 0 0x2)]) =
        .next (accept Config.hardware 0x2 (hardReady .ff31 [] [])) :=
  have h := hardReady_inv (alg := .ff31) (txt := []) (twk := []) (by decide) (by decide) (by decide)
  ⟨h, rfl, inv_withPending h _, rfl⟩

/-- O23. -/
theorem witness_NoStepFaults : Inv Config.hardware (accept Config.hardware 0x2 (hardReady .ff31 [] [])) :=
  inv_accept _ (hardReady_inv (by decide) (by decide) (by decide)) rfl

/-- The state after `k` transitions of the accepted word, from a state of these tests. -/
def after (k : Nat) (w : Word) (alg : Alg) (txt twk : Bytes) : State :=
  (runEngine tabled k (Move.start (accept tabled w (ready tabled alg keyK3reversed txt twk)))).state

theorem after_inv (k : Nat) (w : Word) {alg : Alg} (ha : alg ≠ .none) {txt twk : Bytes} (hx : txt.length ≤ 256)
    (ht : twk.length ≤ 64) : Inv tabled (after k w alg txt twk) :=
  inv_runEngine (by decide) k (inv_accept w (ready_inv (by decide) ha (by decide) hx ht) rfl)

/-- Fifty-seven nines, the text of E8 (b), and the text of E8 (a). -/
def nines : Bytes := decimal 999999999999999999999999999999999999999999999999999999999 57
def textE8 : Bytes := decimal 26200262002620026200262002620026200262002620026200262002 57

/-- O24: every phase, the first and the last round of both ciphers, and the fatal stop out of a round. -/
theorem witness_PhaseTransitions :
    (tabled.wellFormed = true ∧ ∀ k, Inv tabled (after k 0x202 .ff31 (decimal 1234567 7) (beBytes 0x0123456789abcd 7)) ∧
      Inv tabled (after k 0x2 .ff1 (decimal 1234567 7) []) ∧ Inv tabled (after k 0x2 .ff31 textE8 [])) ∧
      (after 0 0x202 .ff31 (decimal 1234567 7) (beBytes 0x0123456789abcd 7)).ph = .check ∧
      (after 1 0x202 .ff31 (decimal 1234567 7) (beBytes 0x0123456789abcd 7)).ph = .setup ∧
      (after 2 0x202 .ff31 (decimal 1234567 7) (beBytes 0x0123456789abcd 7)).ph = .round ∧
      (after 2 0x202 .ff31 (decimal 1234567 7) (beBytes 0x0123456789abcd 7)).rnd + 1 < 8 ∧
      (after 9 0x202 .ff31 (decimal 1234567 7) (beBytes 0x0123456789abcd 7)).rnd + 1 = 8 ∧
      (after 10 0x202 .ff31 (decimal 1234567 7) (beBytes 0x0123456789abcd 7)).ph = .finish ∧
      (after 11 0x202 .ff31 (decimal 1234567 7) (beBytes 0x0123456789abcd 7)).ph = .idle ∧
      (after 11 0x2 .ff1 (decimal 1234567 7) []).rnd + 1 = 10 ∧ (after 12 0x2 .ff1
          (decimal 1234567 7) []).ph = .finish ∧
      (after 3 0x2 .ff31 textE8 []).ph = .round ∧ (after 4 0x2 .ff31 textE8 []).ph = .fatal :=
  ⟨⟨by decide, fun k => ⟨after_inv k _ (by decide) (by decide) (by decide),
      after_inv k _ (by decide) (by decide) (by decide),
    after_inv k _ (by decide) (by decide) (by decide)⟩⟩, by decide +kernel⟩

/-- O25: a command just accepted. -/
theorem witness_EveryCommandEnds :
    tabled.wellFormed = true ∧ Inv tabled (after 0 0x2 .ff1 (decimal 1234567 7) []) ∧
      (after 0 0x2 .ff1 (decimal 1234567 7) []).busy = true :=
  ⟨by decide, after_inv 0 _ (by decide) (by decide) (by decide), rfl⟩

/-- O26. -/
theorem witness_PhaseByPhaseEqualsAtOnce :
    Inv Config.hardware (hardReady .ff1 (decimal 123456 6) []) ∧ (hardReady .ff1 (decimal 123456 6) []).ph = .idle :=
  ⟨hardReady_inv (by decide) (by decide) (by decide), rfl⟩

/-- O27: a command that comes too late. -/
theorem witness_FatalStopLatches :
    (State.reset.withPhase .fatal).ph = .fatal ∧
      ∀ k, ((State.reset.withPhase .fatal).issueNext 0x2).nextEvent ≠ .reset k :=
  ⟨rfl, fun _ h => by cases h⟩

/-- O28: the engine's move of round 1 of E8 (a), and the whole command of E8 (b). -/
theorem witness_FatalOnlyOnFF31Overflow :
    (tabled.wellFormed = true ∧ Inv tabled (after 3 0x2 .ff31 textE8 []) ∧
      Inv tabled (ready tabled .ff31 keyK3reversed nines [])) ∧
    (after 3 0x2 .ff31 textE8 []).ph ≠ .fatal ∧
      (engineMove tabled (Move.start (after 3 0x2 .ff31 textE8 []))).state.ph = .fatal ∧
      (ready tabled .ff31 keyK3reversed nines []).ph ≠ .fatal ∧
      (moveWord tabled 0x102 (ready tabled .ff31 keyK3reversed nines [])).state.ph = .fatal :=
  ⟨⟨by decide, after_inv 3 _ (by decide) (by decide) (by decide),
    ready_inv (by decide) (by decide) (by decide) (by decide) (by decide)⟩, by decide +kernel⟩

/-! ### Witnesses: what a command writes -/

/-- The first character of a result of FF1 is no zero byte. -/
theorem ff1_result_head (p : Params) (key : Option Bytes) (t : Bytes) {x : Bytes} (hx : allDigits 10 x = true) :
    ∀ ch ∈ ff1Cipher p key 10 .encrypt t x, ch ≠ 0 := by
  have hd : allDigits 10 (ff1Cipher p key 10 .encrypt t x) = true := by
    have hs := splitHalves_digits hx .encrypt (x.length / 2) x.length
    have h := ff1_halves_digits (p := p) (key := key) (n := x.length) (t := t) (d := .encrypt) (by decide) (by decide)
      (List.range 10) hs.1 hs.2
    show allDigits 10 (_ ++ _) = true
    rw [allDigits, List.all_append, Bool.and_eq_true]
    exact h
  intro ch h h0
  subst h0
  have := List.all_eq_true.mp hd 0 h
  revert this
  decide

/-- `ENC` on a concrete FF1 context completes on the hardware at hand, with the result in `OUT`. -/
theorem hard_enc_result :
    exec .enc (hardReady .ff1 (decimal 123456 6) []) = .next (endsWithResult
      (ff1Cipher Config.hardware (some keyK1) 10 .encrypt [] (decimal 123456 6))
        (hardReady .ff1 (decimal 123456 6) [])) := by
  have hinv := hardReady_inv (alg := .ff1) (txt := decimal 123456 6) (twk := []) (by decide) (by decide) (by decide)
  have hcall := hardReady_call (alg := .ff1) (i := .enc) (by decide) rfl
  have hx : textInput (hardReady .ff1 (decimal 123456 6) []) = decimal 123456 6 := by decide
  obtain ⟨h0, hc, ho, hcl, hch, -⟩ := cipher_passes hinv rfl hcall
  obtain ⟨h1, h2, h3, h4⟩ := cipherSetup_operands hinv hcall
  have hrun := ff1_command_run hardware_wellFormed
    (s := cipherSetup Config.hardware .enc (hardReady .ff1 (decimal 123456 6) [])) rfl rfl hc ho hch
  rw [h1, h2, h3] at hrun
  have hctx : (cipherSetup Config.hardware .enc (hardReady .ff1 (decimal 123456 6) [])).ctx =
      contextOf Config.hardware .ff1 keyK1 := rfl
  rw [hctx, completeOk_cipherSetup (by rw [ff1Cipher_length, h4])] at hrun
  rw [exec_eq, h0]
  show Host.Outcome.next (runEngine Config.hardware 12 ⟨cipherSetup Config.hardware .enc _, []⟩).state = _
  rw [hrun, hx]
  rfl

/-- A cipher command that changes `OUT`. -/
theorem hard_enc_out :
    exec .enc (hardReady .ff1 (decimal 123456 6) []) = .next (endsWithResult
      (ff1Cipher Config.hardware (some keyK1) 10 .encrypt [] (decimal 123456 6)) (hardReady .ff1 (decimal 123456 6) []))
    ∧ (endsWithResult (ff1Cipher Config.hardware (some keyK1) 10 .encrypt [] (decimal 123456 6))
        (hardReady .ff1 (decimal 123456 6) [])).buf.out ≠ (hardReady .ff1 (decimal 123456 6) []).buf.out := by
  refine ⟨hard_enc_result, fun h => ?_⟩
  have hlen := ff1Cipher_length Config.hardware (some keyK1) 10 .encrypt [] (decimal 123456 6)
  have hch := ff1_result_head Config.hardware (some keyK1) [] (x := decimal 123456 6) (by decide)
  generalize ff1Cipher Config.hardware (some keyK1) 10 .encrypt [] (decimal 123456 6) = res at h hlen hch
  have h6 : (decimal 123456 6).length = 6 := by decide
  have hr := Memory.read_store (m := []) ⟨List.Pairwise.nil, by simp⟩ 0 res 0
  have h' : Memory.store [] 0 res = [] := h
  rw [h', dif_pos (by omega)] at hr
  exact hch _ (List.getElem_mem _) hr.symm

/-- Before the commit of a result of one character. -/
def beforeCommit : State :=
  ((accept Config.hardware 0x2 (hardReady .ff1 [] [])).withPhase .finish).withWork
    { Work.zero with n := 1, a := [0x31] }

/-- A state whose `OUT` holds a byte. -/
def written : State := { State.reset with buf := { State.reset.buf with out := [(0, 0x31)] } }

/-- O30: a whole command by `exec` and as a step, a reset, and the engine's move out of FINISH; each changes `OUT`. -/
theorem witness_OutIsWrittenOnlyBySuccess :
    (∃ t, exec .enc (hardReady .ff1 (decimal 123456 6) []) = .next t ∧
      step ((hardReady .ff1 (decimal 123456 6) []).issueNext 0x2) = .next t ∧
      t.buf.out ≠ (hardReady .ff1 (decimal 123456 6) []).buf.out) ∧
    (∃ t, step (written.withPending [.reset 0]) = .next t ∧ t.buf.out ≠ (written.withPending [.reset 0]).buf.out) ∧
    ∃ t, step beforeCommit = .next t ∧ t.buf.out ≠ beforeCommit.buf.out :=
  ⟨⟨_, hard_enc_out.1, hard_enc_out.1, hard_enc_out.2⟩, ⟨_, rfl, by decide⟩, ⟨_, rfl, by decide⟩⟩

/-- The operands of a context command and no context: the invariant. -/
theorem operands_inv {p : Params} {key twk : Bytes} (hk : key.length ≤ 32)
    (ht : twk.length ≤ p.tCap) (radix lo hi : Word) : Inv p (operands key radix twk lo hi) where
  buffers :=
    have hnil : Memory.Canonical [] := ⟨List.Pairwise.nil, by simp⟩
    have hin : ∀ n, Memory.Within [] n := by intro n c hc; cases hc
    { key := ⟨Memory.canonical_store 0 key hnil, Memory.within_store key (hin _) (by simpa [bufSize] using hk)⟩
      twk := ⟨Memory.canonical_store 0 twk hnil, Memory.within_store twk (hin _) (by simpa [bufSize] using ht)⟩
      txt := ⟨hnil, hin _⟩
      out := ⟨hnil, hin _⟩ }
  status := by constructor <;> simp [operands, State.reset, State.busy, Phase.busy]
  context := ⟨rfl, rfl⟩
  quiet := ⟨rfl, fun _ => ⟨rfl, rfl, rfl⟩⟩
  phase := trivial

/-- O31: each of the three events that may change the context. -/
theorem witness_ContextChangesOnlyByContextCommandsAndReset :
    (∃ t, step ((hardReady .ff1 [] []).withPending [.reset 0]) = .next t ∧ t.ctx ≠ (hardReady .ff1 [] []).ctx) ∧
    (∃ t, step ((operands keyK1 10 (zeroBytes 7) 0 0).withPending [.command 0x21]) = .next t ∧
      t.ctx ≠ (operands keyK1 10 (zeroBytes 7) 0 0).ctx) ∧
    ∃ t, step (((accept Config.hardware 0x21 (operands keyK1 10 (zeroBytes 7) 0 0)).withPhase .finish).withPending
        [.engine]) = .next t ∧ t.ctx ≠ (operands keyK1 10 (zeroBytes 7) 0 0).ctx := by
  have herr : ctxFF31Error Config.hardware
      (latchOperands Config.hardware (encode .ctxFF31) (operands keyK1 10 (zeroBytes 7) 0 0).reg
        (operands keyK1 10 (zeroBytes 7) 0 0).buf) = none := by
    rw [ctxFF31Error_eq hardware_wellFormed, if_neg (by decide), if_neg (by decide), if_neg (by decide)]
  have hne : ∀ c : Context, c.valid = true → c ≠ (operands keyK1 10 (zeroBytes 7) 0 0).ctx := by
    intro c hc h; rw [h] at hc; cases hc
  refine ⟨⟨_, rfl, fun h => by cases congrArg Context.valid h⟩, ⟨_, rfl, hne _ ?_⟩, ⟨_, rfl, hne _ rfl⟩⟩
  show (moveCtxFF31 Config.hardware (operands keyK1 10 (zeroBytes 7) 0 0)).state.ctx.valid = true
  rw [moveCtxFF31_idle rfl, herr]
  rfl

/-- O32: `ENC` on an empty text. -/
theorem witness_RecoverableErrorHasNoSideEffect :
    Inv Config.hardware (hardReady .ff1 [] []) ∧ (hardReady .ff1 [] []).ph = .idle ∧
      exec .enc (hardReady .ff1 [] []) = .next (endsWithError .invalidTextLength (hardReady .ff1 [] [])) ∧
      (endsWithError .invalidTextLength (hardReady .ff1 [] [])).ph = .idle ∧
      (endsWithError .invalidTextLength (hardReady .ff1 [] [])).reg.err = true :=
  ⟨hardReady_inv (by decide) (by decide) (by decide), rfl, rfl, rfl, rfl⟩

/-- O33: a command that succeeds. -/
theorem witness_ReissuingGivesTheSame :
    Inv Config.hardware (hardReady .ff1 (decimal 123456 6) []) ∧
      (hardReady .ff1 (decimal 123456 6) []).ph = .idle ∧
      exec .enc (hardReady .ff1 (decimal 123456 6) []) = .next (endsWithResult
        (ff1Cipher Config.hardware (some keyK1) 10 .encrypt [] (decimal 123456 6))
        (hardReady .ff1 (decimal 123456 6) [])) ∧
      (endsWithResult (ff1Cipher Config.hardware (some keyK1) 10 .encrypt [] (decimal 123456 6))
        (hardReady .ff1 (decimal 123456 6) [])).ph = .idle :=
  ⟨hardReady_inv (by decide) (by decide) (by decide), rfl, hard_enc_result, rfl⟩

/-! ### Witnesses: context construction -/

/-- The operands that `CtxFF1StoresTheContext` asks for. -/
def LegalFF1 (s : State) : Prop :=
  s.ph = .idle ∧ (s.reg.keylen.toNat = 16 ∨ s.reg.keylen.toNat = 24 ∨ s.reg.keylen.toNat = 32) ∧
    2 ≤ s.reg.radix.toNat ∧ s.reg.radix.toNat ≤ 36 ∧
    (s.reg.twkmax.toNat ≠ 0 → s.reg.twkmin.toNat ≤ s.reg.twkmax.toNat) ∧
    s.reg.twklen.toNat ≤ Config.hardware.tCap ∧ s.reg.twkmin.toNat ≤ s.reg.twklen.toNat ∧
    (s.reg.twkmax.toNat ≠ 0 → s.reg.twklen.toNat ≤ s.reg.twkmax.toNat)

/-- O34: no bounds on the tweak; and the least and the greatest values of every range. -/
theorem witness_CtxFF1StoresTheContext :
    LegalFF1 (operands keyK1 10 [] 0 0) ∧ LegalFF1 (operands (keyK1 ++ zeroBytes 8) 2 (zeroBytes 7) 7 7) ∧
      LegalFF1 (operands (keyK1 ++ keyK3) 36 (zeroBytes 7) 7 0) := by
  have hb := hard_bounds
  refine ⟨⟨rfl, by decide, by decide, by decide, by decide, ?_, by decide, by decide⟩,
    ⟨rfl, by decide, by decide, by decide, by decide, ?_, by decide, by decide⟩,
    ⟨rfl, by decide, by decide, by decide, by decide, ?_, by decide, by decide⟩⟩ <;>
    exact le_trans (show _ ≤ 7 by decide) hb.2

/-- The first failing check of `CTX.FF1` with a tweak that fits, as `CtxFF1ReportsTheFirstFailure` lists the checks. -/
def failureFF1 (s : State) : Option ErrorName :=
  if ¬(s.reg.keylen.toNat = 16 ∨ s.reg.keylen.toNat = 24 ∨ s.reg.keylen.toNat = 32) then some .invalidKeySize
  else if s.reg.radix.toNat < 2 ∨ 36 < s.reg.radix.toNat then some .invalidRadix
  else if s.reg.twkmax.toNat < s.reg.twkmin.toNat ∧ s.reg.twkmax.toNat ≠ 0 then some .invalidTweakLength
  else if Config.hardware.tCap < s.reg.twklen.toNat then some .invalidTweakLength
  else if s.reg.twklen.toNat < s.reg.twkmin.toNat then some .invalidTweakLength
  else if s.reg.twkmax.toNat ≠ 0 ∧ s.reg.twkmax.toNat < s.reg.twklen.toNat then some .invalidTweakLength
  else none

/-- O35: each check at the edge of its range. (Whether a TWKLEN above T_CAP exists depends on T_CAP, which is open.) -/
theorem witness_CtxFF1ReportsTheFirstFailure :
    failureFF1 (operands (zeroBytes 15) 1 [] 0 0) = some .invalidKeySize ∧
      failureFF1 (operands keyK1 1 [] 0 0) = some .invalidRadix ∧
      failureFF1 (operands keyK1 37 [] 0 0) = some .invalidRadix ∧
      failureFF1 (operands keyK1 10 [] 2 1) = some .invalidTweakLength ∧
      failureFF1 (operands keyK1 10 (zeroBytes 6) 7 0) = some .invalidTweakLength ∧
      failureFF1 (operands keyK1 10 (zeroBytes 7) 0 6) = some .invalidTweakLength := by
  have hb := hard_bounds
  have h6 : ¬Config.hardware.tCap < 6 := by omega
  have h7 : ¬Config.hardware.tCap < 7 := by omega
  refine ⟨rfl, rfl, rfl, rfl, ?_, ?_⟩
  · show (if Config.hardware.tCap < 6 then _ else _) = _
    rw [if_neg h6]; rfl
  · show (if Config.hardware.tCap < 7 then _ else _) = _
    rw [if_neg h7]; rfl

/-- O36: the least and the greatest radix, key lengths of 24 and 32. -/
theorem witness_CtxFF31StoresTheContext :
    (∀ s ∈ [operands (keyK1 ++ zeroBytes 8) 2 (zeroBytes 7) 0 0, operands (keyK1 ++ keyK3) 36 (zeroBytes 7) 9 3],
      s.ph = .idle ∧ (s.reg.keylen.toNat = 16 ∨ s.reg.keylen.toNat = 24 ∨ s.reg.keylen.toNat = 32) ∧
        2 ≤ s.reg.radix.toNat ∧ s.reg.radix.toNat ≤ 36 ∧ s.reg.twklen.toNat = 7) := by decide

/-- The first failing check of `CTX.FF31`, as `CtxFF31ReportsTheFirstFailure` lists the checks. -/
def failureFF31 (s : State) : Option ErrorName :=
  if ¬(s.reg.keylen.toNat = 16 ∨ s.reg.keylen.toNat = 24 ∨ s.reg.keylen.toNat = 32) then some .invalidKeySize
  else if s.reg.radix.toNat < 2 ∨ 36 < s.reg.radix.toNat then some .invalidRadix
  else if s.reg.twklen.toNat ≠ 7 then some .invalidTweakLength
  else none

/-- O37: each check, with tweak lengths on both sides of 7. -/
theorem witness_CtxFF31ReportsTheFirstFailure :
    failureFF31 (operands (zeroBytes 17) 1 [] 0 0) = some .invalidKeySize ∧
      failureFF31 (operands keyK1 37 [] 0 0) = some .invalidRadix ∧
      failureFF31 (operands keyK1 10 (zeroBytes 6) 0 0) = some .invalidTweakLength ∧
      failureFF31 (operands keyK1 10 (zeroBytes 8) 0 0) = some .invalidTweakLength := by decide

/-- O38: the least and the greatest radix. -/
theorem witness_TextBoundsAreTheIntegerLogarithms : (2 ≤ 2 ∧ 2 ≤ 36) ∧ (2 ≤ 36 ∧ 36 ≤ 36) := by decide

/-- O39: the smallest capacities, and capacities above 192. -/
theorem witness_TextBoundCheckNeverFails :
    (capacities 20 7).wellFormed = true ∧ tabled.wellFormed = true ∧ 192 ≤ tabled.nCap ∧ 2 ≤ 2 ∧ 36 ≤ 36 := by decide

/-! ### Witnesses: cipher commands -/

/-- O40: each of the four failures. -/
theorem witness_CipherReportsTheFirstFailure :
    (Inv Config.hardware (operands keyK1 10 [] 0 0) ∧ (operands keyK1 10 [] 0 0).ctx.valid = false) ∧
    (Inv Config.hardware (hardReady .ff1 (decimal 12345 5) []) ∧ ¬textLengthLegal (hardReady .ff1
        (decimal 12345 5) [])) ∧
    (Inv Config.hardware (hardReady .ff31 (decimal 123456 6) (zeroBytes 6)) ∧
      textLengthLegal (hardReady .ff31 (decimal 123456 6) (zeroBytes 6)) ∧
      ¬tweakLengthLegal Config.hardware .encT (hardReady .ff31 (decimal 123456 6) (zeroBytes 6))) ∧
    (Inv Config.hardware (hardReady .ff1 (0x61 :: decimal 12345 5) []) ∧
      textLengthLegal (hardReady .ff1 (0x61 :: decimal 12345 5) []) ∧
      tweakLengthLegal Config.hardware .encT (hardReady .ff1 (0x61 :: decimal 12345 5) []) ∧
      ¬numeralsLegal (hardReady .ff1 (0x61 :: decimal 12345 5) [])) :=
  ⟨⟨operands_inv (by decide) (Nat.zero_le _) _ _ _, rfl⟩,
    ⟨hardReady_inv (by decide) (by decide) (by decide), fun h => by have := h.1; revert this; decide⟩,
    ⟨hardReady_inv (by decide) (by decide) (by decide), (hardReady_call (alg := .ff31) (i :=
        .enc) (by decide) rfl).text,
      fun h => by have := h.2.1; revert this; decide⟩,
    ⟨hardReady_inv (by decide) (by decide) (by decide), (hardReady_call (alg := .ff1) (i :=
        .encT) (by decide) rfl).text,
      (hardReady_call (alg := .ff1) (i := .encT) (by decide) rfl).tweak,
      fun h => by have := numeralsLegal_iff.mp h; revert this; decide⟩⟩

/-- O41: the check with a default tweak at both its bounds, and both commands, one that succeeds and one that fails. -/
theorem witness_DefaultTweakAlwaysPasses :
    (Inv tabled (ready tabled .ff31 keyK3reversed [] []) ∧
      (ready tabled .ff31 keyK3reversed [] []).ctx.valid = true) ∧
    (Inv Config.hardware (hardReady .ff1 (decimal 123456 6) []) ∧ (hardReady .ff1 (decimal 123456 6) []).ph = .idle ∧
      ∃ t, exec .enc (hardReady .ff1 (decimal 123456 6) []) = .next t) ∧
    (Inv Config.hardware (hardReady .ff1 [] []) ∧ (hardReady .ff1 [] []).ph = .idle ∧
      ∃ t, exec .dec (hardReady .ff1 [] []) = .next t) :=
  ⟨⟨ready_inv (by decide) (by decide) (by decide) (by decide) (by decide), rfl⟩,
    ⟨hardReady_inv (by decide) (by decide) (by decide), rfl, _, hard_enc_result⟩,
    ⟨hardReady_inv (by decide) (by decide) (by decide), rfl, _, rfl⟩⟩

/-- O42: all four commands, at the least text length. -/
theorem witness_CipherCommandsComputeFF1 :
    ∀ i ∈ [Instr.enc, Instr.encT, Instr.dec, Instr.decT],
      Inv Config.hardware (hardReady .ff1 (decimal 123456 6) []) ∧ (hardReady .ff1 (decimal 123456 6) []).ph = .idle ∧
        CallLegal Config.hardware i (hardReady .ff1 (decimal 123456 6) []) ∧
        (hardReady .ff1 (decimal 123456 6) []).ctx.alg = .ff1 := by
  intro i hi
  have h : isCipher i = true := by revert i; decide
  exact ⟨hardReady_inv (by decide) (by decide) (by decide), rfl, hardReady_call (alg := .ff1) (by decide) h, rfl⟩

/-- O43: all four commands, at the least text length. -/
theorem witness_CipherCommandsComputeFF31 :
    ∀ i ∈ [Instr.enc, Instr.encT, Instr.dec, Instr.decT],
      Inv Config.hardware (hardReady .ff31 (decimal 123456 6) (zeroBytes 7)) ∧
        CallLegal Config.hardware i (hardReady .ff31 (decimal 123456 6) (zeroBytes 7)) ∧
        (hardReady .ff31 (decimal 123456 6) (zeroBytes 7)).ctx.alg = .ff31 ∧
        (hardReady .ff31 (decimal 123456 6) (zeroBytes 7)).ctx.radix ^
          (((hardReady .ff31 (decimal 123456 6) (zeroBytes 7)).reg.txtlen.toNat + 1) / 2) ≤ 2 ^ 96 := by
  intro i hi
  have h : isCipher i = true := by revert i; decide
  exact ⟨hardReady_inv (by decide) (by decide) (by decide), hardReady_call (alg := .ff31) (by decide) h, rfl, by decide⟩

/-- A legal call on the table. -/
theorem tabled_call {i : Instr} (hi : isCipher i = true) {x : Bytes} {twk : Bytes}
    (hx : textLengthLegal (ready tabled .ff31 keyK3reversed x twk))
    (ht : tweakLengthLegal tabled i (ready tabled .ff31 keyK3reversed x twk))
    (hd : allDigits 10 (textInput (ready tabled .ff31 keyK3reversed x twk)) = true) :
    CallLegal tabled i (ready tabled .ff31 keyK3reversed x twk) :=
  ⟨hi, rfl, hx, ht, numeralsLegal_iff.mpr hd⟩

/-- O44: E2 completes, E8 (a) and E8 (b) overflow; all three calls are legal. -/
theorem witness_FF31CommandCompletesOrOverflows :
    (CallLegal tabled .encT (ready tabled .ff31 keyK3reversed (decimal 1234567 7) (beBytes 0x0123456789abcd 7)) ∧
      CallLegal tabled .enc (ready tabled .ff31 keyK3reversed textE8 []) ∧
      CallLegal tabled .dec (ready tabled .ff31 keyK3reversed nines [])) ∧
    ff31Cipher tabled (some keyK3reversed) 10 .encrypt (beBytes 0x0123456789abcd 7) (decimal 1234567 7)
        = some (decimal 7650627 7) ∧
      ff31Cipher tabled (some keyK3reversed) 10 .encrypt (zeroBytes 7) textE8 = none ∧
      ff31Cipher tabled (some keyK3reversed) 10 .decrypt (zeroBytes 7) nines = none := by
  refine ⟨⟨tabled_call rfl ?_ ?_ (by decide +kernel), tabled_call rfl ?_ ?_ (by decide +kernel),
    tabled_call rfl ?_ ?_ (by decide +kernel)⟩, by decide +kernel⟩ <;>
    first
    | (unfold textLengthLegal; decide +kernel)
    | (unfold tweakLengthLegal; decide +kernel)

/-- O45: a result of ten characters, its last character and the byte after it. -/
theorem witness_ResultIsReadBackFromOut :
    tabled.wellFormed = true ∧ BuffersCanonical tabled (ready tabled .ff1 keyK1 [] []) ∧
      (decimal 2433477484 10).length ≤ tabled.nCap ∧ 9 < (decimal 2433477484 10).length ∧
      (decimal 2433477484 10).length ≤ 10 :=
  ⟨by decide, (ready_inv (by decide) (by decide) (by decide) (by decide) (by decide)).buffers, by decide⟩

/-- O46: the longest text that cannot overflow in radix 10, and one that does. -/
theorem witness_FF31OverflowBoundary :
    (2 ≤ (decimal 0 56).length ∧ allDigits 10 (decimal 0 56) = true ∧ 10 ^ (((decimal 0 56).length + 1) / 2) ≤ 2 ^ 96) ∧
      (2 ≤ nines.length ∧ allDigits 10 nines = true ∧
        2 ^ 96 ≤ numRadix 10 (revs (nines.take (nines.length - nines.length / 2)))) := by decide +kernel

/-- O47, O49: the text of V1, and one with an upper-case letter in radix 16. -/
theorem witness_FF1InverseLaw :
    (2 ≤ 10 ∧ 10 ≤ 36 ∧ 2 ≤ (decimal 123456789 10).length ∧ allDigits 10 (decimal 123456789 10) = true ∧
      ∀ ch ∈ decimal 123456789 10, ch.toNat < 0x41 ∨ 0x5A < ch.toNat) ∧
    (2 ≤ [0x41, 0x46].length ∧ allDigits 16 [0x41, 0x46] = true) := by decide

/-- O48, O49: the two directions of E2. -/
theorem witness_FF31InverseLaw :
    2 ≤ (decimal 1234567 7).length ∧ allDigits 10 (decimal 1234567 7) = true ∧ allDigits 10 (decimal 7650627 7) = true ∧
      ff31Cipher tabled (some keyK3reversed) 10 .encrypt (beBytes 0x0123456789abcd 7) (decimal 1234567 7)
        = some (decimal 7650627 7) ∧
      ff31Cipher tabled (some keyK3reversed) 10 .decrypt (beBytes 0x0123456789abcd 7) (decimal 7650627 7)
        = some (decimal 1234567 7) := by decide +kernel

/-- O50: both cases, the second with the most transactions before an overflow that these vectors have. -/
theorem witness_TransactionCounts :
    ff31Cipher tabled (some keyK3reversed) 10 .encrypt (beBytes 0x0123456789abcd 7) (decimal 1234567 7) ≠ none ∧
      ff31Cipher tabled (some keyK3reversed) 10 .encrypt (zeroBytes 7) textE8 = none := by decide +kernel

/-! ### Witnesses: the keyed block function and the numeral codec -/

/-- O51: the lengths on each side of each clause. -/
theorem witness_PrfIsTheChainOfItsBlocks :
    (∀ n ∈ [0, 15, 17], (zeroBytes n).length = 0 ∨ (zeroBytes n).length % 16 ≠ 0) ∧
      ∀ n ∈ [16, 32], (zeroBytes n).length ≠ 0 ∧ (zeroBytes n).length % 16 = 0 := by decide

/-- O52. -/
theorem witness_CiphIsOneEncryption :
    (zeroBytes 16).length = 16 ∧ (Move.start (ready tabled .ff1 keyK1 [] [])).state.aespKey = some keyK1 := ⟨rfl, rfl⟩

/-- O53: the digits at the ends of each range. -/
theorem witness_DigitsByCharacterRange :
    digit 0x39 10 = some 9 ∧ digit 0x61 11 = some 10 ∧ digit 0x7A 36 = some 35 ∧ digit 0x5A 36 = some 35 ∧
      digit 0x39 9 = none := by decide

/-- O54. -/
theorem witness_DecodeIsThePositionalValue :
    decodeNumeral [] 10 = none ∧ decodeNumeral [0x3A] 36 = none ∧ decodeNumeral [0x30, 0x30, 0x37, 0x37,
        0x33] 10 = some 773 := by
  decide

/-- O55: the least width, the greatest value of it, and a string with an upper-case letter. -/
theorem witness_CodecRoundTrips :
    (1 ≤ 1 ∧ 35 < 36 ^ 1) ∧ [0x5A] ≠ ([] : Bytes) ∧ ∀ ch ∈ ([0x5A] : Bytes), digit ch 36 = some 35 := by decide

/-- O56. -/
theorem witness_BigEndianBytesRoundTrip : be 256 1 = none ∧ be 255 1 = some [0xFF] := by decide

/-- O57: the least radix. -/
theorem witness_ByteWidthsAreLeast : 2 ≤ 2 := le_rfl

/-- O58: the last round of V1, and a padding byte in front of the round index. -/
theorem witness_VariableBlockLayout :
    numRadix 10 (decimal 24334 5) < 256 ^ 3 ∧ 9 < 10 ∧ 0 + 3 + 1 < (ff1Q 10 [] 3 9 (decimal 24334 5)).length :=
        by decide

end Sys2Proof.Tests
end

section
/-! SUPPORT. The engine reads neither the pending events nor the earlier transactions, so a command run phase by phase
is the command run at once (O26). -/

namespace Sys2Proof.Machine

/-! ### A move with other events pending and with earlier transactions -/

/-- The move with the events `es` pending, `tx` being the transactions made before it. -/
def Move.inRun (m : Move) (es : List Event) (tx : List PortTxn) : Move := ⟨m.state.withPending es, tx ++ m.txns⟩

@[simp] theorem Move.inRun_state (m : Move) (es : List Event) (tx : List PortTxn) :
    (m.inRun es tx).state = m.state.withPending es := rfl

/-- `inRun` is `outside` where the host registers and the buffers stay. -/
theorem Move.outside_same (m : Move) (es : List Event) (tx : List PortTxn) :
    m.outside m.state.reg m.state.buf es tx = m.inRun es tx := rfl

/-- Every move is its state's start, continued. -/
theorem Move.inRun_start (m : Move) : (Move.start m.state).inRun m.state.pending m.txns = m := by
  simp [Move.inRun, Move.start]

theorem raiseError_withPending (e : ErrorName) (s : State) (es : List Event) :
    raiseError e (s.withPending es) = (raiseError e s).withPending es := by
  simp only [raiseError_eq, State.withPending]

/-- A blind flow that keeps the outside settles alike in every run: its error, too, is settled from a state that differs
in the pending events only. -/
theorem settle_inRun {x : Move → Flow Unit} (hb : Blind x) (hk : ∀ m, OutsideKept m.state (x m).move.state)
    (m : Move) (es : List Event) (tx : List PortTxn) : (x (m.inRun es tx)).settle = (x m).settle.inRun es tx := by
  have hkept := hk m
  rw [← Move.outside_same, hb]
  cases hx : x m with
  | ok u n =>
    rw [hx] at hkept
    rw [← hkept.reg, ← hkept.buf]
    rfl
  | raised e n =>
    rw [hx] at hkept
    rw [← hkept.reg, ← hkept.buf]
    exact congrArg (Move.mk · (tx ++ n.txns)) (raiseError_withPending e n.state es)

/-! ### Each phase in a run -/

theorem checkPhase_withPending (p : Params) (s : State) (es : List Event) :
    checkPhase p (s.withPending es) = (checkPhase p s).withPending es := by
  have hcipher : cipherFrontEnd p (s.withPending es) = (cipherFrontEnd p s).withPending es := by
    have hops : takeOperands (s.withPending es) = (takeOperands s).withPending es := rfl
    have herr : operandError p ((takeOperands s).withPending es) = operandError p (takeOperands s) := rfl
    simp only [cipherFrontEnd, hops, herr, State.withPending_ctx, raiseError_withPending]
    split
    · rfl
    · cases operandError p (takeOperands s) with
      | none => rfl
      | some e => rfl
  have hctx : ∀ err, settleCheck err (s.withPending es) = (settleCheck err s).withPending es := by
    intro err
    cases err with
    | none => rfl
    | some e => exact raiseError_withPending e s es
  unfold checkPhase
  rw [State.withPending_lat]
  cases decode s.lat.cmd with
  | error e => exact raiseError_withPending _ s es
  | ok i =>
    cases i
    case ctxFF1 => exact hctx (ctxFF1Error p s.lat)
    case ctxFF31 => exact hctx (ctxFF31Error p s.lat)
    all_goals exact hcipher

theorem setupPhase_inRun (m : Move) (es : List Event) (tx : List PortTxn) :
    setupPhase (m.inRun es tx) = (setupPhase m).inRun es tx := by
  unfold setupPhase
  rw [Move.inRun_state, State.withPending_ctx]
  cases m.state.ctx.alg with
  | none => rfl
  | ff1 => exact settle_inRun blind_ff1Setup kept_ff1SetupFlow m es tx
  | ff31 => rfl

theorem roundPhase_inRun (p : Params) (m : Move) (es : List Event) (tx : List PortTxn) :
    roundPhase p (m.inRun es tx) = (roundPhase p m).inRun es tx := by
  unfold roundPhase
  rw [Move.inRun_state, State.withPending_ctx]
  cases m.state.ctx.alg with
  | none => rfl
  | ff1 => exact settle_inRun (blind_ff1Round p) (kept_ff1RoundFlow p) m es tx
  | ff31 => exact settle_inRun (blind_ff31Round p) (kept_ff31RoundFlow p) m es tx

theorem commitContext_inRun (c : Context) (m : Move) (es : List Event) (tx : List PortTxn) :
    commitContext c (m.inRun es tx) = (commitContext c m).inRun es tx := by
  simp only [commitContext_eq, Move.inRun, List.append_assoc]
  rfl

theorem finishPhase_inRun (p : Params) (m : Move) (es : List Event) (tx : List PortTxn) :
    finishPhase p (m.inRun es tx) = (finishPhase p m).inRun es tx := by
  unfold finishPhase
  rw [Move.inRun_state, State.withPending_lat]
  cases decode m.state.lat.cmd with
  | error e => rfl
  | ok i =>
    cases i
    case ctxFF1 => exact commitContext_inRun (ctxFF1Context p m.state.lat) m es tx
    case ctxFF31 => exact commitContext_inRun (ctxFF31Context p m.state.lat) m es tx
    all_goals rfl

/-- The engine reads neither the pending events nor the transactions made so far (log 7). -/
theorem engineMove_inRun (p : Params) (m : Move) (es : List Event) (tx : List PortTxn) :
    engineMove p (m.inRun es tx) = (engineMove p m).inRun es tx := by
  unfold engineMove
  rw [Move.inRun_state, State.withPending_ph]
  cases m.state.ph with
  | idle => rfl
  | check => exact congrArg (Move.mk · (tx ++ m.txns)) (checkPhase_withPending p m.state es)
  | setup => exact setupPhase_inRun m es tx
  | round => exact roundPhase_inRun p m es tx
  | finish => exact finishPhase_inRun p m es tx
  | fatal => rfl

theorem runEngine_inRun (p : Params) (k : Nat) (m : Move) (es : List Event) (tx : List PortTxn) :
    runEngine p k (m.inRun es tx) = (runEngine p k m).inRun es tx := by
  induction k generalizing m with
  | zero => rfl
  | succ k ih => rw [runEngine, engineMove_inRun, ih, runEngine]

/-- Where the engine arrives does not depend on the transactions made before. -/
theorem runEngine_start_state (p : Params) (k : Nat) (m : Move) :
    (runEngine p k (Move.start m.state)).state.withPending [] = (runEngine p k m).state.withPending [] := by
  have h := runEngine_inRun p k (Move.start m.state) m.state.pending m.txns
  rw [Move.inRun_start] at h
  rw [h, Move.inRun_state, State.withPending_twice]

/-! ### Engine events of the machine -/

/-- In a state of the invariant the engine always has a transition or waits (R32). -/
theorem hasTransition_of_inv {p : Params} {s : State} (h : Inv p s) : s.hasTransition = true := by
  have hphase := h.phase
  unfold PhaseConsistent at hphase
  unfold State.hasTransition
  cases hph : s.ph <;> simp only [hph] at hphase ⊢
  case setup =>
    obtain ⟨hops, -⟩ := hphase
    have hctx := h.context
    rw [ContextConsistent, if_pos hops.valid] at hctx
    exact decide_eq_true hctx.1.alg
  case round =>
    obtain ⟨-, hshape⟩ := hphase
    cases halg : s.ctx.alg with
    | none => rw [halg] at hshape; exact hshape.elim
    | ff1 => rfl
    | ff31 => rfl
  case finish =>
    obtain ⟨i, hi, -⟩ := hphase
    rw [hi]

/-- A list of engine events, run to its end, is that many moves of the engine. -/
theorem core_run_engineEvents (k : Nat) {s : State} (h : Inv Config.hardware s) :
    Sys2Proof.core.run k (s.withPending (List.replicate k .engine)) =
      .next ((runEngine Config.hardware k (Move.start s)).state.withPending []) := by
  induction k generalizing s with
  | zero => rfl
  | succ k ih =>
    have hstep : step (s.withPending (List.replicate (k + 1) .engine)) =
        .next ((engineMove Config.hardware (Move.start s)).state.withPending (List.replicate k .engine)) := by
      have hmove := engineMove_inRun Config.hardware (Move.start s) (List.replicate k .engine) []
      rw [step_engine rfl (hasTransition_of_inv (inv_withPending h (List.replicate k .engine)))]
      exact congrArg (fun m : Move => Host.Outcome.next m.state) hmove
    rw [core_run_succ k hstep, ih (inv_engineMove hardware_wellFormed h), runEngine_start_state, runEngine]

/-! ### The command phase by phase -/

/-- In IDLE a `CMD` write is accepted (R47). -/
theorem writeCmd_idle (p : Params) (w : Word) {s : State} (h : s.ph = .idle) : writeCmd p w s = accept p w s := by
  unfold writeCmd; rw [h]

/-- A command run at once does not read what is pending. -/
theorem moveWord_withPending (p : Params) (w : Word) {s : State} (h : s.ph = .idle) (es : List Event) :
    moveWord p w (s.withPending es) = (moveWord p w s).inRun es [] := by
  have hidle : (s.withPending es).ph = .idle := h
  rw [moveWord_idle hidle, moveWord_idle h]
  exact runEngine_inRun p 13 (Move.start (accept p w s)) es []

/-- The machine on the event list of one whole command. -/
theorem core_run_command (w : Word) {s : State} (h : s.ph = .idle) :
    Sys2Proof.core.run 1 (s.withPending [.command w]) =
      .next ((moveWord Config.hardware w s).state.withPending []) := by
  have hstep : step (s.withPending [.command w]) = .next (moveWord Config.hardware w (s.withPending [])).state :=
    step_command rfl
  rw [core_run_succ 0 hstep, moveWord_withPending _ w h]
  rfl

/-- The machine on the event list of a `CMD` write and `k` moves of the engine. -/
theorem core_run_phases (k : Nat) (w : Word) {s : State} (hinv : Inv Config.hardware s) (h : s.ph = .idle) :
    Sys2Proof.core.run (k + 1) (s.withPending (.access (.regWrite 0 w) :: List.replicate k .engine)) =
      .next ((runEngine Config.hardware k (Move.start (accept Config.hardware w s))).state.withPending []) := by
  have hstep : step (s.withPending (.access (.regWrite 0 w) :: List.replicate k .engine)) =
      .next ((accept Config.hardware w s).withPending (List.replicate k .engine)) := by
    rw [step_access rfl]
    exact congrArg Host.Outcome.next (writeCmd_idle Config.hardware w (s := s.withPending _) h)
  rw [core_run_succ k hstep, core_run_engineEvents k (inv_accept w hinv h)]

/-- Settles O26: the command at once is by `moveWord_idle` thirteen moves from acceptance; in the machine each of them is
a step of its own, which reads nothing of the events still pending. -/
theorem phaseByPhaseEqualsAtOnce : Obligations.PhaseByPhaseEqualsAtOnce := by
  intro s w hinv hph
  constructor
  · rw [writeCmd_idle _ w hph, moveWord_idle hph]
  · rw [core_run_phases 13 w hinv hph, core_run_command w hph, moveWord_idle hph]

end Sys2Proof.Machine
end

section
/-! SUPPORT. The host's view of the registers: operand writes, register reads, `STATUS` bit by bit, and what the host
reads after reset and while a command runs (O10, O11, O15, O16, O19). -/

namespace Sys2Proof.Machine

/-! ### Register accesses (20_memory.md R41) -/

/-- Settles O11, register by register. -/
theorem registerWrites : Obligations.RegisterWrites := by
  intro p s w
  refine ⟨rfl, rfl, rfl, rfl, rfl, rfl, ?readBack, ?readOnly⟩
  case readBack =>
    intro k hlow hhigh
    interval_cases k <;> rfl
  case readOnly =>
    rintro k (⟨hlow, hhigh⟩ | ⟨hlow, hhigh⟩) <;> interval_cases k <;> rfl

theorem readBack_of_valid {c : Context} (h : c.valid = true) (field : Nat) : readBack c field = BitVec.ofNat 32 field :=
  if_pos h

theorem readBack_of_invalid {c : Context} (h : c.valid = false) (field : Nat) : readBack c field = 0 := by
  rw [readBack, h]; rfl

/-- Each number of a legal context fits in a read-back register (10_state.md R20). -/
theorem contextLegal_fits {p : Params} (hp : p.wellFormed = true) {c : Context} (h : ContextLegal p c) :
    c.radix < 2 ^ 32 ∧ c.twkMin < 2 ^ 32 ∧ c.twkMax < 2 ^ 32 ∧ c.txtMin < 2 ^ 32 ∧ c.txtMax < 2 ^ 32 ∧
      c.dtwklen < 2 ^ 32 := by
  obtain ⟨-, hn, -, ht⟩ := wellFormed_bounds hp
  have hmax : c.txtMax < 2 ^ 32 := Nat.lt_of_le_of_lt (textMax_le_nCap h) hn
  exact ⟨Nat.lt_of_le_of_lt h.radix.2 (by decide), h.twk_words.1, h.twk_words.2, Nat.lt_of_le_of_lt h.txt_bounds hmax,
    hmax, Nat.lt_of_le_of_lt h.dtwk_fits ht⟩

/-- In a state of the invariant the context is a legal one or the empty one (10_state.md R22). -/
theorem contextConsistent_cases {p : Params} {s : State} (h : ContextConsistent p s) :
    ContextLegal p s.ctx ∨ s.ctx = Context.empty := by
  unfold ContextConsistent at h
  split at h
  · exact .inl h.1
  · exact .inr h.1

/-- Settles O10: each offset names its register, and a context field fits because a legal context is bounded by the
capacities. -/
theorem registerReads : Obligations.RegisterReads := by
  intro p s
  refine ⟨rfl, rfl, rfl, rfl, rfl, rfl, rfl, rfl, rfl, rfl, ?valid, ?invalid, ?fits⟩
  case valid =>
    intro hv
    have hread := fun field => congrArg some (readBack_of_valid hv field)
    exact ⟨hread _, hread _, hread _, hread _, hread _, hread _⟩
  case invalid =>
    intro hv k hlow hhigh
    have hread := fun field => congrArg some (readBack_of_invalid hv field)
    interval_cases k <;> exact hread _
  case fits =>
    intro hp hinv
    rcases contextConsistent_cases hinv.context with hlegal | hempty
    · exact contextLegal_fits hp hlegal
    · rw [hempty]; decide

/-! ### `STATUS` (10_state.md R16) -/

/-- `STATUS` as the list of its flags, bit 0 first. -/
def State.statusFlags (s : State) : List Bool :=
  [s.busy, s.reg.done, s.reg.err, s.fatal, s.ctx.valid, decide (s.ctx.alg = .ff1), decide (s.ctx.alg = .ff31)]

/-- The 2-bit code of an algorithm is its two flags. -/
theorem Alg.code_eq_flags (a : Alg) : a.code = (decide (a = .ff1)).toNat + 2 * (decide (a = .ff31)).toNat := by
  cases a <;> rfl

theorem toNat_ofBoolListLE_nil : (BitVec.ofBoolListLE []).toNat = 0 := rfl

theorem toNat_ofBoolListLE_cons (b : Bool) (bs : List Bool) :
    (BitVec.ofBoolListLE (b :: bs)).toNat = (BitVec.ofBoolListLE bs).toNat * 2 + b.toNat := BitVec.toNat_concat _ _

theorem statusWord_eq_flags (s : State) : s.statusWord = (BitVec.ofBoolListLE s.statusFlags).setWidth 32 := by
  apply BitVec.eq_of_toNat_eq
  rw [State.statusWord, Alg.code_eq_flags]
  simp only [State.statusFlags, BitVec.toNat_ofNat, BitVec.toNat_setWidth, toNat_ofBoolListLE_cons,
    toNat_ofBoolListLE_nil]
  congr 1
  omega

theorem statusWord_getLsbD (s : State) (k : Nat) : s.statusWord.getLsbD k = s.statusFlags.getD k false := by
  rw [statusWord_eq_flags, BitVec.getLsbD_setWidth, BitVec.getLsbD_ofBoolListLE]
  by_cases hk : k < 32
  · rw [decide_eq_true hk, Bool.true_and]
  · rw [decide_eq_false hk, Bool.false_and]
    have hlen : s.statusFlags.length = 7 := rfl
    exact (List.getD_eq_default _ _ (by omega)).symm

theorem Phase.busy_eq (ph : Phase) : ph.busy = decide (ph ≠ .idle ∧ ph ≠ .fatal) := by
  cases ph <;> rfl

/-- Settles O15: bit `k` of `STATUS` is flag `k` of the list. -/
theorem statusFields : Obligations.StatusFields := by
  intro s
  have hbit := statusWord_getLsbD s
  refine ⟨?_, hbit 1, hbit 2, hbit 3, hbit 4, hbit 5, hbit 6, ?_⟩
  · rw [hbit 0, ← Phase.busy_eq]; rfl
  · intro k hk
    rw [hbit k]
    exact List.getD_eq_default _ _ hk

/-! ### Reads of `OUT`, and reads while a command runs (10_state.md R37) -/

/-- With `OUTLEN = 0` every byte of `OUT` reads 0, inside the buffer and beyond (20_memory.md R42, R43). -/
theorem readByte_out_empty (p : Params) {s : State} (h : s.reg.outlen = 0) (i : Nat) : readByte p s .out i = 0 := by
  have hnone : ¬ i < s.reg.outlen.toNat := by rw [h]; exact Nat.not_lt_zero i
  simp only [readByte, readByteInside, if_neg hnone, ite_self]

/-- Settles O16: acceptance cleared the registers, and the invariant keeps them so while `BUSY` is 1. -/
theorem readsWhileBusy : Obligations.ReadsWhileBusy := by
  intro p s hinv hbusy
  obtain ⟨hdone, herr, hlen⟩ := hinv.status.busy_clear hbusy
  have hcode : s.reg.errcode = 0 := hinv.status.no_error herr
  have hfatal : s.fatal = false := by
    refine decide_eq_false fun hph => ?_
    rw [State.busy, hph] at hbusy
    cases hbusy
  have hstatus : s.statusWord = BitVec.ofNat 32 (1 + 16 * s.ctx.valid.toNat + 32 * s.ctx.alg.code) := by
    rw [State.statusWord, hbusy, hdone, herr, hfatal]
    rfl
  refine ⟨congrArg some hstatus, ?_, congrArg some hlen, fun i => ?_⟩
  · exact congrArg (fun c : BitVec 8 => some (c.zeroExtend 32)) hcode
  · exact congrArg (fun b : Byte => some (b.zeroExtend 32)) (readByte_out_empty p hlen i)

/-! ### Reset (10_state.md R38) -/

theorem readReg_reset (r : RegName) : readReg State.reset r = 0 := by cases r <;> rfl

theorem readByte_reset (p : Params) (b : BufName) (i : Nat) : readByte p State.reset b i = 0 := by
  cases b
  case out => exact readByte_out_empty p rfl i
  all_goals exact ite_self _

/-- Every read the host can make after reset returns 0. -/
theorem hostValue_reset {p : Params} {a : Access} {v : Word} (h : hostValue p State.reset a = some v) : v = 0 := by
  cases a with
  | regRead k =>
    simp only [hostValue, readReg_reset] at h
    split at h <;> exact (Option.some.inj h).symm
  | bufRead b i =>
    rw [hostValue, readByte_reset] at h
    exact (Option.some.inj h).symm
  | regWrite k w => cases h
  | bufWrite b i w => cases h

/-- Settles O19: each field is the reset state's own, and each read is 0 by `hostValue_reset`. -/
theorem resetValues : Obligations.ResetValues := by
  refine ⟨rfl, rfl, ?_, rfl, rfl, rfl, rfl, rfl, rfl, rfl, fun _ _ _ => hostValue_reset⟩
  intro b i
  cases b <;> rfl

end Sys2Proof.Machine
end

section
/-! SUPPORT. What a step can do, said once, and what follows: the invariant, the phases, and what each event leaves alone
(O21, O22, O23, O24, O29, O30, O31). -/

namespace Sys2Proof.Machine

/-! ### The invariant over the steps -/

/-- All that a step can do: let its next event happen. -/
theorem step_cases {s t : State} (h : step s = .next t) :
    (∃ a, s.nextEvent = .access a ∧ t = hostAccess Config.hardware s.afterFetch a) ∨
    (∃ w, s.nextEvent = .command w ∧ t = (moveWord Config.hardware w s.afterFetch).state) ∨
    (s.nextEvent = .engine ∧ t = (engineMove Config.hardware (Move.start s.afterFetch)).state) ∨
    (∃ k, s.nextEvent = .reset k ∧ t = resetInput s.afterFetch) := by
  cases hev : s.nextEvent with
  | access a =>
    rw [step_access hev] at h
    cases h
    exact .inl ⟨a, rfl, rfl⟩
  | command w =>
    rw [step_command hev] at h
    cases h
    exact .inr (.inl ⟨w, rfl, rfl⟩)
  | engine =>
    cases htr : s.afterFetch.hasTransition with
    | true =>
      rw [step_engine hev htr] at h
      cases h
      exact .inr (.inr (.inl ⟨rfl, rfl⟩))
    | false =>
      simp only [step, hev, stepEvent, stepEngine, htr] at h
      cases h
  | reset k =>
    rw [step_reset hev] at h
    cases h
    exact .inr (.inr (.inr ⟨k, rfl, rfl⟩))

theorem buffersCanonical_reset (p : Params) : BuffersCanonical p State.reset := by
  have hempty : ∀ n, Memory.Canonical [] ∧ Memory.Within [] n := fun n =>
    ⟨Memory.canonical_nil, fun c hc => by cases hc⟩
  exact ⟨hempty _, hempty _, hempty _, hempty _⟩

/-- The reset state satisfies the invariant, whatever the capacities. -/
theorem inv_reset (p : Params) : Inv p State.reset where
  buffers := buffersCanonical_reset p
  status := {
    busy_clear := fun _ => ⟨rfl, rfl, rfl⟩
    err_done := fun h => by cases h
    fatal_err := fun h => by cases h
    no_error := fun _ => rfl
    error_code := fun h => by cases h }
  context := ⟨rfl, rfl⟩
  quiet := ⟨rfl, fun _ => ⟨rfl, rfl, rfl⟩⟩
  phase := trivial

/-- Settles O21. -/
theorem invariantAtReset : Obligations.InvariantAtReset := inv_reset Config.hardware

theorem inv_resetInput (p : Params) (s : State) : Inv p (resetInput s) := inv_withPending (inv_reset p) s.pending

theorem inv_afterFetch {p : Params} {s : State} (h : Inv p s) : Inv p s.afterFetch := inv_withPending h s.pending.tail

/-- Settles O22: a step is one event, and every kind of event keeps the invariant. -/
theorem everyStepKeepsTheInvariant : Obligations.EveryStepKeepsTheInvariant := by
  intro s t hinv hstep
  have hfetch := inv_afterFetch hinv
  rcases step_cases hstep with ⟨a, -, rfl⟩ | ⟨w, -, rfl⟩ | ⟨-, rfl⟩ | ⟨k, -, rfl⟩
  · exact inv_hostAccess hfetch a
  · exact inv_moveWord hardware_wellFormed w hfetch
  · exact inv_engineMove hardware_wellFormed hfetch
  · exact inv_resetInput Config.hardware s.afterFetch

/-- Settles O23: only a move of the engine could fault, and in a state of the invariant it has a transition. -/
theorem noStepFaults : Obligations.NoStepFaults := by
  intro s hinv
  cases hev : s.nextEvent with
  | access a => exact ⟨_, step_access hev⟩
  | command w => exact ⟨_, step_command hev⟩
  | engine => exact ⟨_, step_engine hev (hasTransition_of_inv (inv_afterFetch hinv))⟩
  | reset k => exact ⟨_, step_reset hev⟩

/-! ### The phases (10_state.md R32) -/

/-- CHECK fails with a recoverable error, or goes on to SETUP or FINISH. -/
theorem checkPhase_ph (p : Params) (s : State) :
    (checkPhase p s).ph = .idle ∨ (checkPhase p s).ph = .setup ∨ (checkPhase p s).ph = .finish := by
  rcases checkPhase_cases p s with ⟨e, he, h⟩ | h | h
  · left; rw [h, raiseError_ph, he]; rfl
  · right; left; rw [h]; rfl
  · right; right; rw [h]; rfl

/-- Settles O24, phase by phase. -/
theorem phaseTransitions : Obligations.PhaseTransitions := by
  rintro p s t hp hinv rfl
  unfold engineMove
  cases hph : s.ph <;> simp only [Move.start_state, hph]
  case check => exact checkPhase_ph p s
  case setup => exact (inv_setup hp hinv hph []).2
  case round =>
    rcases (inv_round hp hinv hph []).2 with hnext | hlast | ⟨halg, -, hfail⟩
    · exact .inl hnext
    · exact .inr (.inl hlast)
    · refine .inr (.inr ⟨halg, ?_⟩)
      exact (congrArg State.ph hfail).trans (raiseError_ph .lengthExceeded s)
  case finish => exact (inv_finish hp hinv hph []).2

/-! ### All that the engine can do to a state in any number of moves -/

/-- Where the engine can arrive from `s`: it has kept the outside so far, it has ended the command with an error, or it
has committed the result or the context of the command in `LAT.cmd`. -/
inductive EngineReaches (s : State) : State → Prop where
  | kept {t : State} (h : OutsideKept s t) : EngineReaches s t
  | failed {t : State} (e : ErrorName) (h : OutsideKept s t) : EngineReaches s (raiseError e t)
  | result {m : Move} {i : Instr} (h : OutsideKept s m.state) (hd : decode s.lat.cmd = .ok i)
      (hi : isCipher i = true) : EngineReaches s (commitResult m).state
  | context {m : Move} {i : Instr} (c : Context) (h : OutsideKept s m.state) (hd : decode s.lat.cmd = .ok i)
      (hi : isCipher i = false) : EngineReaches s (commitContext c m).state

theorem engineMove_reaches (p : Params) (m : Move) : EngineReaches m.state (engineMove p m).state := by
  rcases engineMove_cases p m with h | ⟨e, t, h, heq, -⟩ | ⟨-, heq, i, hd, hi⟩ | ⟨-, c, heq, i, hd, hi⟩
  · exact .kept h
  · rw [heq]; exact .failed e h
  · rw [heq]; exact .result (.refl _) hd hi
  · rw [heq]; exact .context c (.refl _) hd hi

theorem EngineReaches.of_kept {s t u : State} (h : OutsideKept s t) (hu : EngineReaches t u) : EngineReaches s u := by
  cases hu with
  | kept h' => exact .kept (h.trans h')
  | failed e h' => exact .failed e (h.trans h')
  | result h' hd hi => exact .result (h.trans h') (h.lat ▸ hd) hi
  | context c h' hd hi => exact .context c (h.trans h') (h.lat ▸ hd) hi

/-- Once a command has ended, the engine waits. -/
theorem EngineReaches.kept_or_waits {s t : State} (h : EngineReaches s t) :
    OutsideKept s t ∨ t.ph = .idle ∨ t.ph = .fatal := by
  cases h with
  | kept h => exact .inl h
  | failed e h =>
    rw [raiseError_ph]
    cases errorIsFatal e
    · exact .inr (.inl rfl)
    · exact .inr (.inr rfl)
  | result h hd hi => exact .inr (.inl rfl)
  | context c h hd hi => exact .inr (.inl rfl)

theorem runEngine_reaches (p : Params) (k : Nat) (m : Move) : EngineReaches m.state (runEngine p k m).state := by
  induction k generalizing m with
  | zero => exact .kept (.refl _)
  | succ k ih =>
    have hmove := engineMove_reaches p m
    rw [runEngine]
    rcases hmove.kept_or_waits with hkept | hends
    · exact .of_kept hkept (ih _)
    · rw [runEngine_waits p k hends]; exact hmove

/-- Only a cipher command that completes without error writes `OUT` (R21, R163, R190). -/
theorem EngineReaches.out_changed {s t : State} (h : EngineReaches s t) (hne : t.buf.out ≠ s.buf.out) :
    (∃ i, decode s.lat.cmd = .ok i ∧ isCipher i = true) ∧ t.ph = .idle ∧ t.reg.done = true ∧ t.reg.err = false := by
  cases h with
  | kept h => exact absurd (congrArg Buffers.out h.buf) hne
  | failed e h =>
    rw [raiseError_buf] at hne
    exact absurd (congrArg Buffers.out h.buf) hne
  | result h hd hi => exact ⟨⟨_, hd, hi⟩, rfl, rfl, rfl⟩
  | context c h hd hi => exact absurd (congrArg Buffers.out h.buf) hne

/-- Only a context command changes the context or the AES key (R23, R59, R134). -/
theorem EngineReaches.context_changed {s t : State} (h : EngineReaches s t)
    (hne : t.ctx ≠ s.ctx ∨ t.aespKey ≠ s.aespKey) : ∃ i, decode s.lat.cmd = .ok i ∧ isCipher i = false := by
  have hsame : t.ctx = s.ctx → t.aespKey = s.aespKey → False := fun hc hk => hne.elim (· hc) (· hk)
  cases h with
  | kept h => exact (hsame h.ctx h.aespKey).elim
  | failed e h => exact (hsame ((raiseError_ctx e _).trans h.ctx) ((raiseError_aespKey e _).trans h.aespKey)).elim
  | result h hd hi => exact (hsame h.ctx h.aespKey).elim
  | context c h hd hi => exact ⟨_, hd, hi⟩

/-- Before phase FINISH a move writes neither the buffers nor the context nor the AES key. -/
theorem engineMove_keeps_outside_finish (p : Params) {m : Move} (h : m.state.ph ≠ .finish) :
    (engineMove p m).state.buf = m.state.buf ∧ (engineMove p m).state.ctx = m.state.ctx ∧
      (engineMove p m).state.aespKey = m.state.aespKey := by
  rcases engineMove_cases p m with hk | ⟨e, t, hk, heq, -⟩ | ⟨hph, -⟩ | ⟨hph, -⟩
  · exact ⟨hk.buf, hk.ctx, hk.aespKey⟩
  · rw [heq, raiseError_buf, raiseError_ctx, raiseError_aespKey]
    exact ⟨hk.buf, hk.ctx, hk.aespKey⟩
  · exact absurd hph h
  · exact absurd hph h

/-! ### Whole commands -/

/-- A whole command is ignored, or it is accepted in IDLE and the engine runs (20_memory.md R47, 60_exceptions.md
R218). -/
theorem moveWord_reaches (p : Params) (w : Word) (s : State) :
    (moveWord p w s).state = s ∨ (s.ph = .idle ∧ EngineReaches (accept p w s) (moveWord p w s).state) := by
  by_cases hph : s.ph = .idle
  · right
    rw [moveWord_idle hph]
    exact ⟨hph, runEngine_reaches p 13 (Move.start (accept p w s))⟩
  · left
    rw [moveWord_ignored hph]
    rfl

theorem moveWord_out_changed {p : Params} {w : Word} {s : State}
    (hne : (moveWord p w s).state.buf.out ≠ s.buf.out) :
    (∃ i, decode w = .ok i ∧ isCipher i = true) ∧ s.ph = .idle ∧ (moveWord p w s).state.ph = .idle ∧
      (moveWord p w s).state.reg.done = true ∧ (moveWord p w s).state.reg.err = false := by
  rcases moveWord_reaches p w s with hsame | ⟨hph, hreach⟩
  · rw [hsame] at hne; exact absurd rfl hne
  · obtain ⟨hcmd, hends⟩ := hreach.out_changed hne
    exact ⟨hcmd, hph, hends⟩

theorem moveWord_context_changed {p : Params} {w : Word} {s : State}
    (hne : (moveWord p w s).state.ctx ≠ s.ctx ∨ (moveWord p w s).state.aespKey ≠ s.aespKey) :
    (∃ i, decode w = .ok i ∧ isCipher i = false) ∧ s.ph = .idle := by
  rcases moveWord_reaches p w s with hsame | ⟨hph, hreach⟩
  · rw [hsame] at hne; exact absurd hne (by simp)
  · exact ⟨hreach.context_changed hne, hph⟩

/-! ### What no event of the engine writes (10_state.md R19, R21, R24) -/

theorem SameOperands.refl (s : State) : SameOperands s s := ⟨rfl, rfl, rfl, rfl, rfl, rfl, rfl, rfl, rfl, rfl⟩

theorem OutsideKept.sameOperands {s t : State} (h : OutsideKept s t) : SameOperands s t := by
  rw [SameOperands, h.reg, h.buf, h.pending]
  exact SameOperands.refl s

/-- The engine never writes the operands, however far it runs. -/
theorem EngineReaches.sameOperands {s t : State} (h : EngineReaches s t) : SameOperands s t := by
  cases h with
  | kept h => exact h.sameOperands
  | failed e h =>
    rw [SameOperands, raiseError_reg, raiseError_buf, raiseError_pending]
    exact h.sameOperands
  | result h hd hi => exact (h.sameOperands :)
  | context c h hd hi => exact (h.sameOperands :)

/-- Acceptance copies the operands, so a whole command leaves them too (R24). -/
theorem sameOperands_moveWord (p : Params) (w : Word) (s : State) : SameOperands s (moveWord p w s).state := by
  rcases moveWord_reaches p w s with hsame | ⟨-, hreach⟩
  · rw [hsame]; exact .refl s
  · exact hreach.sameOperands

/-- A command's meaning is the `CMD` write of its word, run to its end. -/
theorem exec_eq_moveWord (i : Instr) (s : State) : exec i s = .next (moveWord Config.hardware (encode i) s).state := by
  rw [exec_eq, moveWord_encode]

/-- Settles O29, from the frames of a whole command and of one move. -/
theorem theEngineNeverWritesOperands : Obligations.TheEngineNeverWritesOperands :=
  ⟨fun i s => ⟨_, exec_eq_moveWord i s, sameOperands_moveWord _ _ s⟩,
    fun p s => (engineMove_reaches p (Move.start s)).sameOperands⟩

/-! ### Who writes `OUT`, and who changes the context -/

theorem decode_encode (i : Instr) : decode (encode i) = .ok i := by cases i <;> rfl

/-- The host cannot write `OUT` (20_memory.md R42). -/
theorem hostAccess_out (p : Params) (s : State) (a : Access) : (hostAccess p s a).buf.out = s.buf.out := by
  cases a with
  | regRead k => rfl
  | bufRead b i => rfl
  | bufWrite b i v =>
    simp only [hostAccess, writeByte]
    split
    · cases b <;> rfl
    · rfl
  | regWrite k w =>
    simp only [hostAccess]
    split
    · rename_i r _
      cases r
      case cmd =>
        rw [writeReg, writeCmd]
        split <;> rfl
      all_goals rfl
    · rfl

/-- Settles O30: only an engine that commits a cipher command's result writes `OUT`, at once or in phase FINISH. -/
theorem outIsWrittenOnlyBySuccess : Obligations.OutIsWrittenOnlyBySuccess := by
  constructor
  · intro i s t hexec hne
    rw [exec_eq_moveWord] at hexec
    cases hexec
    obtain ⟨⟨j, hd, hj⟩, hends⟩ := moveWord_out_changed hne
    rw [decode_encode] at hd
    cases hd
    exact ⟨hj, hends⟩
  · intro s t hstep hne
    rcases step_cases hstep with ⟨a, -, rfl⟩ | ⟨w, hev, rfl⟩ | ⟨hev, rfl⟩ | ⟨k, hev, -⟩
    · exact absurd (hostAccess_out Config.hardware s.afterFetch a) hne
    · obtain ⟨⟨i, hd, hi⟩, hph, hidle, hdone, herr⟩ := moveWord_out_changed (s := s.afterFetch) hne
      exact .inr ⟨hidle, hdone, herr, .inl ⟨w, i, hev, hd, hi, hph⟩⟩
    · obtain ⟨hcmd, hidle, hdone, herr⟩ := (engineMove_reaches _ (Move.start s.afterFetch)).out_changed hne
      have hph : s.ph = .finish := by
        by_contra hph
        exact hne (congrArg Buffers.out (engineMove_keeps_outside_finish _ (m := Move.start s.afterFetch) hph).1)
      exact .inr ⟨hidle, hdone, herr, .inr ⟨hev, hph, hcmd⟩⟩
    · exact .inl ⟨k, hev⟩

/-- Settles O31: only an engine that commits a context changes it or the key, at once or in phase FINISH. -/
theorem contextChangesOnlyByContextCommandsAndReset : Obligations.ContextChangesOnlyByContextCommandsAndReset := by
  intro s t hstep hne
  rcases step_cases hstep with ⟨a, -, rfl⟩ | ⟨w, hev, rfl⟩ | ⟨hev, rfl⟩ | ⟨k, hev, -⟩
  · obtain ⟨hctx, hkey⟩ := hostAccess_context Config.hardware s.afterFetch a
    exact (hne.elim (· hctx) (· hkey)).elim
  · obtain ⟨⟨i, hd, hi⟩, hph⟩ := moveWord_context_changed (s := s.afterFetch) hne
    exact .inr (.inl ⟨w, i, hev, hd, hi, hph⟩)
  · have hph : s.ph = .finish := by
      by_contra hph
      obtain ⟨-, hctx, hkey⟩ := engineMove_keeps_outside_finish Config.hardware (m := Move.start s.afterFetch) hph
      exact hne.elim (· hctx) (· hkey)
    exact .inr (.inr ⟨hev, hph, (engineMove_reaches _ (Move.start s.afterFetch)).context_changed hne⟩)
  · exact .inl ⟨k, hev⟩

end Sys2Proof.Machine
end

section
/-! SUPPORT. The accesses of the host to the command register and the buffers, and the step that runs a command (O6, O8,
O12, O13, O14). -/

namespace Sys2Proof.Machine

/-! ### The step of a decoded command (30_encoding.md R62) -/

theorem nextEvent_of_pending {s : State} {e : Event} {es : List Event} (h : s.pending = e :: es) :
    s.nextEvent = e ∧ s.afterFetch = s.withPending es := by
  simp only [State.nextEvent, State.afterFetch, h, List.tail_cons, and_self]

/-- Every command word is the encoder's, so its step is the command's meaning. -/
theorem step_decoded {s : State} {w : Word} {i : Instr} {es : List Event} (hd : decode w = .ok i)
    (h : s.pending = .command w :: es) : step s = exec i (s.withPending es) := by
  obtain ⟨hnext, hfetch⟩ := nextEvent_of_pending h
  rw [step_command hnext, hfetch, exec_eq_moveWord, decode_ok_word hd]

theorem tableWord_toNat (w : Word) : tableWord 32 w.toNat = w := by
  rw [tableWord, Nat.mod_eq_of_lt w.isLt, BitVec.ofNat_toNat, BitVec.setWidth_eq]

/-- Settles O6: each of the three states has the `CMD` write at the head of its events. -/
theorem stepRunsTheDecodedCommand : Obligations.StepRunsTheDecodedCommand := by
  intro s w i hd
  have hissue : step (s.issueNext w) = exec i s := step_decoded (es := s.pending) hd rfl
  refine ⟨fun es h => step_decoded hd h, hissue, ?_⟩
  rw [State.withFetchWord, tableWord_toNat]
  exact hissue

/-! ### The `CMD` write (20_memory.md R47) -/

/-- In any phase but IDLE a `CMD` write is ignored (R218). -/
theorem writeCmd_ignored (p : Params) (w : Word) {s : State} (h : s.ph ≠ .idle) : writeCmd p w s = s := by
  unfold writeCmd
  cases hph : s.ph with
  | idle => exact absurd hph h
  | check => rfl
  | setup => rfl
  | round => rfl
  | finish => rfl
  | fatal => rfl

/-- Settles O8: in IDLE the write is acceptance, which `accept_eq` gives field by field. -/
theorem cmdWriteIsAcceptedOnlyInIdle : Obligations.CmdWriteIsAcceptedOnlyInIdle := fun p s w =>
  ⟨fun h => (writeCmd_idle p w h).trans (accept_eq p w s), fun h => writeCmd_ignored p w h⟩

/-! ### Where nothing stands (20_memory.md R43) -/

theorem regAt_beyond {k : Nat} (h : 16 ≤ k) : regAt k = none := by
  obtain ⟨j, rfl⟩ := Nat.exists_eq_add_of_le' h
  rfl

theorem readByte_beyond {p : Params} {b : BufName} {i : Nat} (h : bufSize p b ≤ i) (s : State) :
    readByte p s b i = 0 := if_neg (Nat.not_lt.mpr h)

theorem writeByte_beyond {p : Params} {b : BufName} {i : Nat} (h : bufSize p b ≤ i) (s : State) (v : Byte) :
    writeByte p s b i v = s := if_neg (Nat.not_lt.mpr h)

/-- Settles O12: no register has that index, and no buffer that byte. -/
theorem emptyAddressesReadZero : Obligations.EmptyAddressesReadZero := by
  intro p s
  constructor
  · intro k w hk
    simp only [hostValue, hostAccess, regAt_beyond hk, and_self]
  · intro b i v hi
    refine ⟨?_, rfl, writeByte_beyond hi s v⟩
    rw [hostValue, readByte_beyond hi]
    rfl

/-! ### Byte reads (20_memory.md R42) -/

theorem hostValue_bufRead_inside {p : Params} {b : BufName} {i : Nat} (h : i < bufSize p b) (s : State) :
    hostValue p s (.bufRead b i) = some ((readByteInside s b i).zeroExtend 32) := by
  rw [hostValue, readByte, if_pos h]

/-- The tweak and the text read back as they stand. -/
theorem readByteInside_readable {b : BufName} (h : b = .twk ∨ b = .txt) (s : State) (i : Nat) :
    readByteInside s b i = (s.buf.get b).read i := by
  rcases h with rfl | rfl <;> rfl

theorem readByteInside_out_valid {s : State} {i : Nat} (h : i < s.reg.outlen.toNat) :
    readByteInside s .out i = s.buf.out.read i := if_pos h

theorem readByteInside_out_invalid {s : State} {i : Nat} (h : s.reg.outlen.toNat ≤ i) :
    readByteInside s .out i = 0 := if_neg (Nat.not_lt.mpr h)

/-- Settles O13, buffer by buffer. -/
theorem bufferReads : Obligations.BufferReads := by
  intro p s i
  refine ⟨fun h => hostValue_bufRead_inside h s, fun h => hostValue_bufRead_inside h s,
    fun h => hostValue_bufRead_inside h s, ?valid, ?invalid, fun _ => rfl, fun _ => rfl⟩
  case valid =>
    intro h hvalid
    rw [hostValue_bufRead_inside h, readByteInside_out_valid hvalid]
  case invalid =>
    intro h hinvalid
    rw [hostValue_bufRead_inside h, readByteInside_out_invalid hinvalid]
    rfl

/-! ### Byte writes (20_memory.md R42) -/

theorem writeByte_inside {p : Params} {b : BufName} {i : Nat} (h : i < bufSize p b) (s : State) (v : Byte) :
    writeByte p s b i v = s.withBuf (s.buf.hostWrite b i v) := if_pos h

/-- A host write reaches its own buffer alone, and never `OUT`. -/
theorem Buffers.get_hostWrite (bs : Buffers) (b b' : BufName) (i : Nat) (v : Byte) :
    (bs.hostWrite b i v).get b' = if b' = b ∧ b ≠ .out then (bs.get b).write i v else bs.get b' := by
  cases b <;> cases b' <;> rfl

theorem Buffers.get_hostWrite_same {b : BufName} (h : b ≠ .out) (bs : Buffers) (i : Nat) (v : Byte) :
    (bs.hostWrite b i v).get b = (bs.get b).write i v := by
  rw [Buffers.get_hostWrite, if_pos ⟨rfl, h⟩]

theorem Buffers.get_hostWrite_other {b b' : BufName} (h : b' ≠ b) (bs : Buffers) (i : Nat) (v : Byte) :
    (bs.hostWrite b i v).get b' = bs.get b' := by
  rw [Buffers.get_hostWrite, if_neg fun hb => h hb.1]

theorem canonical_get {p : Params} {s : State} (h : BuffersCanonical p s) (b : BufName) : (s.buf.get b).Canonical := by
  cases b with
  | key => exact h.key.1
  | twk => exact h.twk.1
  | txt => exact h.txt.1
  | out => exact h.out.1

theorem read_hostWrite_same {p : Params} {s : State} (h : BuffersCanonical p s) {b : BufName} (hb : b ≠ .out) (i : Nat)
    (v : Byte) : ((s.buf.hostWrite b i v).get b).read i = v := by
  rw [Buffers.get_hostWrite_same hb, Memory.read_write (canonical_get h b), if_pos rfl]

theorem read_hostWrite_other {p : Params} {s : State} (h : BuffersCanonical p s) {b b' : BufName} {i j : Nat} (v : Byte)
    (hne : ¬(b' = b ∧ j = i)) : ((s.buf.hostWrite b i v).get b').read j = (s.buf.get b').read j := by
  by_cases hb : b' = b
  · subst hb
    by_cases hout : b' = .out
    · subst hout; rfl
    · rw [Buffers.get_hostWrite_same hout, Memory.read_write (canonical_get h b'), if_neg fun hj => hne ⟨rfl, hj⟩]
  · rw [Buffers.get_hostWrite_other hb]

/-- Settles O14: the write is one `hostWrite`, of which each clause is a lemma. -/
theorem bufferWrites : Obligations.BufferWrites := by
  intro p s b i v hcanon hi
  have hwrite : hostAccess p s (.bufWrite b i v) = s.withBuf (s.buf.hostWrite b i v) := writeByte_inside hi s v
  rw [hwrite]
  refine ⟨?ignored, fun hb => read_hostWrite_same hcanon hb i v, ?readBack,
    fun b' j hne => read_hostWrite_other hcanon v hne, ⟨_, rfl⟩, buffersCanonical_hostWrite hcanon b v hi⟩
  case ignored =>
    rintro rfl
    rfl
  case readBack =>
    intro hb
    have hout : b ≠ .out := by rcases hb with rfl | rfl <;> decide
    rw [hostValue_bufRead_inside hi, readByteInside_readable hb]
    exact congrArg (fun x : Byte => some (x.zeroExtend 32)) (read_hostWrite_same hcanon hout i v)

end Sys2Proof.Machine
end

section
/-! SUPPORT. A host write to an operand and a move of the engine touch different parts of the state and read nothing of
each other, so they commute (O17). -/

namespace Sys2Proof.Machine

/-! ### Operand writes as edits of the host registers and the buffers -/

/-- The state with its host registers changed by `f` and its buffers by `g`. -/
def State.edit (f : HostRegs → HostRegs) (g : Buffers → Buffers) (s : State) : State :=
  (s.withReg (f s.reg)).withBuf (g s.buf)

/-- An edit that neither reads nor writes what the engine writes: the status, `OUTLEN` and `OUT` (20_memory.md R46). -/
structure OperandEdit (f : HostRegs → HostRegs) (g : Buffers → Buffers) : Prop where
  failed : ∀ e r, f (regsFailed e r) = regsFailed e (f r) := by intros; rfl
  completed : ∀ r, f (regsCompleted r) = regsCompleted (f r) := by intros; rfl
  outlen : ∀ n r, f { r with outlen := n } = { f r with outlen := n } := by intros; rfl
  out : ∀ m b, g { b with out := m } = { g b with out := m } := by intros; rfl

/-- The edit leaves `OUT` as it is. -/
theorem OperandEdit.keeps_out {f : HostRegs → HostRegs} {g : Buffers → Buffers} (h : OperandEdit f g) (b : Buffers) :
    (g b).out = b.out := (congrArg Buffers.out (h.out b.out b) :)

theorem operandEdit_hostWrite (b : BufName) (i : Nat) (v : Byte) : OperandEdit id fun bs => bs.hostWrite b i v where
  out _ _ := by cases b <;> rfl

/-- Every write to an operand register or a buffer is such an edit, the same one in every state. -/
theorem hostAccess_operandWrite (p : Params) {a : Access} (h : operandWrite a = true) :
    ∃ f g, OperandEdit f g ∧ ∀ s, hostAccess p s a = s.edit f g := by
  cases a with
  | regRead k => cases h
  | bufRead b i => cases h
  | regWrite k w =>
    obtain ⟨hlow, hhigh⟩ := of_decide_eq_true h
    interval_cases k
    · exact ⟨fun r => { r with radix := w }, id, {}, fun _ => rfl⟩
    · exact ⟨fun r => { r with keylen := w }, id, {}, fun _ => rfl⟩
    · exact ⟨fun r => { r with twkmin := w }, id, {}, fun _ => rfl⟩
    · exact ⟨fun r => { r with twkmax := w }, id, {}, fun _ => rfl⟩
    · exact ⟨fun r => { r with twklen := w }, id, {}, fun _ => rfl⟩
    · exact ⟨fun r => { r with txtlen := w }, id, {}, fun _ => rfl⟩
  | bufWrite b i v =>
    by_cases hi : i < bufSize p b
    · exact ⟨id, fun bs => bs.hostWrite b i v, operandEdit_hostWrite b i v, fun s => writeByte_inside hi s v⟩
    · exact ⟨id, id, {}, fun s => writeByte_beyond (Nat.not_lt.mp hi) s v⟩

/-! ### Each phase commutes with an edit of the operands -/

section

variable {f : HostRegs → HostRegs} {g : Buffers → Buffers}

theorem raiseError_edit (h : OperandEdit f g) (e : ErrorName) (s : State) :
    raiseError e (s.edit f g) = (raiseError e s).edit f g := by
  simp only [raiseError_eq, State.edit, State.withReg, State.withBuf, h.failed]

theorem completeOk_edit (h : OperandEdit f g) (s : State) : completeOk (s.edit f g) = (completeOk s).edit f g := by
  simp only [completeOk_eq, State.edit, State.withReg, State.withBuf, h.completed]

theorem storeResult_edit (h : OperandEdit f g) (res : Bytes) (n : Nat) (s : State) :
    storeResult res n (s.edit f g) = (storeResult res n s).edit f g := by
  have hlen := h.outlen (BitVec.ofNat 32 n) s.reg
  have hout := h.out (s.buf.out.store 0 res) s.buf
  simp only [storeResult, State.edit, State.withReg, State.withBuf, hlen, hout, h.keeps_out]

/-- Phase CHECK reads the latches and the context alone. -/
theorem checkPhase_edit (h : OperandEdit f g) (p : Params) (s : State) :
    checkPhase p (s.edit f g) = (checkPhase p s).edit f g := by
  have hcipher : cipherFrontEnd p (s.edit f g) = (cipherFrontEnd p s).edit f g := by
    have hvalid : (s.edit f g).ctx = s.ctx := rfl
    have hops : takeOperands (s.edit f g) = (takeOperands s).edit f g := rfl
    have herr : operandError p ((takeOperands s).edit f g) = operandError p (takeOperands s) := rfl
    simp only [cipherFrontEnd, hvalid, hops, herr, raiseError_edit h]
    split
    · rfl
    · cases operandError p (takeOperands s) with
      | none => rfl
      | some e => rfl
  have hctx : ∀ err, settleCheck err (s.edit f g) = (settleCheck err s).edit f g := by
    intro err
    cases err with
    | none => rfl
    | some e => exact raiseError_edit h e s
  have hlat : (s.edit f g).lat = s.lat := rfl
  unfold checkPhase
  rw [hlat]
  cases decode s.lat.cmd with
  | error e => exact raiseError_edit h _ s
  | ok i =>
    cases i
    case ctxFF1 => exact hctx (ctxFF1Error p s.lat)
    case ctxFF31 => exact hctx (ctxFF31Error p s.lat)
    all_goals exact hcipher

/-- Steps that read no operand and keep what the edit writes: edited before or after, they settle alike. -/
theorem settle_edit (h : OperandEdit f g) {x : Move → Flow Unit} (hb : Blind x)
    (hk : ∀ m, OutsideKept m.state (x m).move.state) (m : Move) :
    (x (m.update (State.edit f g))).settle = (x m).settle.update (State.edit f g) := by
  have hblind := hb (f m.state.reg) (g m.state.buf) m.state.pending [] m
  have hkept := hk m
  have hedit : m.outside (f m.state.reg) (g m.state.buf) m.state.pending [] = m.update (State.edit f g) := rfl
  have hsame : ∀ {n : Move}, OutsideKept m.state n.state →
      n.outside (f m.state.reg) (g m.state.buf) m.state.pending [] = n.update (State.edit f g) := by
    intro n hn
    rw [← hn.reg, ← hn.buf, ← hn.pending]
    rfl
  rw [← hedit, hblind]
  cases hx : x m with
  | ok u n =>
    rw [hx] at hkept
    exact hsame hkept
  | raised e n =>
    rw [hx] at hkept
    have hn : n.outside (f m.state.reg) (g m.state.buf) m.state.pending [] = n.update (State.edit f g) := hsame hkept
    rw [Flow.mapMove, hn]
    exact congrArg (Move.mk · n.txns) (raiseError_edit h e n.state)

theorem setupPhase_edit (h : OperandEdit f g) (m : Move) :
    setupPhase (m.update (State.edit f g)) = (setupPhase m).update (State.edit f g) := by
  have hctx : (m.update (State.edit f g)).state.ctx = m.state.ctx := rfl
  unfold setupPhase
  rw [hctx]
  cases m.state.ctx.alg with
  | none => rfl
  | ff1 => exact settle_edit h blind_ff1Setup kept_ff1SetupFlow m
  | ff31 => rfl

theorem roundPhase_edit (h : OperandEdit f g) (p : Params) (m : Move) :
    roundPhase p (m.update (State.edit f g)) = (roundPhase p m).update (State.edit f g) := by
  have hctx : (m.update (State.edit f g)).state.ctx = m.state.ctx := rfl
  unfold roundPhase
  rw [hctx]
  cases m.state.ctx.alg with
  | none => rfl
  | ff1 => exact settle_edit h (blind_ff1Round p) (kept_ff1RoundFlow p) m
  | ff31 => exact settle_edit h (blind_ff31Round p) (kept_ff31RoundFlow p) m

theorem commitContext_edit (h : OperandEdit f g) (c : Context) (m : Move) :
    commitContext c (m.update (State.edit f g)) = (commitContext c m).update (State.edit f g) :=
  congrArg (Move.mk · (m.txns ++ [PortTxn.keyLoad c.key]))
    (completeOk_edit h ((m.state.withCtx c).withAespKey (some c.key)))

theorem commitResult_edit (h : OperandEdit f g) (m : Move) :
    commitResult (m.update (State.edit f g)) = (commitResult m).update (State.edit f g) := by
  have hwork : ((m.state).edit f g).work = m.state.work := rfl
  simp only [commitResult, Move.update, hwork, storeResult_edit h, completeOk_edit h]

theorem finishPhase_edit (h : OperandEdit f g) (p : Params) (m : Move) :
    finishPhase p (m.update (State.edit f g)) = (finishPhase p m).update (State.edit f g) := by
  have hlat : (m.update (State.edit f g)).state.lat = m.state.lat := rfl
  unfold finishPhase
  rw [hlat]
  cases decode m.state.lat.cmd with
  | error e => rfl
  | ok i =>
    cases i
    case ctxFF1 => exact commitContext_edit h (ctxFF1Context p m.state.lat) m
    case ctxFF31 => exact commitContext_edit h (ctxFF31Context p m.state.lat) m
    all_goals exact commitResult_edit h m

/-- The engine neither reads nor undoes an edit of the operands (R237). -/
theorem engineMove_edit (h : OperandEdit f g) (p : Params) (m : Move) :
    engineMove p (m.update (State.edit f g)) = (engineMove p m).update (State.edit f g) := by
  have hphase : (m.update (State.edit f g)).state.ph = m.state.ph := rfl
  unfold engineMove
  rw [hphase]
  cases m.state.ph with
  | idle => rfl
  | check => exact congrArg (Move.mk · m.txns) (checkPhase_edit h p m.state)
  | setup => exact setupPhase_edit h m
  | round => exact roundPhase_edit h p m
  | finish => exact finishPhase_edit h p m
  | fatal => rfl

end

/-- Settles O17: an operand write is an edit of the operands, with which every phase commutes. -/
theorem operandWritesDoNotDisturbTheEngine : Obligations.OperandWritesDoNotDisturbTheEngine := by
  intro p s a ha
  obtain ⟨f, g, hfg, hwrite⟩ := hostAccess_operandWrite p ha
  simp only [hwrite]
  exact engineMove_edit hfg p (Move.start s)

end Sys2Proof.Machine
end

section
/-! SUPPORT. How a command ends depends on its operands and, for a cipher command, on the context and the AES key; a
command that ends in IDLE leaves these so that the same command ends the same way again (O33). -/

namespace Sys2Proof.Machine

/-! ### The end of a legal cipher command (44_ff1_engine.md R164, 45_ff3_1_engine.md R191) -/

/-- The result of a cipher command by the closed forms; none where a round of FF3-1 overflows, or with no algorithm. -/
def callResult (p : Params) (i : Instr) (s : State) : Option Bytes :=
  match s.ctx.alg with
  | .none => none
  | .ff1 => some (ff1Cipher p s.aespKey s.ctx.radix (cipherDirection i) (callTweak i s) (textInput s))
  | .ff31 => ff31Cipher p s.aespKey s.ctx.radix (cipherDirection i) (callTweak i s) (textInput s)

/-- The transactions of a cipher command by the closed forms. -/
def callTxns (p : Params) (i : Instr) (s : State) : List PortTxn :=
  match s.ctx.alg with
  | .none => []
  | .ff1 => ff1Txns p s.aespKey s.ctx.radix (cipherDirection i) (callTweak i s) (textInput s)
  | .ff31 => ff31Txns p s.aespKey s.ctx.radix (cipherDirection i) (callTweak i s) (textInput s)

/-- The end of a legal cipher command with this result, or with the fatal stop where it has none. -/
def endsWithCall (res : Option Bytes) (s : State) : State :=
  match res with
  | some res => endsWithResult res s
  | none => endsFatal .lengthExceeded s

theorem callResult_length {p : Params} {i : Instr} {s : State} {res : Bytes} (h : callResult p i s = some res) :
    res.length = (textInput s).length := by
  unfold callResult at h
  split at h
  · cases h
  · cases h
    exact ff1Cipher_length ..
  · exact ff31Cipher_length h

/-- A legal cipher command ends as the closed forms of the context's algorithm say. -/
theorem moveCommand_legal {p : Params} (hp : p.wellFormed = true) {i : Instr} {s : State} (hinv : Inv p s)
    (hph : s.ph = .idle) (hcall : CallLegal p i s) :
    moveCommand p i s = ⟨endsWithCall (callResult p i s) s, callTxns p i s⟩ := by
  obtain ⟨hrun, hc, hops, hclean, hchain, -⟩ := cipher_passes hinv hph hcall
  obtain ⟨htext, htweak, hdir, hlen⟩ := cipherSetup_operands hinv hcall
  have hlength : ∀ {res}, callResult p i s = some res → res.length = s.reg.txtlen.toNat := fun h =>
    (callResult_length h).trans hlen
  have hkey : (cipherSetup p i s).aespKey = s.aespKey := rfl
  have hctx : (cipherSetup p i s).ctx = s.ctx := rfl
  rw [hrun]
  cases halg : s.ctx.alg with
  | none => exact absurd halg hc.alg
  | ff1 =>
    rw [ff1_command_run hp (s := cipherSetup p i s) rfl halg hc hops hchain, htext, htweak, hdir, hkey, hctx]
    simp only [callResult, callTxns, halg] at hlength ⊢
    rw [completeOk_cipherSetup (hlength rfl)]
    rfl
  | ff31 =>
    rw [ff31_command_run hp (s := cipherSetup p i s) rfl halg hc hops hclean hchain, htext, htweak, hdir, hkey, hctx]
    simp only [callResult, callTxns, halg] at hlength ⊢
    cases hres : ff31Cipher p s.aespKey s.ctx.radix (cipherDirection i) (callTweak i s) (textInput s) with
    | none => exact congrArg (Move.mk · _) raiseError_cipherSetup
    | some res => exact congrArg (Move.mk · _) (completeOk_cipherSetup (hlength hres))

/-- A cipher command in IDLE fails in phase CHECK, or it is legal (R145). -/
theorem moveCommand_rejected_or_legal {p : Params} {i : Instr} {s : State} (hinv : Inv p s) (hph : s.ph = .idle)
    (hi : isCipher i = true) : (∃ e, moveCommand p i s = ⟨endsWithError e s, []⟩) ∨ CallLegal p i s := by
  obtain ⟨hnoctx, hreject⟩ := cipher_rejected (p := p) hi hph
  cases hv : s.ctx.valid with
  | false => exact .inl ⟨_, hnoctx hv⟩
  | true =>
    have hctx := hinv.context
    rw [ContextConsistent, if_pos hv] at hctx
    obtain ⟨htext, htweak, hnum, -⟩ := operandError_accepted (p := p) hi hctx.1
    by_cases h1 : textLengthLegal s
    · by_cases h2 : tweakLengthLegal p i s
      · by_cases h3 : numeralsLegal s
        · exact .inr ⟨hi, hv, h1, h2, h3⟩
        · exact .inl ⟨_, hreject hv _ (hnum h1 h2 h3)⟩
      · exact .inl ⟨_, hreject hv _ (htweak h1 h2)⟩
    · exact .inl ⟨_, hreject hv _ (htext h1)⟩

/-! ### The same command again (20_memory.md R54, 60_exceptions.md R206) -/

/-- Between commands everything of a command is zero, so after an error the same acceptance follows. -/
theorem accept_endsWithError {p : Params} {s : State} (hinv : Inv p s) (hph : s.ph = .idle) (w : Word) (e : ErrorName) :
    accept p w (endsWithError e s) = accept p w s := by
  obtain ⟨-, hwork, hrnd⟩ := hinv.quiet.zeroed (by rw [State.busy, hph]; rfl)
  simp only [accept_eq, endsWithError, settled, hwork, hrnd, hinv.quiet.chain]
  rfl

/-- A command that ended with a recoverable error ends so again. -/
theorem reissue_after_error {p : Params} {i : Instr} {s : State} (hinv : Inv p s) (hph : s.ph = .idle) (e : ErrorName) :
    moveCommand p i (endsWithError e s) = moveCommand p i s := by
  rw [← moveWord_encode, ← moveWord_encode, moveWord_idle hph, moveWord_idle rfl, accept_endsWithError hinv hph]

theorem contextOutcome_again (err : Option ErrorName) (c : Context) (s : State) :
    contextOutcome err c (contextOutcome err c s).state = contextOutcome err c s := by
  cases err <;> rfl

theorem contextOutcome_ph (err : Option ErrorName) (c : Context) (s : State) :
    (contextOutcome err c s).state.ph = .idle := by
  cases err <;> rfl

/-- The latches hold the operand registers and the operand buffers, which a context command's end leaves. -/
theorem latchOperands_contextOutcome (p : Params) (w : Word) (err : Option ErrorName) (c : Context) (s : State) :
    latchOperands p w (contextOutcome err c s).state.reg (contextOutcome err c s).state.buf =
      latchOperands p w s.reg s.buf := by
  cases err <;> rfl

theorem reissue_ctxFF1 {p : Params} {s : State} (hph : s.ph = .idle) :
    moveCtxFF1 p (moveCtxFF1 p s).state = moveCtxFF1 p s := by
  rw [moveCtxFF1_idle hph, moveCtxFF1_idle (contextOutcome_ph ..), latchOperands_contextOutcome, contextOutcome_again]

theorem reissue_ctxFF31 {p : Params} {s : State} (hph : s.ph = .idle) :
    moveCtxFF31 p (moveCtxFF31 p s).state = moveCtxFF31 p s := by
  rw [moveCtxFF31_idle hph, moveCtxFF31_idle (contextOutcome_ph ..), latchOperands_contextOutcome, contextOutcome_again]

/-- Storing the same result again changes nothing. -/
theorem endsWithResult_again {p : Params} {s : State} (h : BuffersCanonical p s) (res : Bytes) :
    endsWithResult res (endsWithResult res s) = endsWithResult res s := by
  have hstore := Memory.store_store h.out.1 0 res
  simp only [endsWithResult, endsOk, settled, State.withBuf, hstore]

/-- A cipher command that ended in IDLE ends so again: a result leaves all that the command reads. -/
theorem reissue_cipher {p : Params} (hp : p.wellFormed = true) {i : Instr} {s : State} (hi : isCipher i = true)
    (hinv : Inv p s) (hph : s.ph = .idle) (hend : (moveCommand p i s).state.ph = .idle) :
    moveCommand p i (moveCommand p i s).state = moveCommand p i s := by
  rcases moveCommand_rejected_or_legal hinv hph hi with ⟨e, hfail⟩ | hcall
  · have hagain := reissue_after_error (p := p) (i := i) hinv hph e
    rw [hfail] at hagain ⊢
    exact hagain
  · have hinv' : Inv p (moveCommand p i s).state := moveWord_encode p i s ▸ inv_moveWord hp (encode i) hinv
    have hmove := moveCommand_legal hp hinv hph hcall
    cases hres : callResult p i s with
    | none =>
      rw [hmove, hres] at hend
      cases hend
    | some res =>
      rw [hres, endsWithCall] at hmove
      rw [hmove] at hinv' ⊢
      have hcall' : CallLegal p i (endsWithResult res s) :=
        ⟨hi, hcall.valid, hcall.text, hcall.tweak, hcall.numerals⟩
      have hres' : callResult p i (endsWithResult res s) = some res := hres
      have hagain := moveCommand_legal hp hinv' rfl hcall'
      rw [hres', endsWithCall, endsWithResult_again hinv.buffers] at hagain
      exact hagain

/-- Issuing a command that ended in IDLE again makes the same move. -/
theorem reissue {p : Params} (hp : p.wellFormed = true) (i : Instr) {s : State} (hinv : Inv p s) (hph : s.ph = .idle)
    (hend : (moveCommand p i s).state.ph = .idle) :
    moveCommand p i (moveCommand p i s).state = moveCommand p i s := by
  cases i
  case ctxFF1 => exact reissue_ctxFF1 hph
  case ctxFF31 => exact reissue_ctxFF31 hph
  all_goals exact reissue_cipher hp rfl hinv hph hend

/-- Settles O33: the second move is the first one. -/
theorem reissuingGivesTheSame : Obligations.ReissuingGivesTheSame := by
  intro i s t hinv hph hexec hend
  rw [exec_eq] at hexec
  cases hexec
  have hagain := reissue hardware_wellFormed i hinv hph hend
  rw [exec_eq, hagain]
  exact ⟨rfl, rfl⟩

end Sys2Proof.Machine
end

section
/-! SUPPORT. The command word read by the decoder: its table in both directions, its fields as bits, the words it
refuses, and how an illegal word ends (O1 to O5, O7). -/

namespace Sys2Proof

/-! ### The command table (30_encoding.md R62) -/

/-- The decoder answers a command on the command's own word and on no other. -/
theorem decode_eq_ok_iff {w : Word} {i : Instr} : decode w = .ok i ↔ w = encode i := by
  constructor
  · exact decode_ok_word
  · rintro rfl
    exact Machine.decode_encode i

/-- The rows of R62, in its order. -/
def commandTable : List (Word × Instr) :=
  [Instr.ctxFF1, .ctxFF31, .enc, .encT, .dec, .decT].map fun i => (encode i, i)

theorem mem_commandTable {w : Word} {i : Instr} : (w, i) ∈ commandTable ↔ w = encode i := by
  have hrow : i ∈ [Instr.ctxFF1, .ctxFF31, .enc, .encT, .dec, .decT] := by cases i <;> decide
  constructor
  · intro h
    obtain ⟨j, -, hj⟩ := List.mem_map.mp h
    cases hj
    rfl
  · rintro rfl
    exact List.mem_map_of_mem hrow

/-- Settles O2: the six rows written out are the encoder's words. -/
theorem onlySixWordsDecode : Obligations.OnlySixWordsDecode := fun w i =>
  show decode w = .ok i ↔ (w, i) ∈ commandTable from decode_eq_ok_iff.trans mem_commandTable.symm

/-- Settles O1: `decode_encode` holds of every command. -/
theorem everyCommandDecodesItsOwnWord : Obligations.EveryCommandDecodesItsOwnWord := fun i _ => Machine.decode_encode i

/-- Settles O5: each row of digits is the encoder's word. -/
theorem sampleWordsDecode : Obligations.SampleWordsDecode :=
  ⟨decode_eq_ok_iff.mpr rfl, decode_eq_ok_iff.mpr rfl, decode_eq_ok_iff.mpr rfl, decode_eq_ok_iff.mpr rfl,
    decode_eq_ok_iff.mpr rfl, decode_eq_ok_iff.mpr rfl⟩

/-! ### The fields as bits (30_encoding.md R61) -/

/-- Bits `a .. a+n` of a word are its quotient and remainder by powers of two. -/
theorem toNat_extractLsb' (w : Word) (a n : Nat) : (w.extractLsb' a n).toNat = w.toNat / 2 ^ a % 2 ^ n := by
  rw [BitVec.extractLsb'_toNat, Nat.shiftRight_eq_div_pow]

/-- A part of a word is non-zero exactly when one of its bits is set. -/
theorem toNat_extractLsb'_ne_zero_iff (w : Word) (a n : Nat) :
    (w.extractLsb' a n).toNat ≠ 0 ↔ ∃ k, a ≤ k ∧ k < a + n ∧ w.getLsbD k = true := by
  have hbit : ∀ i, (w.extractLsb' a n).toNat.testBit i = true ↔ i < n ∧ w.getLsbD (a + i) = true := fun i => by
    rw [BitVec.testBit_toNat, BitVec.getLsbD_extractLsb', Bool.and_eq_true, decide_eq_true_iff]
  constructor
  · intro h
    obtain ⟨i, hi⟩ := Nat.exists_testBit_of_ne_zero h
    obtain ⟨hlt, hset⟩ := (hbit i).mp hi
    exact ⟨a + i, by omega, by omega, hset⟩
  · rintro ⟨k, hlow, hhigh, hset⟩ h0
    have hi := (hbit (k - a)).mpr ⟨by omega, by rwa [Nat.add_sub_cancel' hlow]⟩
    rw [h0, Nat.zero_testBit] at hi
    cases hi

/-- The quotient by 1024 is all of the 22 high bits, for a word has no others. -/
theorem fieldRsv_eq (w : Word) :
    fieldRsv w = (w.extractLsb' 6 2).toNat + 4 * (w.extractLsb' 10 22).toNat := by
  have hw := w.isLt
  rw [toNat_extractLsb', toNat_extractLsb', fieldRsv]
  omega

theorem fieldRsv_ne_zero_iff (w : Word) :
    fieldRsv w ≠ 0 ↔ ∃ k, (k = 6 ∨ k = 7 ∨ (10 ≤ k ∧ k < 32)) ∧ w.getLsbD k = true := by
  have hparts : fieldRsv w ≠ 0 ↔ (w.extractLsb' 6 2).toNat ≠ 0 ∨ (w.extractLsb' 10 22).toNat ≠ 0 := by
    rw [fieldRsv_eq]; omega
  rw [hparts, toNat_extractLsb'_ne_zero_iff, toNat_extractLsb'_ne_zero_iff, ← exists_or]
  refine exists_congr fun k => ?_
  have hrange : (k = 6 ∨ k = 7 ∨ (10 ≤ k ∧ k < 32)) ↔ (6 ≤ k ∧ k < 6 + 2) ∨ (10 ≤ k ∧ k < 10 + 22) := by omega
  rw [hrange, or_and_right, and_assoc, and_assoc]

/-- Settles O3, field by field. -/
theorem fieldsAreTheNamedBits : Obligations.FieldsAreTheNamedBits := by
  intro w
  refine ⟨?op, ?alg, ?dir, ?two, fieldRsv_eq w, fieldRsv_ne_zero_iff w⟩
  case op => rw [toNat_extractLsb', pow_zero, Nat.div_one]; rfl
  all_goals rw [toNat_extractLsb']; rfl

/-! ### The words that the decoder refuses (30_encoding.md R63) -/

theorem decodeContext_refuses_iff (w : Word) : (∃ e, decodeContext w = .error e) ↔
    (fieldAlg w ≠ 1 ∧ fieldAlg w ≠ 2) ∨ fieldDir w ≠ 0 ∨ fieldTwo w ≠ 0 := by
  unfold decodeContext
  split
  · next hflag => exact iff_of_true ⟨_, rfl⟩ (.inr hflag)
  · next hflag =>
    split
    · next h1 => simp [hflag, h1]
    · next h1 =>
      split
      · next h2 => simp [hflag, h2]
      · next h2 => exact iff_of_true ⟨_, rfl⟩ (.inl ⟨h1, h2⟩)

theorem decodeCipher_refuses_iff (w : Word) : (∃ e, decodeCipher w = .error e) ↔ fieldAlg w ≠ 0 := by
  unfold decodeCipher
  split
  · next halg => exact iff_of_true ⟨_, rfl⟩ halg
  · next halg =>
    refine iff_of_false ?_ halg
    rintro ⟨e, he⟩
    split at he <;> split at he <;> cases he

/-- Settles O4, by the branches of the decoder: must-be-zero bits, then the operation, then its own fields. -/
theorem illegalWordsByField : Obligations.IllegalWordsByField := by
  intro w
  unfold decode
  split
  · next hrsv => exact iff_of_true ⟨_, rfl⟩ (.inr (.inr (.inr hrsv)))
  · next hrsv =>
    split
    · next hop => rw [decodeContext_refuses_iff]; simp [hop, hrsv]
    · next hop1 =>
      split
      · next hop => rw [decodeCipher_refuses_iff]; simp [hop, hrsv]
      · next hop2 => exact iff_of_true ⟨_, rfl⟩ (.inl ⟨hop1, hop2⟩)

end Sys2Proof

namespace Sys2Proof.Machine

/-! ### The end of an illegal word (30_encoding.md R63, 60_exceptions.md R219) -/

/-- The next event of `issueNext` is the `CMD` write, and once it is taken the state is the one before. -/
@[simp] theorem afterFetch_issueNext (s : State) (w : Word) : (s.issueNext w).afterFetch = s := by
  simp [State.afterFetch, State.issueNext]

theorem step_issueNext (s : State) (w : Word) :
    step (s.issueNext w) = .next (moveWord Config.hardware w s).state := by
  rw [step_command (w := w) rfl, afterFetch_issueNext]

theorem observe_issueNext_port (p : Params) (s : State) (w : Word) :
    (observe p (s.issueNext w)).port = (moveWord p w s).txns := by
  rw [observe, afterFetch_issueNext]; rfl

/-- An illegal word is accepted and raises at once, so that the engine finds nothing to do. -/
theorem moveWord_illegal (p : Params) {s : State} {w : Word} {e : DecodeError} (hph : s.ph = .idle)
    (hd : decode w = .error e) : moveWord p w s = Move.start (endsWithError .illegalCommand s) := by
  have hrun : moveWord p w s = runIllegal p w s := by unfold moveWord; rw [hd]
  rw [hrun, runIllegal, runCommand_idle p w _ hph, raiseError_accept rfl]
  exact runEngine_waits p 12 (.inl rfl)

/-- Settles O7: both parts read off the one move. -/
theorem illegalWordEndsWithIllegalCommand : Obligations.IllegalWordEndsWithIllegalCommand := by
  intro s w e hph hd
  rw [step_issueNext, observe_issueNext_port, moveWord_illegal _ hph hd]
  exact ⟨rfl, rfl⟩

end Sys2Proof.Machine
end

section
/-! SUPPORT. Two layouts of bytes: FF1's variable block, and the tweak halves of FF3-1 (O58, O59). -/

namespace Sys2Proof.Machine

/-! ### FF1's variable block (30_encoding.md R66) -/

section

variable (radix b r : Nat) (t half : Bytes)

/-- The tweak stands first. -/
theorem ff1Q_take_tweak : (ff1Q radix t b r half).take t.length = t := by
  simp only [ff1Q, List.append_assoc, List.take_left]

/-- Between the tweak and the round index are zero bytes. -/
theorem ff1Q_padding {k : Nat} (hlow : t.length ≤ k) (hhigh : k < t.length + ff1Pad t.length b) :
    (ff1Q radix t b r half)[k]? = some 0 := by
  rw [ff1Q, List.append_assoc, List.getElem?_append_left (by simpa using hhigh), List.getElem?_append_right hlow,
    zeroBytes, List.getElem?_replicate_of_lt (by omega)]

/-- The round index follows the zero bytes. -/
theorem ff1Q_roundByte : (ff1Q radix t b r half)[t.length + ff1Pad t.length b]? = some (BitVec.ofNat 8 r) := by
  have hfront : t.length + ff1Pad t.length b = (t ++ zeroBytes (ff1Pad t.length b)).length := by simp
  rw [ff1Q, hfront, List.append_assoc, List.getElem?_append_right le_rfl, Nat.sub_self]
  rfl

/-- The numeral stands last. -/
theorem ff1Q_drop_numeral : (ff1Q radix t b r half).drop (t.length + ff1Pad t.length b + 1) =
    beBytes (numRadix radix half) b := by
  rw [ff1Q, List.drop_left' (by simp [Nat.add_assoc])]

end

/-- Settles O58, part by part of `Q`; the padding is below 16 and fills the last block. -/
theorem variableBlockLayout : Obligations.VariableBlockLayout := by
  intro radix b r t half hhalf hr
  have hmultiple := ff1Pad_multiple t.length b
  have hpad := ff1Pad_lt t.length b
  have hround : t.length + ff1Pad t.length b + 1 + b - b - 1 = t.length + ff1Pad t.length b := by omega
  rw [ff1Q_length, hround, Nat.add_sub_cancel]
  refine ⟨hmultiple, by omega, by omega, ff1Q_take_tweak .., ?padding, ?roundByte, ?numeral⟩
  case padding =>
    intro k hlow hhigh
    exact ff1Q_padding _ _ _ _ _ hlow (by omega)
  case roundByte =>
    rw [ff1Q_roundByte, Option.map_some, BitVec.toNat_ofNat, Nat.mod_eq_of_lt (by omega)]
  case numeral => rw [ff1Q_drop_numeral, numBytes_beBytes hhalf]

/-! ### The tweak halves of FF3-1 (30_encoding.md R70, 45_ff3_1_engine.md R177) -/

/-- The low nibble is the remainder by 16. -/
theorem toNat_and_lowNibble (x : Byte) : (x &&& 0x0F).toNat = x.toNat % 16 := by
  rw [BitVec.toNat_and]
  exact Nat.and_two_pow_sub_one_eq_mod x.toNat 4

/-- Clearing the low nibble shifts it out and zeros in. -/
theorem toNat_and_highNibble (x : Byte) : (x &&& 0xF0).toNat = 16 * (x.toNat / 16) := by
  have hshift : x &&& (0xF0 : Byte) = x >>> 4 <<< 4 :=
    (BitVec.shiftLeft_ushiftRight (x := x) (n := 4)).symm
  have hx := x.isLt
  rw [hshift, BitVec.toNat_shiftLeft, BitVec.toNat_ushiftRight, Nat.shiftRight_eq_div_pow, Nat.shiftLeft_eq]
  omega

theorem toNat_lowNibble_shiftLeft (x : Byte) : ((x &&& 0x0F) <<< 4).toNat = 16 * (x.toNat % 16) := by
  rw [BitVec.toNat_shiftLeft, toNat_and_lowNibble, Nat.shiftLeft_eq]
  omega

/-- A nibble shifted up comes back down whole. -/
theorem lowNibble_shiftLeft_shiftRight (x : Byte) : (x &&& 0x0F) <<< 4 >>> 4 = x &&& 0x0F := by
  apply BitVec.eq_of_toNat_eq
  rw [BitVec.toNat_ushiftRight, toNat_lowNibble_shiftLeft, toNat_and_lowNibble, Nat.shiftRight_eq_div_pow]
  omega

theorem highNibble_or_lowNibble (x : Byte) : (x &&& (0xF0 : Byte)) ||| (x &&& 0x0F) = x := by
  rw [← BitVec.and_or_distrib_left]
  exact BitVec.and_allOnes

/-- Settles O59: each half's last byte is a nibble of byte 3, as a mask and as a quotient or remainder by 16. -/
theorem tweakSplitKeepsEveryBit : Obligations.TweakSplitKeepsEveryBit := by
  intro t0 t1 t2 t3 t4 t5 t6
  refine ⟨?left, ?right, toNat_and_highNibble t3, toNat_lowNibble_shiftLeft t3, ?recovered⟩
  case left =>
    have hlast : BitVec.ofNat 8 (16 * (t3.toNat / 16)) = t3 &&& 0xF0 := by
      rw [← toNat_and_highNibble, BitVec.ofNat_toNat, BitVec.setWidth_eq]
    exact congrArg (fun last => [t0, t1, t2, last]) hlast
  case right =>
    have hlast : BitVec.ofNat 8 (16 * (t3.toNat % 16)) = (t3 &&& 0x0F) <<< 4 := by
      rw [← toNat_lowNibble_shiftLeft, BitVec.ofNat_toNat, BitVec.setWidth_eq]
    exact congrArg (fun last => [t4, t5, t6, last]) hlast
  case recovered =>
    rw [lowNibble_shiftLeft_shiftRight]
    exact highNibble_or_lowNibble t3

end Sys2Proof.Machine
end

section
/-! SUPPORT. Context construction: the text bounds as integer logarithms, and how each context command ends (O34 to
O39). -/

namespace Sys2Proof.Machine

/-! ### The text bounds (40_context.md R83 to R88) -/

/-- Of a property that stays true once it holds, and holds at `n`, the search below `n` finds the threshold. -/
theorem find?_range_getD_le_iff {P : Nat → Prop} [DecidablePred P] (hmono : ∀ {i j}, i ≤ j → P i → P j) {n : Nat}
    (hn : P n) (l : Nat) : ((List.range n).find? fun i => decide (P i)).getD n ≤ l ↔ P l := by
  cases hfind : (List.range n).find? fun i => decide (P i) with
  | none =>
    have hbelow := List.find?_range_eq_none.mp hfind
    refine ⟨fun h => hmono h hn, fun hl => Nat.le_of_not_lt fun hlt => ?_⟩
    simpa [hl] using hbelow l hlt
  | some i =>
    obtain ⟨hi, -, hbelow⟩ := List.find?_range_eq_some.mp hfind
    refine ⟨fun h => hmono h (of_decide_eq_true hi), fun hl => Nat.le_of_not_lt fun hlt => ?_⟩
    simpa [hl] using hbelow l hlt

/-- `txt_min` is the least length whose domain has a million strings: the lower bound 2 of R84 never binds. -/
theorem textMin_le_iff {radix : Nat} (h : 2 ≤ radix) (h' : radix ≤ 36) (l : Nat) :
    textMin radix ≤ l ↔ 1000000 ≤ radix ^ l := by
  have hdoc : textMin radix = textMinDoc radix := by
    have hfour := (textMin_bounds h h').1
    unfold textMin at hfour ⊢
    omega
  have htwenty : Config.textMinDomain ≤ radix ^ 20 :=
    (show Config.textMinDomain ≤ 2 ^ 20 by decide).trans (Nat.pow_le_pow_left h 20)
  rw [hdoc]
  exact find?_range_getD_le_iff (P := fun k => Config.textMinDomain ≤ radix ^ k)
    (fun hij hi => hi.trans (Nat.pow_le_pow_right (by omega) hij)) htwenty l

/-- The FF3-1 bound is the greatest length whose domain has at most `2^192` strings: the search counts down from 192. -/
theorem le_ff31TextMaxDoc_iff {radix : Nat} (h : 2 ≤ radix) (l : Nat) :
    l ≤ ff31TextMaxDoc radix ↔ radix ^ l ≤ 2 ^ 192 := by
  have hsearch := find?_range_getD_le_iff (P := fun k => radix ^ (192 - k) ≤ 2 ^ 192) (n := 192)
    (fun hij hi => (Nat.pow_le_pow_right (by omega) (by omega)).trans hi) (by simp)
  by_cases hl : l ≤ 192
  · have hfound := hsearch (192 - l)
    rw [Nat.sub_sub_self hl] at hfound
    have hwithin := (hsearch 192).mpr (by simp)
    rw [← hfound, ff31TextMaxDoc]
    omega
  · have hlarge : 2 ^ 192 < radix ^ l :=
      (Nat.pow_lt_pow_right (by omega) (by omega)).trans_le (Nat.pow_le_pow_left h l)
    have hcap : ff31TextMaxDoc radix ≤ 192 := Nat.sub_le ..
    omega

/-- Settles O38. -/
theorem textBoundsAreTheIntegerLogarithms : Obligations.TextBoundsAreTheIntegerLogarithms := fun _ h h' =>
  ⟨textMin_le_iff h h', (textMin_bounds h h').1, le_ff31TextMaxDoc_iff h⟩

/-- Settles O39: `txt_min` is at most 20, and the FF3-1 bound is between 37 and 192. -/
theorem textBoundCheckNeverFails : Obligations.TextBoundCheckNeverFails := by
  intro p radix hp h h'
  have hcap := wellFormed_bounds hp
  have hmin := textMin_bounds h h'
  have hlow := ff31TextMaxDoc_bound h h'
  have hhigh : ff31TextMaxDoc radix ≤ 192 := Nat.sub_le ..
  rw [ff1TextMax_eq hp, ff31TextMax]
  omega

/-! ### How a context command ends (40_context.md R80 to R94) -/

/-- What an accepted `CTX.FF1` latches. -/
abbrev ff1Latches (p : Params) (s : State) : Latches := latchOperands p (encode .ctxFF1) s.reg s.buf

/-- What an accepted `CTX.FF31` latches. -/
abbrev ff31Latches (p : Params) (s : State) : Latches := latchOperands p (encode .ctxFF31) s.reg s.buf

theorem not_radixLegal_iff (l : Latches) : ¬radixLegal l ↔ l.radix.toNat < 2 ∨ 36 < l.radix.toNat := by
  unfold radixLegal Config.radixMin Config.radixMax
  omega

/-- The context of R91 from the host's operands: within the capacities the latches lose nothing of them. -/
theorem ctxFF1Context_latched {p : Params} (hp : p.wellFormed = true) {s : State} (hkey : s.reg.keylen.toNat ≤ 32)
    (htwk : s.reg.twklen.toNat ≤ p.tCap) : ctxFF1Context p (ff1Latches p s) =
      { valid := true, alg := .ff1, klen := s.reg.keylen.toNat, key := keyInput s, radix := s.reg.radix.toNat,
        dtwklen := s.reg.twklen.toNat, dtwk := tweakInput s, twkMin := s.reg.twkmin.toNat,
        twkMax := s.reg.twkmax.toNat, txtMin := textMin s.reg.radix.toNat, txtMax := p.nCap } := by
  rw [ctxFF1Context, keyOperand_latched p _ s hkey, tweakOperand_latched p _ s htwk, ff1TextMax_eq hp]
  rfl

/-- The context of R92 from the host's operands, of which the tweak is the seven bytes that the check asks for. -/
theorem ctxFF31Context_latched {p : Params} (hp : p.wellFormed = true) {s : State} (hkey : s.reg.keylen.toNat ≤ 32)
    (htwk : s.reg.twklen.toNat = 7) : ctxFF31Context p (ff31Latches p s) =
      { valid := true, alg := .ff31, klen := s.reg.keylen.toNat, key := (keyInput s).reverse,
        radix := s.reg.radix.toNat, dtwklen := 7, dtwk := s.buf.twk.load 7, twkMin := 7, twkMax := 7,
        txtMin := textMin s.reg.radix.toNat, txtMax := min (ff31TextMaxDoc s.reg.radix.toNat) p.nCap } := by
  have hcap := wellFormed_bounds hp
  rw [ctxFF31Context, keyOperand_latched p _ s hkey, twk_latched p _ s (by omega), tweakInput, htwk, slice_zero,
    Memory.take_load]
  rfl

/-- Settles O34: the checks pass, and what the commit stores is `ctxFF1Context_latched`. -/
theorem ctxFF1StoresTheContext : Obligations.CtxFF1StoresTheContext := by
  intro s hph hkey hlow hhigh horder hfits hmin hmax
  obtain ⟨hbounds, -⟩ := textBoundCheckNeverFails Config.hardware _ hardware_wellFormed hlow hhigh
  have htweak : ff1TweakError Config.hardware (ff1Latches Config.hardware s) = none :=
    ff1TweakError_eq_none.mpr ⟨horder, hfits, hmin, hmax⟩
  have hpass : ctxFF1Error Config.hardware (ff1Latches Config.hardware s) = none :=
    ctxFF1Error_eq_none.mpr ⟨hkey, ⟨hlow, hhigh⟩, hbounds, htweak⟩
  rw [exec_eq, moveCommand, moveCtxFF1_idle hph, hpass,
    ctxFF1Context_latched hardware_wellFormed (by omega) hfits]
  exact ⟨rfl, rfl⟩

/-- Settles O36: the checks pass, and what the commit stores is `ctxFF31Context_latched`. -/
theorem ctxFF31StoresTheContext : Obligations.CtxFF31StoresTheContext := by
  intro s hph hkey hlow hhigh htwk
  obtain ⟨-, hbounds, -⟩ := textBoundCheckNeverFails Config.hardware _ hardware_wellFormed hlow hhigh
  have hpass : ctxFF31Error Config.hardware (ff31Latches Config.hardware s) = none :=
    ctxFF31Error_eq_none.mpr ⟨hkey, ⟨hlow, hhigh⟩, hbounds, htwk⟩
  rw [exec_eq, moveCommand, moveCtxFF31_idle hph, hpass,
    ctxFF31Context_latched hardware_wellFormed (by omega) htwk]
  exact ⟨rfl, rfl⟩

/-- Settles O35: the latches hold the operands, so the checks answer the first failure listed. -/
theorem ctxFF1ReportsTheFirstFailure : Obligations.CtxFF1ReportsTheFirstFailure := by
  intro s e hph hfirst
  have hfail : ctxFF1Error Config.hardware (ff1Latches Config.hardware s) = some e := by
    rw [ctxFF1Error_eq hardware_wellFormed]
    simp only [not_radixLegal_iff]
    exact hfirst
  rw [exec_eq, moveCommand, moveCtxFF1_idle hph, hfail]
  exact ⟨rfl, rfl⟩

/-- Settles O37: the latches hold the operands, so the checks answer the first failure listed. -/
theorem ctxFF31ReportsTheFirstFailure : Obligations.CtxFF31ReportsTheFirstFailure := by
  intro s e hph hfirst
  have hfail : ctxFF31Error Config.hardware (ff31Latches Config.hardware s) = some e := by
    rw [ctxFF31Error_eq hardware_wellFormed]
    simp only [not_radixLegal_iff]
    exact hfirst
  rw [exec_eq, moveCommand, moveCtxFF31_idle hph, hfail]
  exact ⟨rfl, rfl⟩

end Sys2Proof.Machine
end

section
/-! SUPPORT. The numeral codec and the byte utilities as statements: a digit by its character range, `decode` as a
positional sum, the round trips, and the byte widths (O53 to O57). -/

namespace Sys2Proof.Machine

/-! ### Digits (41_numeral_codec.md R101) -/

/-- The digit values by the three character ranges, which do not meet. -/
theorem digitValue_eq_some_iff {ch : Byte} {d : Nat} : digitValue ch = some d ↔
    (d ≤ 9 ∧ ch.toNat = 0x30 + d) ∨ (10 ≤ d ∧ d ≤ 35 ∧ ch.toNat = 0x61 + (d - 10)) ∨
      (10 ≤ d ∧ d ≤ 35 ∧ ch.toNat = 0x41 + (d - 10)) := by
  unfold digitValue
  by_cases hdec : 0x30 ≤ ch.toNat ∧ ch.toNat ≤ 0x39
  · rw [if_pos hdec, Option.some.injEq]
    omega
  rw [if_neg hdec]
  by_cases hlow : 0x61 ≤ ch.toNat ∧ ch.toNat ≤ 0x7A
  · rw [if_pos hlow, Option.some.injEq]
    omega
  rw [if_neg hlow]
  by_cases hup : 0x41 ≤ ch.toNat ∧ ch.toNat ≤ 0x5A
  · rw [if_pos hup, Option.some.injEq]
    omega
  · rw [if_neg hup]
    simp only [reduceCtorEq, false_iff]
    omega

/-- Settles O53: a digit is a digit value below the radix, and the digit values are the three ranges. -/
theorem digitsByCharacterRange : Obligations.DigitsByCharacterRange := by
  intro ch radix d
  rw [digit_eq_some, digitValue_eq_some_iff, and_comm]

/-! ### decode as a positional sum (41_numeral_codec.md R102, R103) -/

/-- The sum of the digits weighted by their places, the first character most significant; a character that is no digit
counts as 0 (R102). -/
def positionalValue (radix : Nat) (s : Bytes) : Nat :=
  ((List.range s.length).map fun k => (digit (s.getD k 0) radix).getD 0 * radix ^ (s.length - 1 - k)).sum

@[simp] theorem positionalValue_nil (radix : Nat) : positionalValue radix [] = 0 := rfl

/-- The first character has the weight `radix^L` of the L characters behind it, which keep their own weights. -/
theorem positionalValue_cons (radix : Nat) (ch : Byte) (s : Bytes) : positionalValue radix (ch :: s) =
    (digit ch radix).getD 0 * radix ^ s.length + positionalValue radix s := by
  have hweight (k : Nat) : s.length - 1 - k = s.length - (k + 1) := by omega
  simp [positionalValue, List.range_succ_eq_map, Function.comp_def, hweight]

/-- What is accumulated before a string is weighted by the whole string. -/
theorem accumulate_eq_positionalValue {radix acc v : Nat} {s : Bytes} (h : accumulate radix acc s = some v) :
    v = acc * radix ^ s.length + positionalValue radix s := by
  induction s generalizing acc with
  | nil =>
    obtain rfl : acc = v := Option.some.inj h
    simp
  | cons ch s ih =>
    cases hdigit : digit ch radix with
    | none => simp [accumulate, hdigit] at h
    | some d =>
      have hrest : accumulate radix (acc * radix + d) s = some v := by simpa [accumulate, hdigit] using h
      rw [ih hrest, positionalValue_cons, hdigit, Option.getD_some, List.length_cons]
      ring

/-- The accumulation fails exactly on a character that is no digit. -/
theorem accumulate_eq_none_iff {radix acc : Nat} {s : Bytes} :
    accumulate radix acc s = none ↔ ∃ ch ∈ s, digit ch radix = none := by
  rw [← Option.not_isSome_iff_eq_none, accumulate_isSome]
  simp

/-- Settles O54: on a non-empty string `decode` is the accumulation from 0. -/
theorem decodeIsThePositionalValue : Obligations.DecodeIsThePositionalValue := by
  intro s radix
  by_cases hs : s = []
  · subst hs
    exact ⟨by simp [decodeNumeral], fun v hv => by simp [decodeNumeral] at hv⟩
  · have hdecode := decodeNumeral_of_ne_nil hs radix
    refine ⟨by rw [hdecode, accumulate_eq_none_iff, or_iff_right hs], fun v hv => ⟨?_, decodeNumeral_lt hv⟩⟩
    rw [hdecode] at hv
    calc v = 0 * radix ^ s.length + positionalValue radix s := accumulate_eq_positionalValue hv
      _ = positionalValue radix s := by rw [Nat.zero_mul, Nat.zero_add]

/-! ### The round trips (41_numeral_codec.md R106 to R108, R123, R126) -/

/-- Every character of the string is a digit. -/
theorem allDigits_iff_forall {radix : Nat} {s : Bytes} :
    allDigits radix s = true ↔ ∀ ch ∈ s, ∃ d, digit ch radix = some d := by
  simp only [allDigits, List.all_eq_true, Option.isSome_iff_exists]

/-- Settles O55: `render` is undone by `decode`, and a string of digits is in lower case the rendering of its value. -/
theorem codecRoundTrips : Obligations.CodecRoundTrips := by
  intro radix hlow hhigh
  refine ⟨fun value width hwidth hvalue => ?encoded, fun s hs hdigits => ?decoded⟩
  case encoded =>
    have hwidth' : width ≠ 0 := Nat.one_le_iff_ne_zero.mp hwidth
    exact ⟨render value radix width, encodeNumeral_of_lt hwidth' hvalue, render_length ..,
      decodeNumeral_render (by omega) hhigh hwidth' hvalue⟩
  case decoded =>
    have hlen : s.length ≠ 0 := mt List.length_eq_zero_iff.mp hs
    have hall := allDigits_iff_forall.mpr hdigits
    refine ⟨numRadix radix s, decodeNumeral_digits hlen hall, ?_⟩
    rw [encodeNumeral_of_lt hlen (numRadix_lt hlen hall), render_numRadix hlen hall]

/-- `BE` answers the bytes of a number that fits, and only of such a one. -/
theorem be_eq_some_iff {x w : Nat} {e : Bytes} : be x w = some e ↔ x < 256 ^ w ∧ beBytes x w = e := by
  rw [be_eq, Option.ite_none_right_eq_some, Option.some.injEq]

/-- `BE` fails exactly where the number does not fit. -/
theorem be_eq_none_iff {x w : Nat} : be x w = none ↔ 256 ^ w ≤ x := by
  rw [be_eq, ite_eq_right_iff, ← Nat.not_lt]
  simp only [reduceCtorEq, imp_false]

/-- Settles O56. -/
theorem bigEndianBytesRoundTrip : Obligations.BigEndianBytesRoundTrip := by
  refine ⟨fun x w => be_eq_none_iff, fun x w e he => ?_, fun e => ?_⟩
  · obtain ⟨hfits, rfl⟩ := be_eq_some_iff.mp he
    exact ⟨beBytes_length x w, numBytes_beBytes hfits⟩
  · exact be_eq_some_iff.mpr ⟨numBytes_lt e, beBytes_numBytes e⟩

/-! ### The byte widths (41_numeral_codec.md R112, 44_ff1_engine.md R151, R152) -/

/-- `d` is the least multiple of 4 that is at least `b`, and 4 more (R152). -/
theorem ff1RandomBytes_bounds (bb : Nat) :
    ff1RandomBytes bb % 4 = 0 ∧ bb + 4 ≤ ff1RandomBytes bb ∧ ff1RandomBytes bb ≤ bb + 7 := by
  unfold ff1RandomBytes
  omega

/-- Settles O57: `clog2pow` is a `bitlen`, which is least, and `b` is it in whole bytes. -/
theorem byteWidthsAreLeast : Obligations.ByteWidthsAreLeast := by
  intro radix v hradix
  have hpos : 0 < radix := by omega
  exact ⟨clog2pow_le_iff hpos v, bitlen_le_iff (radix ^ v - 1), ff1ByteWidth_le_iff hpos v, ff1RandomBytes_bounds _⟩

end Sys2Proof.Machine
end

section
/-! SUPPORT. What a cipher command sends on the AES port: how many transactions, and of which kind; and the keyed block
function as its statements have it (O50 to O52). -/

namespace Sys2Proof.Machine

/-! ### `prf` and `ciph` (43_keyed_block_function.md R131, R132) -/

/-- Settles O51, by the length of the input. -/
theorem prfIsTheChainOfItsBlocks : Obligations.PrfIsTheChainOfItsBlocks := by
  intro p x m
  refine ⟨fun hillegal => prf_illegal p hillegal m, fun hpos hblocks => ⟨?flow, ?count, ?width⟩⟩
  case flow => exact prf_legal p hpos hblocks m
  case count => exact prfTxns_length ..
  case width => exact prfValue_length ..

/-- With a key loaded the primitive answers with that key (R133). -/
theorem ciphValue_loaded (p : Params) (k x : Bytes) : ciphValue p (some k) x = (p.aes k x).toList := rfl

/-- Settles O52: `ciph` is `prf`, and `prf` of one block is one encryption of it. -/
theorem ciphIsOneEncryption : Obligations.CiphIsOneEncryption := by
  intro p x m k hblock hkey
  have honce := ciph_block p hblock m
  rw [hkey, ciphTxn, ciphValue_loaded] at honce
  exact ⟨rfl, honce⟩

/-! ### The kind of the transactions (43_keyed_block_function.md R134) -/

/-- Every transaction of the list is an `AesEnc`. -/
def EncOnly (txns : List PortTxn) : Prop := ∀ txn ∈ txns, ∃ b r, txn = .enc b r

theorem encOnly_nil : EncOnly [] := List.forall_mem_nil _

theorem encOnly_enc_cons (b r : Bytes) (txns : List PortTxn) : EncOnly (.enc b r :: txns) ↔ EncOnly txns := by
  simp [EncOnly]

theorem encOnly_append (l₁ l₂ : List PortTxn) : EncOnly (l₁ ++ l₂) ↔ EncOnly l₁ ∧ EncOnly l₂ :=
  List.forall_mem_append

theorem encOnly_macTxns (p : Params) (key : Option Bytes) (y : Bytes) (xs : List Bytes) :
    EncOnly (macTxns p key y xs) := by
  induction xs generalizing y with
  | nil => exact encOnly_nil
  | cons x xs ih => exact (encOnly_enc_cons ..).mpr (ih _)

theorem encOnly_prfTxns (p : Params) (key : Option Bytes) (x : Bytes) : EncOnly (prfTxns p key x) :=
  encOnly_macTxns p key _ _

section

variable (p : Params) (key : Option Bytes) (radix n : Nat) (t : Bytes) (d : Direction)

/-- A round of FF1 is a `prf` and then one `ciph` per extension block. -/
theorem encOnly_ff1RoundTxns (r : Nat) (half : Bytes) : EncOnly (ff1RoundTxns p key radix n t r half) := by
  refine (encOnly_append ..).mpr ⟨encOnly_prfTxns p key _, ?extension⟩
  case extension => exact List.forall_mem_map.mpr fun j _ => ⟨_, _, rfl⟩

theorem encOnly_ff1RoundsTxns (rounds : List Nat) (ab : Bytes × Bytes) :
    EncOnly (ff1RoundsTxns p key radix n t d rounds ab) := by
  induction rounds generalizing ab with
  | nil => exact encOnly_nil
  | cons i rounds ih => exact (encOnly_append ..).mpr ⟨encOnly_ff1RoundTxns p key radix n t _ _, ih _⟩

theorem encOnly_ff31RoundsTxns (rounds : List Nat) (ab : Bytes × Bytes) :
    EncOnly (ff31RoundsTxns p key radix n t d rounds ab) := by
  induction rounds generalizing ab with
  | nil => exact encOnly_nil
  | cons i rounds ih =>
    rw [ff31RoundsTxns]
    split
    · exact (encOnly_enc_cons ..).mpr (ih _)
    · exact encOnly_nil

/-! ### The number of the transactions of FF1 (44_ff1_engine.md R171) -/

/-- `AES(P)`, the blocks of `Q`, and the extension blocks: the one of `P` and the one block of `S` that needs no
extension cancel (R157, R158). -/
theorem ff1RoundTxns_length (r : Nat) (half : Bytes) :
    (ff1RoundTxns p key radix n t r half).length =
      (t.length + ff1Pad t.length (ff1ByteWidth radix (n - n / 2)) + 1 + ff1ByteWidth radix (n - n / 2)) / 16
        + (ff1RandomBytes (ff1ByteWidth radix (n - n / 2)) + 15) / 16 := by
  have hd := (ff1RandomBytes_bounds (ff1ByteWidth radix (n - n / 2))).2.1
  rw [ff1RoundTxns, List.length_append, prfTxns_length, ff1Input_length, List.length_map, List.length_range,
    ff1ExtensionCount]
  omega

/-- Every round makes as many transactions as the others, since their number reads neither the index nor the half. -/
theorem ff1RoundsTxns_length (rounds : List Nat) (ab : Bytes × Bytes) :
    (ff1RoundsTxns p key radix n t d rounds ab).length =
      rounds.length *
        ((t.length + ff1Pad t.length (ff1ByteWidth radix (n - n / 2)) + 1 + ff1ByteWidth radix (n - n / 2)) / 16
          + (ff1RandomBytes (ff1ByteWidth radix (n - n / 2)) + 15) / 16) := by
  induction rounds generalizing ab with
  | nil => exact (Nat.zero_mul _).symm
  | cons i rounds ih =>
    rw [ff1RoundsTxns, List.length_append, ff1RoundTxns_length, ih, List.length_cons, Nat.succ_mul, Nat.add_comm]

/-! ### The number of the transactions of FF3-1 (45_ff3_1_engine.md R196) -/

/-- There is at most one transaction for each round. -/
theorem ff31RoundsTxns_length_le (rounds : List Nat) (ab : Bytes × Bytes) :
    (ff31RoundsTxns p key radix n t d rounds ab).length ≤ rounds.length := by
  induction rounds generalizing ab with
  | nil => exact Nat.le_refl _
  | cons i rounds ih =>
    rw [ff31RoundsTxns]
    split
    · exact Nat.succ_le_succ (ih _)
    · exact Nat.zero_le _

/-- Every round has its transaction exactly if no round stops the command (R182). -/
theorem ff31RoundsTxns_length_eq_iff (rounds : List Nat) (ab : Bytes × Bytes) :
    (ff31RoundsTxns p key radix n t d rounds ab).length = rounds.length ↔
      ff31Halves p key radix n t d rounds ab ≠ none := by
  induction rounds generalizing ab with
  | nil => simp [ff31RoundsTxns, ff31Halves]
  | cons i rounds ih =>
    cases hround : ff31RoundPair p key radix n t d i ab with
    | none => simp [ff31RoundsTxns, ff31Halves, hround]
    | some ab' => simpa [ff31RoundsTxns, ff31Halves, hround] using ih ab'

end

/-- FF3-1 has a value exactly if no round stops it. -/
theorem ff31Cipher_eq_none_iff (p : Params) (key : Option Bytes) (radix : Nat) (d : Direction) (t x : Bytes) :
    ff31Cipher p key radix d t x = none ↔
      ff31Halves p key radix x.length t d (List.range Config.roundsFF31)
        (splitHalves d x (x.length - x.length / 2) x.length) = none := by
  rw [ff31Cipher]
  split
  next ab hvalue => simp only [hvalue, reduceCtorEq]
  next hstop => simp only [hstop]

theorem ff31Txns_length_le (p : Params) (key : Option Bytes) (radix : Nat) (d : Direction) (t x : Bytes) :
    (ff31Txns p key radix d t x).length ≤ 8 :=
  ff31RoundsTxns_length_le ..

theorem ff31Txns_length_eq_iff (p : Params) (key : Option Bytes) (radix : Nat) (d : Direction) (t x : Bytes) :
    (ff31Txns p key radix d t x).length = 8 ↔ ff31Cipher p key radix d t x ≠ none := by
  rw [Ne, ff31Cipher_eq_none_iff]
  exact ff31RoundsTxns_length_eq_iff ..

/-- Settles O50, from the count and the kind of each round's transactions. -/
theorem transactionCounts : Obligations.TransactionCounts := by
  intro p key radix d t x
  refine ⟨ff1RoundsTxns_length .., (ff31Txns_length_eq_iff ..).mpr, fun hstop => ?stopped, ?kind⟩
  case stopped =>
    have hne : (ff31Txns p key radix d t x).length ≠ 8 := fun hfull => (ff31Txns_length_eq_iff ..).mp hfull hstop
    have hle := ff31Txns_length_le p key radix d t x
    omega
  case kind =>
    exact (encOnly_append ..).mpr
      ⟨encOnly_ff1RoundsTxns p key radix _ t d _ _, encOnly_ff31RoundsTxns p key radix _ t d _ _⟩

end Sys2Proof.Machine
end

section
/-! SUPPORT. How a cipher command fails or ends: the first failing check, the default tweak, the result of an FF1
command, and the only way into the fatal stop (O28, O40, O41, O42). -/

namespace Sys2Proof.Machine

/-! ### The first failing check (44_ff1_engine.md R145, 60_exceptions.md R202) -/

/-- The check of R145 that a cipher command fails first, by the error it reports. -/
inductive FirstFailure (p : Params) (i : Instr) (s : State) : ErrorName → Prop where
  | context (hv : s.ctx.valid = false) : FirstFailure p i s .noContext
  | text (hv : s.ctx.valid = true) (h : ¬textLengthLegal s) : FirstFailure p i s .invalidTextLength
  | tweak (hv : s.ctx.valid = true) (htext : textLengthLegal s) (h : ¬tweakLengthLegal p i s) :
      FirstFailure p i s .invalidTweakLength
  | numerals (hv : s.ctx.valid = true) (htext : textLengthLegal s) (htweak : tweakLengthLegal p i s)
      (h : ¬numeralsLegal s) : FirstFailure p i s .invalidNumeral

/-- A cipher command fails one of its checks first, or it is legal. -/
theorem firstFailure_or_callLegal (p : Params) {i : Instr} (hi : isCipher i = true) (s : State) :
    (∃ e, FirstFailure p i s e) ∨ CallLegal p i s := by
  cases hv : s.ctx.valid with
  | false => exact .inl ⟨_, .context hv⟩
  | true =>
    by_cases htext : textLengthLegal s
    · by_cases htweak : tweakLengthLegal p i s
      · by_cases hnum : numeralsLegal s
        · exact .inr ⟨hi, hv, htext, htweak, hnum⟩
        · exact .inl ⟨_, .numerals hv htext htweak hnum⟩
      · exact .inl ⟨_, .tweak hv htext htweak⟩
    · exact .inl ⟨_, .text hv htext⟩

/-- In a state of the invariant a valid context is a legal one (10_state.md R22). -/
theorem contextLegal_of_valid {p : Params} {s : State} (hinv : Inv p s) (hv : s.ctx.valid = true) :
    ContextLegal p s.ctx := by
  have hctx := hinv.context
  rw [ContextConsistent, if_pos hv] at hctx
  exact hctx.1

/-- A cipher command in IDLE reports the check it fails first, and does nothing else. -/
theorem moveCommand_firstFailure {p : Params} {i : Instr} {s : State} {e : ErrorName} (hinv : Inv p s)
    (hph : s.ph = .idle) (hi : isCipher i = true) (hfail : FirstFailure p i s e) :
    moveCommand p i s = ⟨endsWithError e s, []⟩ := by
  obtain ⟨hnoctx, hreject⟩ := cipher_rejected (p := p) hi hph
  have herror := fun hv => operandError_accepted hi (contextLegal_of_valid hinv hv)
  cases hfail with
  | context hv => exact hnoctx hv
  | text hv h => exact hreject hv _ ((herror hv).1 h)
  | tweak hv htext h => exact hreject hv _ ((herror hv).2.1 htext h)
  | numerals hv htext htweak h => exact hreject hv _ ((herror hv).2.2.1 htext htweak h)

/-- Settles O40: each of the four cases is the one check that fails first. -/
theorem cipherReportsTheFirstFailure : Obligations.CipherReportsTheFirstFailure := by
  intro i s e hinv hph hi hcase
  have hfail : FirstFailure Config.hardware i s e := by
    rcases hcase with ⟨hv, rfl⟩ | ⟨hv, htext, rfl⟩ | ⟨hv, htext, htweak, rfl⟩ | ⟨hv, htext, htweak, hnum, rfl⟩
    · exact .context hv
    · exact .text hv htext
    · exact .tweak hv htext htweak
    · exact .numerals hv htext htweak hnum
  rw [exec_eq, moveCommand_firstFailure hinv hph hi hfail]
  exact ⟨rfl, rfl⟩

/-! ### The default tweak (44_ff1_engine.md R148, R246, R248) -/

/-- Construction has checked the default tweak against the bounds that it stored (40_context.md R90). -/
theorem tweakLengthError_default {p : Params} {c : Context} (h : ContextLegal p c) :
    tweakLengthError p c c.dtwklen = none :=
  tweakLengthError_eq_none.mpr ⟨h.dtwk_fits, h.dtwk_low, h.dtwk_high⟩

/-- Without an override the tweak in use is the default one. -/
theorem tweakLengthLegal_default {p : Params} {i : Instr} {s : State} (hc : ContextLegal p s.ctx)
    (hi : cipherOverride i = false) : tweakLengthLegal p i s := by
  have hlen : callTweakLength i s = s.ctx.dtwklen := by rw [callTweakLength, hi]; rfl
  rw [tweakLengthLegal, hlen]
  exact tweakLengthError_eq_none.mp (tweakLengthError_default hc)

theorem errorCode_eq_tweakLength_iff (e : ErrorName) : errorCode e = 0x04 ↔ e = .invalidTweakLength := by
  cases e <;> decide

/-- A command without an override does not fail the tweak check. -/
theorem firstFailure_ne_tweakLength {p : Params} {i : Instr} {s : State} {e : ErrorName} (hinv : Inv p s)
    (hi : cipherOverride i = false) (hfail : FirstFailure p i s e) : e ≠ .invalidTweakLength := by
  cases hfail with
  | tweak hv htext h => exact absurd (tweakLengthLegal_default (contextLegal_of_valid hinv hv) hi) h
  | context | text | numerals => decide

/-- A legal command ends with no error or with `LengthExceeded`. -/
theorem endsWithCall_errcode (res : Option Bytes) (s : State) :
    (endsWithCall res s).reg.errcode = if res.isSome then 0 else 0x06 := by
  cases res <;> rfl

/-- A cipher command without an override does not end with `InvalidTweakLength`. -/
theorem moveCommand_errcode_default {p : Params} (hp : p.wellFormed = true) {i : Instr} {s : State} (hinv : Inv p s)
    (hph : s.ph = .idle) (hi : isCipher i = true) (hover : cipherOverride i = false) :
    (moveCommand p i s).state.reg.errcode ≠ 0x04 := by
  rcases firstFailure_or_callLegal p hi s with ⟨e, hfail⟩ | hcall
  · rw [moveCommand_firstFailure hinv hph hi hfail]
    exact fun hcode => firstFailure_ne_tweakLength hinv hover hfail ((errorCode_eq_tweakLength_iff e).mp hcode)
  · rw [moveCommand_legal hp hinv hph hcall, endsWithCall_errcode]
    split <;> decide

/-- Settles O41. -/
theorem defaultTweakAlwaysPasses : Obligations.DefaultTweakAlwaysPasses := by
  refine ⟨fun p s hinv hv => tweakLengthError_default (contextLegal_of_valid hinv hv), ?_⟩
  intro i s t hi hinv hph hexec
  rw [exec_eq] at hexec
  cases hexec
  obtain ⟨hcipher, hover⟩ : isCipher i = true ∧ cipherOverride i = false := by rcases hi with rfl | rfl <;> decide
  exact moveCommand_errcode_default hardware_wellFormed hinv hph hcipher hover

/-! ### A legal command on an FF1 context (44_ff1_engine.md R164, R171) -/

/-- Settles O42: on an FF1 context the closed forms of `moveCommand_legal` are those of FF1. -/
theorem cipherCommandsComputeFF1 : Obligations.CipherCommandsComputeFF1 := by
  intro i _ s hinv hph hcall halg
  have hmove := moveCommand_legal hardware_wellFormed hinv hph hcall
  simp only [callResult, callTxns, halg] at hmove
  rw [exec_eq, hmove]
  exact ⟨rfl, rfl⟩

/-! ### The fatal stop (44_ff1_engine.md R170, 45_ff3_1_engine.md R198, 60_exceptions.md R205) -/

/-- The engine has stopped fatally on an FF3-1 overflow: it wrote the status of `LengthExceeded`, and kept the buffers,
the context and the AES key. -/
structure OverflowStop (s t : State) : Prop where
  valid : s.ctx.valid = true
  alg : s.ctx.alg = .ff31
  reg : t.reg = regsFailed .lengthExceeded s.reg
  buf : t.buf = s.buf
  ctx : t.ctx = s.ctx
  aespKey : t.aespKey = s.aespKey

theorem OverflowStop.of_raiseError {s : State} (hv : s.ctx.valid = true) (halg : s.ctx.alg = .ff31) :
    OverflowStop s (raiseError .lengthExceeded s) :=
  ⟨hv, halg, raiseError_reg .., raiseError_buf .., raiseError_ctx .., raiseError_aespKey ..⟩

theorem OverflowStop.of_kept {s t u : State} (h : OutsideKept s t) (hu : OverflowStop t u) : OverflowStop s u where
  valid := h.ctx ▸ hu.valid
  alg := h.ctx ▸ hu.alg
  reg := h.reg ▸ hu.reg
  buf := hu.buf.trans h.buf
  ctx := hu.ctx.trans h.ctx
  aespKey := hu.aespKey.trans h.aespKey

/-- In IDLE and FATAL a move of the engine changes nothing (10_state.md R32). -/
theorem engineMove_waits (p : Params) {m : Move} (h : m.state.ph = .idle ∨ m.state.ph = .fatal) :
    engineMove p m = m := runEngine_waits p 1 h

/-- Of the phases only ROUND leads to the fatal stop, and only where a round of FF3-1 overflows. -/
theorem engineMove_fatal {p : Params} (hp : p.wellFormed = true) {m : Move} (hinv : Inv p m.state)
    (hph : m.state.ph ≠ .fatal) (hfatal : (engineMove p m).state.ph = .fatal) :
    OverflowStop m.state (engineMove p m).state := by
  obtain ⟨s, tx⟩ := m
  cases hs : s.ph with
  | idle =>
    rw [engineMove_waits p (.inl hs)] at hfatal
    exact absurd hfatal hph
  | check =>
    rw [engineMove_check hs] at hfatal
    rw [Move.update_state] at hfatal
    have hcheck := checkPhase_ph p s
    simp [hfatal] at hcheck
  | setup =>
    rw [engineMove_setup hs, (inv_setup hp hinv hs tx).2.1] at hfatal
    cases hfatal
  | round =>
    rw [engineMove_round hs] at hfatal ⊢
    rcases (inv_round hp hinv hs tx).2 with ⟨-, hround, -⟩ | ⟨-, hfinish⟩ | ⟨halg, hv, hstop⟩
    · rw [hround] at hfatal; cases hfatal
    · rw [hfinish] at hfatal; cases hfatal
    · rw [hstop]; exact .of_raiseError hv halg
  | finish =>
    rw [engineMove_finish hs, (inv_finish hp hinv hs tx).2.1] at hfatal
    cases hfatal
  | fatal => exact absurd hs hph

/-- However far the engine runs, it stops fatally only on an FF3-1 overflow. -/
theorem runEngine_fatal {p : Params} (hp : p.wellFormed = true) (k : Nat) {m : Move} (hinv : Inv p m.state)
    (hph : m.state.ph ≠ .fatal) (hfatal : (runEngine p k m).state.ph = .fatal) :
    OverflowStop m.state (runEngine p k m).state := by
  induction k generalizing m with
  | zero => exact absurd hfatal hph
  | succ k ih =>
    rw [runEngine] at hfatal ⊢
    by_cases hstop : (engineMove p m).state.ph = .fatal
    · rw [runEngine_waits p k (.inr hstop)]
      exact engineMove_fatal hp hinv hph hstop
    · rcases (engineMove_reaches p m).kept_or_waits with hkept | hidle | hstop'
      · exact .of_kept hkept (ih (inv_engineMove hp hinv) hstop hfatal)
      · rw [runEngine_waits p k (.inl hidle)] at hfatal
        exact absurd hfatal hstop
      · exact absurd hstop' hstop

/-- The registers, the buffers, the context and the AES key after the fatal stop, the result length being 0 before. -/
theorem OverflowStop.observed {s t : State} (h : OverflowStop s t) (hlen : s.reg.outlen = 0) :
    s.ctx.valid = true ∧ s.ctx.alg = .ff31 ∧ t.reg.errcode = 0x06 ∧ t.reg.done = true ∧ t.reg.err = true ∧
      t.reg.outlen = 0 ∧ t.buf = s.buf ∧ t.ctx = s.ctx ∧ t.aespKey = s.aespKey := by
  refine ⟨h.valid, h.alg, ?_, ?_, ?_, ?_, h.buf, h.ctx, h.aespKey⟩
  · rw [h.reg]; rfl
  · rw [h.reg]; rfl
  · rw [h.reg]; rfl
  · rw [h.reg]; exact hlen

/-- Settles O28: a move of the engine and an accepted command are both a run of the engine, from a state with
`OUTLEN = 0`. -/
theorem fatalOnlyOnFF31Overflow : Obligations.FatalOnlyOnFF31Overflow := by
  rintro p s m hp hinv hph (rfl | ⟨w, rfl⟩) hfatal
  · have hbusy : s.busy = true := by
      rw [State.busy, Phase.busy_eq, decide_eq_true_iff]
      refine ⟨fun hidle => ?_, hph⟩
      rw [engineMove_waits p (.inl hidle)] at hfatal
      exact hph hfatal
    exact (engineMove_fatal hp (m := Move.start s) hinv hph hfatal).observed (busy_outlen hinv.status hbusy)
  · by_cases hidle : s.ph = .idle
    · rw [moveWord_idle hidle] at hfatal ⊢
      have hstop := runEngine_fatal hp 13 (m := Move.start (accept p w s)) (inv_accept w hinv hidle) (by simp) hfatal
      exact hstop.observed rfl
    · rw [moveWord_ignored hidle] at hfatal
      exact absurd hfatal hph

end Sys2Proof.Machine
end

section
/-! SUPPORT. The result of a cipher command: how the host reads it back, its length and alphabet, and that FF1 in the
other direction undoes it (O45, O47, O49). -/

namespace Sys2Proof.Machine

/-! ### The result in `OUT` (44_ff1_engine.md R163, 45_ff3_1_engine.md R190) -/

theorem endsWithResult_outlen (res : Bytes) (s : State) :
    (endsWithResult res s).reg.outlen = BitVec.ofNat 32 res.length := rfl

theorem endsWithResult_out (res : Bytes) (s : State) : (endsWithResult res s).buf.out = s.buf.out.store 0 res := rfl

/-- `OUTLEN` does not truncate a length that fits the buffer (R7). -/
theorem endsWithResult_outlen_toNat {p : Params} (hp : p.wellFormed = true) {res : Bytes} (hfits : res.length ≤ p.nCap)
    (s : State) : (endsWithResult res s).reg.outlen.toNat = res.length := by
  obtain ⟨-, hcap, -⟩ := wellFormed_bounds hp
  rw [endsWithResult_outlen, BitVec.toNat_ofNat, Nat.mod_eq_of_lt (by omega)]

theorem endsWithResult_read_inside {p : Params} {s : State} (hcanon : BuffersCanonical p s) {res : Bytes} {i : Nat}
    (h : i < res.length) : (endsWithResult res s).buf.out.read i = res[i] := by
  rw [endsWithResult_out, Memory.read_store hcanon.out.1, dif_pos (by omega)]
  rfl

theorem endsWithResult_read_beyond {p : Params} {s : State} (hcanon : BuffersCanonical p s) {res : Bytes} {i : Nat}
    (h : res.length ≤ i) : (endsWithResult res s).buf.out.read i = s.buf.out.read i := by
  rw [endsWithResult_out, Memory.read_store hcanon.out.1, dif_neg (by omega)]

/-- At and beyond `OUTLEN` the host reads 0 from `OUT`, inside the buffer and outside it (20_memory.md R42, R43). -/
theorem hostValue_out_beyond {s : State} {i : Nat} (h : s.reg.outlen.toNat ≤ i) (p : Params) :
    hostValue p s (.bufRead .out i) = some 0 := by
  have hread : readByte p s .out i = 0 := by
    by_cases hi : i < bufSize p .out
    · rw [readByte, if_pos hi, readByteInside_out_invalid h]
    · exact readByte_beyond (Nat.not_lt.mp hi) s
  rw [hostValue, hread]
  rfl

/-- Settles O45: below `OUTLEN` the host reads what was stored, from there on 0. -/
theorem resultIsReadBackFromOut : Obligations.ResultIsReadBackFromOut := by
  intro p s res hp hcanon hfits
  have hlen := endsWithResult_outlen_toNat hp hfits s
  refine ⟨hlen, fun i h => ?inside, fun i h => ⟨?beyond, endsWithResult_read_beyond hcanon h⟩, rfl, rfl, rfl⟩
  case inside =>
    have hbuf : i < bufSize p .out := Nat.lt_of_lt_of_le h hfits
    rw [hostValue_bufRead_inside hbuf, readByteInside_out_valid (by omega), endsWithResult_read_inside hcanon h]
  case beyond => exact hostValue_out_beyond (by omega) p

/-! ### Length and alphabet (44_ff1_engine.md R166, R167, 45_ff3_1_engine.md R193) -/

/-- Every character is the lower-case character of a digit of the radix. -/
def Rendered (radix : Nat) (x : Bytes) : Prop := ∀ ch ∈ x, ∃ dv, dv < radix ∧ ch = charOf dv

theorem rendered_render {radix : Nat} (hr : 2 ≤ radix) (value width : Nat) :
    Rendered radix (render value radix width) :=
  List.forall_mem_map.mpr fun _ _ => ⟨_, Nat.mod_lt _ (by omega), rfl⟩

theorem rendered_revs {radix : Nat} {x : Bytes} (h : Rendered radix x) : Rendered radix (revs x) :=
  fun ch hch => h ch (List.mem_reverse.mp hch)

theorem rendered_joinHalves {radix : Nat} {a b : Bytes} (d : Direction) (ha : Rendered radix a)
    (hb : Rendered radix b) : Rendered radix (joinHalves d a b) := by
  cases d with
  | encrypt => exact List.forall_mem_append.mpr ⟨ha, hb⟩
  | decrypt => exact List.forall_mem_append.mpr ⟨hb, ha⟩

theorem lower_eq_self {x : Bytes} (h : ∀ ch ∈ x, lowerChar ch = ch) : lower x = x :=
  (List.map_congr_left h).trans (List.map_id x)

/-- A rendered string has no upper-case letter (41_numeral_codec.md R107). -/
theorem lower_of_rendered {radix : Nat} (hr : radix ≤ 36) {x : Bytes} (h : Rendered radix x) : lower x = x := by
  refine lower_eq_self fun ch hch => ?_
  obtain ⟨dv, hdv, rfl⟩ := h ch hch
  exact (charOf_of_digitValue (digitValue_charOf (by omega))).symm

section

variable {p : Params} {key : Option Bytes} {radix n : Nat} {t : Bytes} {d : Direction}

theorem ff1Halves_append (l l' : List Nat) (ab : Bytes × Bytes) :
    ff1Halves p key radix n t d (l ++ l') ab = ff1Halves p key radix n t d l' (ff1Halves p key radix n t d l ab) := by
  induction l generalizing ab with
  | nil => rfl
  | cons i l ih => exact ih _

/-- The ten rounds end with two that render both halves. -/
theorem ff1Halves_all (ab : Bytes × Bytes) : ff1Halves p key radix n t d (List.range 10) ab =
    ff1RoundPair p key radix n t d 9 (ff1RoundPair p key radix n t d 8
      (ff1Halves p key radix n t d (List.range 8) ab)) :=
  ff1Halves_append (List.range 8) [8, 9] ab

theorem ff31Halves_append (l l' : List Nat) (ab : Bytes × Bytes) :
    ff31Halves p key radix n t d (l ++ l') ab =
      (ff31Halves p key radix n t d l ab).bind (ff31Halves p key radix n t d l') := by
  induction l generalizing ab with
  | nil => rfl
  | cons i l ih =>
    simp only [List.cons_append, ff31Halves]
    cases ff31RoundPair p key radix n t d i ab with
    | none => rfl
    | some ab' => exact ih ab'

/-- A round of FF3-1 that completes moves the second half to the front and renders a new one. -/
theorem ff31RoundPair_rendered (hr : 2 ≤ radix) {i : Nat} {ab ab' : Bytes × Bytes}
    (h : ff31RoundPair p key radix n t d i ab = some ab') : ab'.1 = ab.2 ∧ Rendered radix ab'.2 := by
  obtain ⟨-, rfl⟩ := ff31RoundPair_eq_some.mp h
  exact ⟨rfl, rendered_revs (rendered_render hr _ _)⟩

/-- Two rounds of FF3-1 render both halves. -/
theorem ff31Halves_two_rendered (hr : 2 ≤ radix) {i j : Nat} {ab res : Bytes × Bytes}
    (h : ff31Halves p key radix n t d [i, j] ab = some res) : Rendered radix res.1 ∧ Rendered radix res.2 := by
  simp only [ff31Halves] at h
  split at h
  · next ab' hfirst =>
    split at h
    · next ab'' hsecond =>
      cases h
      obtain ⟨hfront, hlast⟩ := ff31RoundPair_rendered hr hsecond
      exact ⟨hfront ▸ (ff31RoundPair_rendered hr hfirst).2, hlast⟩
    · cases h
  · cases h

end

/-- A value of FF1 is rendered, whatever its argument. -/
theorem rendered_ff1Cipher {radix : Nat} (hr : 2 ≤ radix) (p : Params) (key : Option Bytes) (d : Direction)
    (t x : Bytes) : Rendered radix (ff1Cipher p key radix d t x) := by
  simp only [ff1Cipher, Config.roundsFF1, ff1Halves_all]
  exact rendered_joinHalves d (rendered_render hr _ _) (rendered_render hr _ _)

/-- A value of FF3-1 is rendered, whatever its argument. -/
theorem rendered_ff31Cipher {radix : Nat} (hr : 2 ≤ radix) {p : Params} {key : Option Bytes} {d : Direction}
    {t x y : Bytes} (h : ff31Cipher p key radix d t x = some y) : Rendered radix y := by
  unfold ff31Cipher at h
  split at h
  · next ab hhalves =>
    cases h
    rw [show List.range Config.roundsFF31 = List.range 6 ++ [6, 7] from rfl, ff31Halves_append] at hhalves
    obtain ⟨_, -, htwo⟩ := Option.bind_eq_some_iff.mp hhalves
    obtain ⟨hfst, hsnd⟩ := ff31Halves_two_rendered hr htwo
    exact rendered_joinHalves d hfst hsnd
  · cases h

/-- Settles O49. -/
theorem resultsKeepLengthAndAlphabet : Obligations.ResultsKeepLengthAndAlphabet := by
  intro p key radix d t x hr _ _ _
  exact ⟨ff1Cipher_length .., rendered_ff1Cipher hr p key d t x,
    fun _ hy => ⟨ff31Cipher_length hy, rendered_ff31Cipher hr hy⟩⟩

/-! ### Split and join in the two directions (44_ff1_engine.md R150, R163) -/

theorem lower_joinHalves (d : Direction) (a b : Bytes) :
    lower (joinHalves d a b) = joinHalves d (lower a) (lower b) := by
  cases d with
  | encrypt => exact lower_append a b
  | decrypt => exact lower_append b a

theorem joinHalves_opposite (d : Direction) (a b : Bytes) : joinHalves (opposite d) a b = joinHalves d b a := by
  cases d <;> rfl

theorem joinHalves_splitHalves (d : Direction) (x : Bytes) (cut : Nat) :
    joinHalves d (splitHalves d x cut x.length).1 (splitHalves d x cut x.length).2 = x := by
  cases d <;> exact slice_append_slice x cut

/-- The part of a result that stands first. -/
def leadingHalf (d : Direction) (ab : Bytes × Bytes) : Bytes :=
  match d with
  | .encrypt => ab.1
  | .decrypt => ab.2

/-- The other direction splits a result into the halves that made it, exchanged. -/
theorem splitHalves_opposite_joinHalves {d : Direction} {ab : Bytes × Bytes} {cut n : Nat}
    (hcut : (leadingHalf d ab).length = cut) (hn : (joinHalves d ab.1 ab.2).length = n) :
    splitHalves (opposite d) (joinHalves d ab.1 ab.2) cut n = ab.swap := by
  subst hcut hn
  cases d with
  | encrypt => exact Prod.ext (slice_append_right ab.1 ab.2) (slice_append_left ab.1 ab.2)
  | decrypt => exact Prod.ext (slice_append_left ab.2 ab.1) (slice_append_right ab.2 ab.1)

/-! ### The rounds undone (44_ff1_engine.md R165) -/

/-- The halves before the round with index `r`: strings of digits of the two widths (10_state.md R26). -/
structure PairShaped (radix r u v : Nat) (ab : Bytes × Bytes) : Prop where
  fst : ab.1.length = roundWidth r u v
  snd : ab.2.length = roundWidth (r + 1) u v
  fst_digits : allDigits radix ab.1 = true
  snd_digits : allDigits radix ab.2 = true

/-- The split of a string of digits has the shape of the first round. -/
theorem pairShaped_split {radix rounds cut other : Nat} {x : Bytes} (d : Direction) (hrounds : rounds % 2 = 0)
    (hpos : 0 < rounds) (hcut : cut + other = x.length) (hx : allDigits radix x = true) :
    PairShaped radix (roundIndex rounds d 0) cut other (splitHalves d x cut x.length) := by
  obtain ⟨hfst, hsnd⟩ := splitHalves_widths d hrounds hpos hcut le_rfl
  obtain ⟨hfst_digits, hsnd_digits⟩ := splitHalves_digits hx d cut x.length
  exact ⟨hfst, hsnd, hfst_digits, hsnd_digits⟩

/-- The two pairs are exchanged, up to the case of letters. -/
def SwappedAlike (xy ab : Bytes × Bytes) : Prop := lower xy.1 = lower ab.2 ∧ lower xy.2 = lower ab.1

/-- Exchanged halves, joined in the other direction's order, give the string back. -/
theorem SwappedAlike.lower_join {xy ab : Bytes × Bytes} (h : SwappedAlike xy ab) (d : Direction) :
    lower (joinHalves (opposite d) xy.1 xy.2) = lower (joinHalves d ab.1 ab.2) := by
  obtain ⟨hfst, hsnd⟩ := h
  rw [joinHalves_opposite, lower_joinHalves, lower_joinHalves, hfst, hsnd]

section

variable {p : Params} {key : Option Bytes} {radix n : Nat} {t : Bytes} {d : Direction}

/-- A round gives the halves the shape of the next one. -/
theorem ff1RoundPair_shaped (hr : 2 ≤ radix) (hr' : radix ≤ 36) {i : Nat} (hi : i + 1 < 10) {ab : Bytes × Bytes}
    (h : PairShaped radix (roundIndex 10 d i) (n / 2) (n - n / 2) ab) :
    PairShaped radix (roundIndex 10 d (i + 1)) (n / 2) (n - n / 2) (ff1RoundPair p key radix n t d i ab) where
  fst := h.snd.trans (roundWidth_next d _ _ hi).symm
  snd := (render_length ..).trans (roundWidth_next_succ d _ _ hi).symm
  fst_digits := h.snd_digits
  snd_digits := allDigits_render hr hr' _ _

/-- The other direction's first `k` rounds undo the last `k` rounds. -/
theorem ff1Halves_undone (hr : 2 ≤ radix) (hr' : radix ≤ 36) (hn : 2 ≤ n) (k i : Nat) (hi : i + k = 10)
    {ab xy : Bytes × Bytes} (hshape : i < 10 → PairShaped radix (roundIndex 10 d i) (n / 2) (n - n / 2) ab)
    (hxy : SwappedAlike xy (ff1Halves p key radix n t d (List.range' i k) ab)) :
    SwappedAlike (ff1Halves p key radix n t (opposite d) (List.range k) xy) ab := by
  induction k generalizing i ab with
  | zero => exact hxy
  | succ k ih =>
    have hab := hshape (by omega)
    obtain ⟨hfst, hsnd⟩ := ih (i + 1) (by omega) (fun hi' => ff1RoundPair_shaped hr hr' hi' hab) hxy
    have hlast := ff1RoundPair_undone hr hr' hn (by omega) hab.fst hab.fst_digits hfst hsnd
    rw [show 9 - i = k by omega] at hlast
    rw [List.range_succ, ff1Halves_append, ff1Halves, ff1Halves, hlast]
    exact ⟨hsnd, lower_lower ab.1⟩

end

/-- The halves of FF1 after its ten rounds. -/
def ff1Final (p : Params) (key : Option Bytes) (radix : Nat) (d : Direction) (t x : Bytes) : Bytes × Bytes :=
  ff1Halves p key radix x.length t d (List.range 10) (splitHalves d x (x.length / 2) x.length)

section

variable (p : Params) (key : Option Bytes) (radix : Nat) (d : Direction) (t x : Bytes)

theorem ff1Cipher_eq_join : ff1Cipher p key radix d t x =
    joinHalves d (ff1Final p key radix d t x).1 (ff1Final p key radix d t x).2 := rfl

/-- After the ten rounds the half of `n / 2` characters stands first. -/
theorem leadingHalf_ff1Final_length : (leadingHalf d (ff1Final p key radix d t x)).length = x.length / 2 := by
  rw [ff1Final, ff1Halves_all]
  cases d <;> exact render_length ..

/-- The other direction starts from the halves that the first one ended with, exchanged. -/
theorem ff1Final_opposite : ff1Final p key radix (opposite d) t (ff1Cipher p key radix d t x) =
    ff1Halves p key radix x.length t (opposite d) (List.range 10) (ff1Final p key radix d t x).swap := by
  have hlen := ff1Cipher_length p key radix d t x
  have hsplit := splitHalves_opposite_joinHalves (leadingHalf_ff1Final_length p key radix d t x) hlen
  rw [ff1Final, hlen]
  exact congrArg _ hsplit

end

/-- FF1 in the other direction gives the text back in lower case (R165). -/
theorem ff1Cipher_opposite {radix : Nat} (hr : 2 ≤ radix) (hr' : radix ≤ 36) {x : Bytes} (hn : 2 ≤ x.length)
    (hx : allDigits radix x = true) (p : Params) (key : Option Bytes) (d : Direction) (t : Bytes) :
    ff1Cipher p key radix (opposite d) t (ff1Cipher p key radix d t x) = lower x := by
  have hundone : SwappedAlike (ff1Final p key radix (opposite d) t (ff1Cipher p key radix d t x))
      (splitHalves d x (x.length / 2) x.length) := by
    rw [ff1Final_opposite]
    exact ff1Halves_undone hr hr' hn 10 0 rfl (fun _ => pairShaped_split d rfl (by decide) (by omega) hx) ⟨rfl, rfl⟩
  calc ff1Cipher p key radix (opposite d) t (ff1Cipher p key radix d t x)
      = lower (ff1Cipher p key radix (opposite d) t (ff1Cipher p key radix d t x)) :=
        (lower_of_rendered hr' (rendered_ff1Cipher hr _ _ _ _ _)).symm
    _ = lower (joinHalves d (splitHalves d x (x.length / 2) x.length).1
          (splitHalves d x (x.length / 2) x.length).2) := hundone.lower_join d
    _ = lower x := by rw [joinHalves_splitHalves]

/-- Settles O47: the two clauses of the law are the two directions of `ff1Cipher_opposite`. -/
theorem ff1InverseLaw : Obligations.FF1InverseLaw := by
  intro p key radix t x hr hr' hn hx
  exact ⟨ff1Cipher_opposite hr hr' hn hx p key .encrypt t, ff1Cipher_opposite hr hr' hn hx p key .decrypt t,
    fun hlow => lower_eq_self fun ch hch => if_neg fun hup => by have := hlow ch hch; omega⟩

end Sys2Proof.Machine
end

section
/-! SUPPORT. FF3-1: where a round overflows, the other direction undoes a call that completes, the half of the tweak
that a round uses, and how a cipher command on an FF3-1 context ends (O43, O44, O46, O48, O60). -/

namespace Sys2Proof.Machine

/-! ### The half of the tweak (45_ff3_1_engine.md R180) -/

/-- Settles O60: the direction offset makes the selector's parity the opposite of the round index's. -/
theorem tweakHalfByRoundIndex : Obligations.TweakHalfByRoundIndex := by
  intro s hrnd
  have hparity := ff31_offset_parity s.work.dir hrnd
  rw [ff31Half]
  by_cases heven : roundIndex 8 s.work.dir s.rnd % 2 = 0
  · rw [if_neg (by omega), if_pos heven]
  · rw [if_pos (by omega), if_neg heven]

section

variable {p : Params} {key : Option Bytes} {radix n : Nat} {t : Bytes} {d : Direction}

/-! ### One round, and rounds in a row (45_ff3_1_engine.md R182, R189) -/

/-- A round overflows exactly on a second half that is no 12-byte number. -/
theorem ff31RoundPair_eq_none {i : Nat} {ab : Bytes × Bytes} :
    ff31RoundPair p key radix n t d i ab = none ↔ 2 ^ 96 ≤ numRadix radix (revs ab.2) := by
  rw [ff31RoundPair]
  split
  next hover => exact iff_of_true rfl hover
  next hfits => exact iff_of_false nofun hfits

/-- A round that completes keeps the second half and makes a new one of the round's width. -/
theorem ff31RoundPair_widths {i : Nat} {ab ab' : Bytes × Bytes} (h : ff31RoundPair p key radix n t d i ab = some ab') :
    ab'.1 = ab.2 ∧ ab'.2.length = roundWidth (roundIndex 8 d i) (n - n / 2) (n / 2) := by
  obtain ⟨-, rfl⟩ := ff31RoundPair_eq_some.mp h
  exact ⟨rfl, (revs_length _).trans (render_length ..)⟩

theorem ff31Halves_cons (i : Nat) (l : List Nat) (ab : Bytes × Bytes) :
    ff31Halves p key radix n t d (i :: l) ab =
      (ff31RoundPair p key radix n t d i ab).bind (ff31Halves p key radix n t d l) := by
  rw [ff31Halves]
  cases ff31RoundPair p key radix n t d i ab <;> rfl

theorem ff31Halves_concat (l : List Nat) (i : Nat) (ab : Bytes × Bytes) :
    ff31Halves p key radix n t d (l ++ [i]) ab =
      (ff31Halves p key radix n t d l ab).bind (ff31RoundPair p key radix n t d i) := by
  have hone : ff31Halves p key radix n t d [i] = ff31RoundPair p key radix n t d i := by
    funext ab
    rw [ff31Halves_cons]
    exact Option.bind_fun_some _
  rw [ff31Halves_append, hone]

/-- A round that completes gives the halves the shape of the next one. -/
theorem ff31RoundPair_shaped (hr : 2 ≤ radix) (hr' : radix ≤ 36) {i : Nat} (hi : i + 1 < 8) {ab ab' : Bytes × Bytes}
    (hab : PairShaped radix (roundIndex 8 d i) (n - n / 2) (n / 2) ab)
    (h : ff31RoundPair p key radix n t d i ab = some ab') :
    PairShaped radix (roundIndex 8 d (i + 1)) (n - n / 2) (n / 2) ab' := by
  obtain ⟨-, rfl⟩ := ff31RoundPair_eq_some.mp h
  exact
    { fst := hab.snd.trans (roundWidth_next d _ _ hi).symm
      snd := (revs_length _).trans ((render_length ..).trans (roundWidth_next_succ d _ _ hi).symm)
      fst_digits := hab.snd_digits
      snd_digits := allDigits_revs (allDigits_render hr hr' _ _) }

/-! ### Where no round overflows (45_ff3_1_engine.md R182) -/

/-- No half is longer than the larger one, so a round completes where that one's domain fits 12 bytes. -/
theorem ff31RoundPair_completes (hr : 2 ≤ radix) (hn : 2 ≤ n) (hfits : radix ^ (n - n / 2) ≤ 2 ^ 96) {i : Nat}
    {ab : Bytes × Bytes} (hab : PairShaped radix (roundIndex 8 d i) (n - n / 2) (n / 2) ab) :
    ∃ ab', ff31RoundPair p key radix n t d i ab = some ab' := by
  have hlen : (revs ab.2).length = roundWidth (roundIndex 8 d i + 1) (n - n / 2) (n / 2) :=
    (revs_length _).trans hab.snd
  have hpos : (revs ab.2).length ≠ 0 := hlen ▸ roundWidth_ne_zero _ (by omega) (by omega)
  have hle : (revs ab.2).length ≤ n - n / 2 := hlen ▸ roundWidth_le _ le_rfl (by omega)
  have hnum : numRadix radix (revs ab.2) < 2 ^ 96 :=
    calc numRadix radix (revs ab.2) < radix ^ (revs ab.2).length := numRadix_lt hpos (allDigits_revs hab.snd_digits)
      _ ≤ radix ^ (n - n / 2) := Nat.pow_le_pow_right (by omega) hle
      _ ≤ 2 ^ 96 := hfits
  exact ⟨_, ff31RoundPair_eq_some.mpr ⟨hnum, rfl⟩⟩

theorem ff31Halves_completes (hr : 2 ≤ radix) (hr' : radix ≤ 36) (hn : 2 ≤ n)
    (hfits : radix ^ (n - n / 2) ≤ 2 ^ 96) (k i : Nat) (hi : i + k = 8) {ab : Bytes × Bytes}
    (hshape : i < 8 → PairShaped radix (roundIndex 8 d i) (n - n / 2) (n / 2) ab) :
    ∃ res, ff31Halves p key radix n t d (List.range' i k) ab = some res := by
  induction k generalizing i ab with
  | zero => exact ⟨ab, rfl⟩
  | succ k ih =>
    have hab := hshape (by omega)
    obtain ⟨ab', hround⟩ := ff31RoundPair_completes (p := p) (key := key) (t := t) hr hn hfits hab
    rw [List.range'_succ, ff31Halves_cons, hround]
    exact ih (i + 1) (by omega) fun hi' => ff31RoundPair_shaped hr hr' hi' hab hround

/-! ### The rounds undone (45_ff3_1_engine.md R192) -/

/-- The other direction's first `k` rounds complete and undo the last `k` rounds, if these completed. -/
theorem ff31Halves_undone (hr : 2 ≤ radix) (hr' : radix ≤ 36) (hn : 2 ≤ n) (k i : Nat) (hi : i + k = 8)
    {ab res xy : Bytes × Bytes} (hshape : i < 8 → PairShaped radix (roundIndex 8 d i) (n - n / 2) (n / 2) ab)
    (hres : ff31Halves p key radix n t d (List.range' i k) ab = some res) (hxy : SwappedAlike xy res) :
    ∃ back, ff31Halves p key radix n t (opposite d) (List.range k) xy = some back ∧ SwappedAlike back ab := by
  induction k generalizing i ab with
  | zero =>
    cases hres
    exact ⟨xy, rfl, hxy⟩
  | succ k ih =>
    have hab := hshape (by omega)
    rw [List.range'_succ, ff31Halves_cons] at hres
    obtain ⟨ab', hround, hrest⟩ := Option.bind_eq_some_iff.mp hres
    obtain ⟨back, hback, hfst, hsnd⟩ :=
      ih (i + 1) (by omega) (fun hi' => ff31RoundPair_shaped hr hr' hi' hab hround) hrest
    have hfront := (ff31RoundPair_widths hround).1
    rw [hfront] at hsnd
    have hlast := ff31RoundPair_undone hr hr' hn (by omega) hab.fst hab.fst_digits hround hfst hsnd
    rw [show 7 - i = k by omega] at hlast
    rw [List.range_succ, ff31Halves_concat, hback]
    exact ⟨_, hlast, hsnd, lower_lower ab.1⟩

/-- After the eight rounds the larger half stands first. -/
theorem leadingHalf_ff31Halves_length {ab res : Bytes × Bytes}
    (h : ff31Halves p key radix n t d (List.range 8) ab = some res) : (leadingHalf d res).length = n - n / 2 := by
  rw [List.range_succ, ff31Halves_concat] at h
  obtain ⟨ab₇, hseven, hlast⟩ := Option.bind_eq_some_iff.mp h
  rw [List.range_succ, ff31Halves_concat] at hseven
  obtain ⟨_, -, hsecond⟩ := Option.bind_eq_some_iff.mp hseven
  obtain ⟨hfront, hwidth⟩ := ff31RoundPair_widths hlast
  cases d with
  | encrypt => exact (congrArg List.length hfront).trans (ff31RoundPair_widths hsecond).2
  | decrypt => exact hwidth

end

/-! ### A whole call (45_ff3_1_engine.md R191) -/

theorem ff31Cipher_eq_some {p : Params} {key : Option Bytes} {radix : Nat} {d : Direction} {t x y : Bytes} :
    ff31Cipher p key radix d t x = some y ↔
      ∃ ab, ff31Halves p key radix x.length t d (List.range 8)
          (splitHalves d x (x.length - x.length / 2) x.length) = some ab ∧ joinHalves d ab.1 ab.2 = y := by
  rw [ff31Cipher]
  split
  next ab hvalue => simp only [hvalue, Option.some.injEq, exists_eq_left']
  next hstop => simp only [hstop, reduceCtorEq, false_and, exists_false]

section

variable {radix : Nat} (hr : 2 ≤ radix) (hr' : radix ≤ 36) {x : Bytes} (hn : 2 ≤ x.length)
  (hx : allDigits radix x = true)

include hx in
/-- The split of a text has the shape of the first round of FF3-1. -/
theorem pairShaped_ff31 (d : Direction) :
    PairShaped radix (roundIndex 8 d 0) (x.length - x.length / 2) (x.length / 2)
      (splitHalves d x (x.length - x.length / 2) x.length) :=
  pairShaped_split d rfl (by decide) (by omega) hx

include hr hr' hn hx

/-- No round overflows where the domain of the larger half fits 12 bytes (R182). -/
theorem ff31Cipher_completes (hfits : radix ^ ((x.length + 1) / 2) ≤ 2 ^ 96) (p : Params) (key : Option Bytes)
    (d : Direction) (t : Bytes) : ∃ res, ff31Cipher p key radix d t x = some res := by
  rw [show (x.length + 1) / 2 = x.length - x.length / 2 by omega] at hfits
  obtain ⟨ab, hab⟩ := ff31Halves_completes (p := p) (key := key) (t := t) hr hr' hn hfits 8 0 rfl
    fun _ => pairShaped_ff31 hx d
  exact ⟨_, ff31Cipher_eq_some.mpr ⟨ab, hab, rfl⟩⟩

/-- Where a call has a value, FF3-1 in the other direction gives the text back in lower case (R192). -/
theorem ff31Cipher_opposite {p : Params} {key : Option Bytes} {d : Direction} {t y : Bytes}
    (hy : ff31Cipher p key radix d t x = some y) : ff31Cipher p key radix (opposite d) t y = some (lower x) := by
  have hlen := ff31Cipher_length hy
  obtain ⟨ab, hhalves, rfl⟩ := ff31Cipher_eq_some.mp hy
  have hsplit := splitHalves_opposite_joinHalves (leadingHalf_ff31Halves_length hhalves) hlen
  obtain ⟨back, hback, hswapped⟩ :=
    ff31Halves_undone hr hr' hn 8 0 rfl (fun _ => pairShaped_ff31 hx d) hhalves (xy := ab.swap) ⟨rfl, rfl⟩
  have hvalue : ff31Cipher p key radix (opposite d) t (joinHalves d ab.1 ab.2) =
      some (joinHalves (opposite d) back.1 back.2) :=
    ff31Cipher_eq_some.mpr ⟨back, by rw [hlen, hsplit]; exact hback, rfl⟩
  rw [hvalue]
  refine congrArg some ?_
  calc joinHalves (opposite d) back.1 back.2
      = lower (joinHalves (opposite d) back.1 back.2) := (lower_of_rendered hr' (rendered_ff31Cipher hr hvalue)).symm
    _ = lower (joinHalves d (splitHalves d x (x.length - x.length / 2) x.length).1
          (splitHalves d x (x.length - x.length / 2) x.length).2) := hswapped.lower_join d
    _ = lower x := by rw [joinHalves_splitHalves]

end

/-- A call whose first round overflows has no value and makes no transaction (R182, R196). -/
theorem ff31_stops_in_first_round {p : Params} {key : Option Bytes} {radix : Nat} {d : Direction} {t x : Bytes}
    (h : 2 ^ 96 ≤ numRadix radix (revs (splitHalves d x (x.length - x.length / 2) x.length).2)) :
    ff31Cipher p key radix d t x = none ∧ ff31Txns p key radix d t x = [] := by
  have hround := (ff31RoundPair_eq_none (p := p) (key := key) (n := x.length) (t := t) (d := d) (i := 0)).mpr h
  have hrange : List.range Config.roundsFF31 = 0 :: List.range' 1 7 := rfl
  constructor
  · rw [ff31Cipher_eq_none_iff, hrange, ff31Halves_cons, hround]
    rfl
  · rw [ff31Txns, hrange, ff31RoundsTxns, hround]

/-- Settles O46: the larger half bounds every round's numeral; the leading half is the one that the first round of a
decryption writes into the field. -/
theorem ff31OverflowBoundary : Obligations.FF31OverflowBoundary := by
  intro p key radix t x hr hr' hn hx
  refine ⟨fun hfits d => ?completes, fun hover => ?stops⟩
  case completes =>
    obtain ⟨res, hres⟩ := ff31Cipher_completes hr hr' hn hx hfits p key d t
    exact Option.ne_none_iff_exists'.mpr ⟨res, hres⟩
  case stops =>
    rw [← slice_zero] at hover
    exact ff31_stops_in_first_round (d := .decrypt) hover

/-- Settles O48: the two clauses of the law are the two directions of `ff31Cipher_opposite`. -/
theorem ff31InverseLaw : Obligations.FF31InverseLaw := by
  intro p key radix t x y hr hr' hn hx
  exact ⟨ff31Cipher_opposite hr hr' hn hx (d := .encrypt), ff31Cipher_opposite hr hr' hn hx (d := .decrypt)⟩

/-! ### A legal command on an FF3-1 context (45_ff3_1_engine.md R182, R190, R191, R196) -/

/-- On an FF3-1 context the closed forms of `moveCommand_legal` are those of FF3-1. -/
theorem moveCommand_ff31 {p : Params} (hp : p.wellFormed = true) {i : Instr} {s : State} (hinv : Inv p s)
    (hph : s.ph = .idle) (hcall : CallLegal p i s) (halg : s.ctx.alg = .ff31) :
    moveCommand p i s =
      ⟨endsWithCall (ff31Cipher p s.aespKey s.ctx.radix (cipherDirection i) (callTweak i s) (textInput s)) s,
        ff31Txns p s.aespKey s.ctx.radix (cipherDirection i) (callTweak i s) (textInput s)⟩ := by
  have hmove := moveCommand_legal hp hinv hph hcall
  simp only [callResult, callTxns, halg] at hmove
  exact hmove

/-- Settles O44: the two ends are those of `endsWithCall`. -/
theorem ff31CommandCompletesOrOverflows : Obligations.FF31CommandCompletesOrOverflows := by
  intro p i s hp hinv hph hcall halg
  rw [moveCommand_ff31 hp hinv hph hcall halg]
  refine ⟨?state, rfl⟩
  case state =>
    cases ff31Cipher p s.aespKey s.ctx.radix (cipherDirection i) (callTweak i s) (textInput s) <;> rfl

/-- The text of a legal command is a string of at least two digits of a legal radix (R147, R149). -/
theorem textInput_legal {p : Params} {i : Instr} {s : State} (hinv : Inv p s) (hcall : CallLegal p i s) :
    2 ≤ s.ctx.radix ∧ s.ctx.radix ≤ 36 ∧ 2 ≤ (textInput s).length ∧ allDigits s.ctx.radix (textInput s) = true := by
  have hc := contextLegal_of_valid hinv hcall.valid
  obtain ⟨hr, hr'⟩ := hc.radix
  have hfour := (textMin_bounds hr hr').1
  have hmin := hcall.text.1
  rw [hc.txt_min] at hmin
  obtain ⟨-, -, -, hlen⟩ := cipherSetup_operands hinv hcall
  exact ⟨hr, hr', by omega, numeralsLegal_iff.mp hcall.numerals⟩

/-- Settles O43: the closed form has a value, and the command ends with it. -/
theorem cipherCommandsComputeFF31 : Obligations.CipherCommandsComputeFF31 := by
  intro i _ s hinv hph hcall halg hfits
  obtain ⟨hr, hr', hn, hx⟩ := textInput_legal hinv hcall
  obtain ⟨-, -, -, hlen⟩ := cipherSetup_operands hinv hcall
  rw [← hlen] at hfits
  obtain ⟨res, hres⟩ := ff31Cipher_completes hr hr' hn hx hfits Config.hardware s.aespKey (cipherDirection i)
    (callTweak i s)
  refine ⟨res, hres, ?_⟩
  rw [exec_eq, moveCommand_ff31 hardware_wellFormed hinv hph hcall halg, hres]
  exact ⟨rfl, rfl⟩

end Sys2Proof.Machine
end

section
/-! SUPPORT. How a command ends in an error, and the phases in which no command is accepted: the table of the errors, the
state after a recoverable error, and the fatal stop (O9, O27, O32). -/

namespace Sys2Proof.Machine

/-! ### Commands outside IDLE (60_exceptions.md R218) -/

theorem moveCommand_ignored (p : Params) (i : Instr) {s : State} (h : s.ph ≠ .idle) :
    moveCommand p i s = Move.start s := by
  rw [← moveWord_encode, moveWord_ignored h]

/-- Settles O9: the ignored command's move is the empty one. -/
theorem commandsAreIgnoredUnlessIdle : Obligations.CommandsAreIgnoredUnlessIdle := by
  intro i s hph
  rw [exec_eq, moveCommand_ignored _ i hph]
  exact ⟨rfl, rfl⟩

/-! ### The fatal stop (60_exceptions.md R205, R206) -/

/-- The phase and what the host reads of a command's end: the status, the error code and the result length. -/
structure StatusKept (s t : State) : Prop where
  ph : t.ph = s.ph
  done : t.reg.done = s.reg.done
  err : t.reg.err = s.reg.err
  errcode : t.reg.errcode = s.reg.errcode
  outlen : t.reg.outlen = s.reg.outlen

theorem StatusKept.refl (s : State) : StatusKept s s := ⟨rfl, rfl, rfl, rfl, rfl⟩

theorem writeByte_statusKept (p : Params) (s : State) (b : BufName) (i : Nat) (v : Byte) :
    StatusKept s (writeByte p s b i v) := by
  by_cases hi : i < bufSize p b
  · rw [writeByte_inside hi]
    exact ⟨rfl, rfl, rfl, rfl, rfl⟩
  · rw [writeByte_beyond (Nat.not_lt.mp hi)]
    exact .refl s

/-- Of the registers only `CMD` reaches the status, and that only in IDLE. -/
theorem writeReg_statusKept (p : Params) (w : Word) {s : State} (h : s.ph ≠ .idle) (r : RegName) :
    StatusKept s (writeReg p w s r) := by
  cases r
  case cmd =>
    rw [writeReg, writeCmd_ignored p w h]
    exact .refl s
  all_goals exact ⟨rfl, rfl, rfl, rfl, rfl⟩

/-- Outside IDLE no host access changes the phase or the status. -/
theorem hostAccess_statusKept (p : Params) {s : State} (h : s.ph ≠ .idle) (a : Access) :
    StatusKept s (hostAccess p s a) := by
  cases a with
  | regRead k => exact .refl s
  | bufRead b i => exact .refl s
  | bufWrite b i v => exact writeByte_statusKept p s b i v
  | regWrite k w =>
    rw [hostAccess]
    cases regAt k with
    | none => exact .refl s
    | some r => exact writeReg_statusKept p w h r

theorem ne_idle_of_fatal {s : State} (h : s.ph = .fatal) : s.ph ≠ .idle := by
  rw [h]; decide

/-- In FATAL the engine waits, so its move is no fault (10_state.md R32). -/
theorem hasTransition_fatal {s : State} (h : s.ph = .fatal) : s.hasTransition = true := by
  unfold State.hasTransition
  rw [h]

/-- A step in FATAL that is no reset: a host access, or nothing at all. -/
theorem step_fatal {s : State} (hph : s.ph = .fatal) (hreset : ∀ k, s.nextEvent ≠ .reset k) :
    (∃ a, step s = .next (hostAccess Config.hardware s.afterFetch a)) ∨ step s = .next s.afterFetch := by
  have hfatal : s.afterFetch.ph = .fatal := hph
  cases hev : s.nextEvent with
  | access a => exact .inl ⟨a, step_access hev⟩
  | command w =>
    right
    rw [step_command hev, moveWord_ignored (ne_idle_of_fatal hfatal)]
    rfl
  | engine =>
    right
    rw [step_engine hev (hasTransition_fatal hfatal), engineMove_waits _ (.inr hfatal)]
    rfl
  | reset k => exact absurd hev (hreset k)

/-- Settles O27: the status is kept by `hostAccess_statusKept`, and no host access reaches `OUT`, the context or the AES
key. -/
theorem fatalStopLatches : Obligations.FatalStopLatches := by
  intro s hph hreset
  rcases step_fatal hph hreset with ⟨a, hstep⟩ | hstep
  · have hstatus := hostAccess_statusKept Config.hardware (ne_idle_of_fatal (s := s.afterFetch) hph) a
    obtain ⟨hctx, hkey⟩ := hostAccess_context Config.hardware s.afterFetch a
    exact ⟨_, hstep, hstatus.ph.trans hph, hstatus.done, hstatus.err, hstatus.errcode, hstatus.outlen,
      hostAccess_out Config.hardware s.afterFetch a, hctx, hkey⟩
  · exact ⟨_, hstep, hph, rfl, rfl, rfl, rfl, rfl, rfl, rfl⟩

/-! ### The errors (60_exceptions.md R200) -/

/-- The rows of R200, in its order. -/
def errorTable : List (ErrorName × BitVec 8 × Bool) :=
  [ErrorName.invalidKeySize, .invalidRadix, .invalidTextLength, .invalidTweakLength, .invalidNumeral, .lengthExceeded,
    .invalidBlockLength, .noContext, .illegalCommand].map fun e => (e, errorCode e, errorIsFatal e)

theorem mem_errorTable {e : ErrorName} {code : BitVec 8} {fatal : Bool} :
    (e, code, fatal) ∈ errorTable ↔ errorCode e = code ∧ errorIsFatal e = fatal := by
  constructor
  · intro h
    obtain ⟨e', -, he⟩ := List.mem_map.mp h
    cases he
    exact ⟨rfl, rfl⟩
  · rintro ⟨rfl, rfl⟩
    exact List.mem_map_of_mem (by cases e <;> decide)

/-! ### A recoverable error (60_exceptions.md R203, R204) -/

/-- Between commands everything of a command is zero already, so that ending with an error writes the status alone. -/
theorem endsWithError_idle {p : Params} {s : State} (hinv : Inv p s) (hph : s.ph = .idle) (e : ErrorName) :
    endsWithError e s =
      { s with reg := { s.reg with done := true, err := true, errcode := errorCode e, outlen := 0 } } := by
  obtain ⟨hlat, hwork, hrnd⟩ := hinv.quiet.zeroed (by rw [State.busy, hph]; rfl)
  rw [endsWithError, settled, ← hlat, ← hwork, ← hrnd, ← hph, ← hinv.quiet.chain]

theorem FirstFailure.recoverable {p : Params} {i : Instr} {s : State} {e : ErrorName} (h : FirstFailure p i s e) :
    errorIsFatal e = false := by
  cases h <;> rfl

/-- A move that ended with a recoverable error, without a transaction. -/
def EndedInError (s : State) (m : Move) : Prop := ∃ e, errorIsFatal e = false ∧ m = ⟨endsWithError e s, []⟩

/-- A context command sets `ERR` only where one of its checks failed. -/
theorem contextOutcome_error {err : Option ErrorName} {c : Context} {s : State}
    (hrec : ∀ e, err = some e → errorIsFatal e = false) (herr : (contextOutcome err c s).state.reg.err = true) :
    EndedInError s (contextOutcome err c s) := by
  cases err with
  | none => cases herr
  | some e => exact ⟨e, hrec e rfl, rfl⟩

/-- A legal cipher command that ends in IDLE has a result and no error. -/
theorem endsWithCall_err_of_idle {res : Option Bytes} {s : State} (h : (endsWithCall res s).ph = .idle) :
    (endsWithCall res s).reg.err = false := by
  cases res with
  | none => cases h
  | some res => rfl

/-- A cipher command that ends in IDLE sets `ERR` only where one of its checks failed. -/
theorem moveCommand_cipher_error {p : Params} (hp : p.wellFormed = true) {i : Instr} {s : State}
    (hi : isCipher i = true) (hinv : Inv p s) (hph : s.ph = .idle) (hidle : (moveCommand p i s).state.ph = .idle)
    (herr : (moveCommand p i s).state.reg.err = true) : EndedInError s (moveCommand p i s) := by
  rcases firstFailure_or_callLegal p hi s with ⟨e, hfail⟩ | hcall
  · exact ⟨e, hfail.recoverable, moveCommand_firstFailure hinv hph hi hfail⟩
  · rw [moveCommand_legal hp hinv hph hcall] at hidle herr
    rw [endsWithCall_err_of_idle hidle] at herr
    cases herr

/-- A command that ends in IDLE with `ERR` set has failed one of its checks in phase CHECK. -/
theorem moveCommand_error {p : Params} (hp : p.wellFormed = true) {i : Instr} {s : State} (hinv : Inv p s)
    (hph : s.ph = .idle) (hidle : (moveCommand p i s).state.ph = .idle)
    (herr : (moveCommand p i s).state.reg.err = true) : EndedInError s (moveCommand p i s) := by
  cases i
  case ctxFF1 =>
    rw [moveCommand, moveCtxFF1_idle hph] at herr ⊢
    exact contextOutcome_error (fun e => ctxFF1Error_recoverable) herr
  case ctxFF31 =>
    rw [moveCommand, moveCtxFF31_idle hph] at herr ⊢
    exact contextOutcome_error (fun e => ctxFF31Error_recoverable) herr
  all_goals exact moveCommand_cipher_error hp rfl hinv hph hidle herr

/-- Settles O32: the table by `mem_errorTable`, and the last part from `moveCommand_error`. -/
theorem recoverableErrorHasNoSideEffect : Obligations.RecoverableErrorHasNoSideEffect := by
  refine ⟨fun e code fatal => mem_errorTable.symm, fun e s => ⟨raiseError_reg e s, raiseError_ph e s⟩, ?_⟩
  intro i s t hinv hph hexec hidle herr
  rw [exec_eq] at hexec
  cases hexec
  obtain ⟨e, hrec, hmove⟩ := moveCommand_error hardware_wellFormed hinv hph hidle herr
  rw [hmove]
  exact ⟨⟨e, hrec, endsWithError_idle hinv hph e⟩, rfl⟩

end Sys2Proof.Machine
end

section
/-! SUPPORT. Key material flows into key material alone: blanking it before an access or a context command comes to the
same as blanking it afterwards (O18). -/

namespace Sys2Proof.Machine

/-! ### Blanked key material (60_exceptions.md R212) -/

/-- The context with its key blanked, as `keyBlind` does it. -/
def Context.keyBlind (c : Context) : Context := { c with key := zeroBytes c.key.length }

/-- The latches with their key blanked, as `keyBlind` does it. -/
def Latches.keyBlind (l : Latches) : Latches := { l with key := zeroBytes l.key.length }

/-- What `f` does outside key material depends on nothing in key material. -/
def KeyOblivious (f : State → State) : Prop := ∀ s t, keyBlind s = keyBlind t → keyBlind (f s) = keyBlind (f t)

theorem KeyOblivious.of_commutes {f : State → State} (h : ∀ s, keyBlind (f s) = f (keyBlind s)) : KeyOblivious f := by
  intro s t hst
  rw [h s, h t, hst]

/-- A function that writes key material only. -/
theorem KeyOblivious.of_hidden {f : State → State} (h : ∀ s, keyBlind (f s) = keyBlind s) : KeyOblivious f := by
  intro s t hst
  rw [h s, h t, hst]

/-! ### The latched key -/

/-- An empty buffer reads as zeros. -/
theorem Memory.load_nil (n : Nat) : Memory.load [] n = zeroBytes n := by
  simp [Memory.load, zeroBytes, Memory.unlisted]

/-- The blanked `KEY` buffer latches as a blanked key: 32 bytes are latched whatever it holds (10_state.md R24). -/
theorem latchOperands_keyBlind (p : Params) (w : Word) (s : State) :
    latchOperands p w (keyBlind s).reg (keyBlind s).buf = (latchOperands p w s.reg s.buf).keyBlind := by
  have hkey : Memory.load [] Config.keyBufferBytes = zeroBytes (s.buf.key.load Config.keyBufferBytes).length := by
    rw [Memory.load_nil, Memory.length_load]
  simp only [latchOperands, Latches.keyBlind, ← hkey]
  rfl

theorem keyBlind_accept (p : Params) (w : Word) (s : State) :
    keyBlind (accept p w s) = accept p w (keyBlind s) := by
  rw [accept, accept, latchOperands_keyBlind]
  rfl

/-! ### Host accesses -/

/-- No register shows key material, and `KEY` reads 0 (20_memory.md R42). -/
theorem hostValue_keyBlind (p : Params) (s : State) (a : Access) : hostValue p (keyBlind s) a = hostValue p s a := by
  cases a with
  | regRead k =>
    have hread : ∀ r, readReg (keyBlind s) r = readReg s r := fun r => by cases r <;> rfl
    simp only [hostValue, hread]
  | bufRead b i =>
    have hread : readByteInside (keyBlind s) b i = readByteInside s b i := by cases b <;> rfl
    simp only [hostValue, readByte, hread]
  | regWrite k w => rfl
  | bufWrite b i v => rfl

theorem keyBlind_writeCmd (p : Params) (w : Word) (s : State) :
    keyBlind (writeCmd p w s) = writeCmd p w (keyBlind s) := by
  have hph : (keyBlind s).ph = s.ph := rfl
  by_cases hidle : s.ph = .idle
  · rw [writeCmd_idle p w hidle, writeCmd_idle p w (hph.trans hidle), keyBlind_accept]
  · rw [writeCmd_ignored p w hidle, writeCmd_ignored p w (hph ▸ hidle)]

theorem keyBlind_writeReg (p : Params) (w : Word) (r : RegName) (s : State) :
    keyBlind (writeReg p w s r) = writeReg p w (keyBlind s) r := by
  cases r
  case cmd => exact keyBlind_writeCmd p w s
  all_goals rfl

/-- A byte written into `KEY` is key material; every other buffer holds none. -/
theorem keyOblivious_writeByte (p : Params) (b : BufName) (i : Nat) (v : Byte) :
    KeyOblivious fun s => writeByte p s b i v := by
  by_cases hi : i < bufSize p b
  · simp only [writeByte_inside hi]
    cases b
    case key => exact .of_hidden fun s => rfl
    all_goals exact .of_commutes fun s => rfl
  · simp only [writeByte_beyond (Nat.not_lt.mp hi)]
    exact .of_hidden fun s => rfl

theorem keyOblivious_hostAccess (p : Params) (a : Access) : KeyOblivious fun s => hostAccess p s a := by
  cases a with
  | regRead k => exact .of_hidden fun s => rfl
  | bufRead b i => exact .of_hidden fun s => rfl
  | bufWrite b i v => exact keyOblivious_writeByte p b i v
  | regWrite k w =>
    simp only [hostAccess]
    cases regAt k with
    | none => exact .of_hidden fun s => rfl
    | some r => exact .of_commutes (keyBlind_writeReg p w r)

/-! ### Context commands (40_context.md R81) -/

theorem slice_zeroBytes_length (x : Bytes) (a b : Nat) :
    slice (zeroBytes x.length) a b = zeroBytes (slice x a b).length := by
  simp [slice, zeroBytes]

theorem revb_zeroBytes (n : Nat) : revb (zeroBytes n) = zeroBytes n := List.reverse_replicate

theorem ctxFF1Context_keyBlind (p : Params) (l : Latches) :
    ctxFF1Context p l.keyBlind = (ctxFF1Context p l).keyBlind := by
  have hkey : l.keyBlind.keyOperand = zeroBytes l.keyOperand.length := slice_zeroBytes_length l.key 0 l.keylen.toNat
  simp only [ctxFF1Context, Context.keyBlind, hkey]
  rfl

theorem ctxFF31Context_keyBlind (p : Params) (l : Latches) :
    ctxFF31Context p l.keyBlind = (ctxFF31Context p l).keyBlind := by
  have hkey : l.keyBlind.keyOperand = zeroBytes l.keyOperand.length := slice_zeroBytes_length l.key 0 l.keylen.toNat
  simp only [ctxFF31Context, Context.keyBlind, hkey, revb_zeroBytes, revb_length]
  rfl

theorem keyBlind_contextOutcome (err : Option ErrorName) (c : Context) (s : State) :
    keyBlind (contextOutcome err c s).state = (contextOutcome err c.keyBlind (keyBlind s)).state := by
  cases err <;> rfl

/-- In IDLE the checks read no key byte, and the stored context's key is as long as before (R81, R91, R92). -/
theorem keyBlind_contextCommand_idle (p : Params) {i : Instr} (hi : isCipher i = false) {s : State}
    (hph : s.ph = .idle) : keyBlind (moveCommand p i s).state = (moveCommand p i (keyBlind s)).state := by
  have hph' : (keyBlind s).ph = .idle := hph
  cases i
  case ctxFF1 =>
    rw [moveCommand, moveCommand, moveCtxFF1_idle hph, moveCtxFF1_idle hph', keyBlind_contextOutcome,
      latchOperands_keyBlind, ctxFF1Context_keyBlind]
    rfl
  case ctxFF31 =>
    rw [moveCommand, moveCommand, moveCtxFF31_idle hph, moveCtxFF31_idle hph', keyBlind_contextOutcome,
      latchOperands_keyBlind, ctxFF31Context_keyBlind]
    rfl
  all_goals cases hi

theorem keyBlind_contextCommand (p : Params) {i : Instr} (hi : isCipher i = false) (s : State) :
    keyBlind (moveCommand p i s).state = (moveCommand p i (keyBlind s)).state := by
  by_cases hph : s.ph = .idle
  · exact keyBlind_contextCommand_idle p hi hph
  · have hph' : (keyBlind s).ph ≠ .idle := hph
    rw [moveCommand_ignored p i hph, moveCommand_ignored p i hph']
    rfl

/-- Settles O18: a read shows the blanked state, and accesses and context commands are oblivious of key material. -/
theorem keyMaterialIsNeverReadable : Obligations.KeyMaterialIsNeverReadable := by
  intro p s t hst
  refine ⟨fun a => ⟨?value, keyOblivious_hostAccess p a s t hst⟩,
    fun i hi => KeyOblivious.of_commutes (keyBlind_contextCommand p hi) s t hst⟩
  case value => rw [← hostValue_keyBlind p s, hst, hostValue_keyBlind]

end Sys2Proof.Machine
end

section
/-! SUPPORT. Reset as a step, and the end of every command: each move of the engine brings it nearer to IDLE or FATAL
(O20, O25). -/

namespace Sys2Proof.Machine

/-! ### Reset (70_reset_and_hazards.md R230 to R232) -/

/-- Settles O20: the step is `step_reset`, and what is seen of it is the transition it interrupts. -/
theorem resetRestoresEverything : Obligations.ResetRestoresEverything := by
  intro s es k hpending
  obtain ⟨hnext, hfetch⟩ := nextEvent_of_pending hpending
  constructor
  · rw [step_reset hnext, hfetch, resetInput, State.withPending_pending]
  · rw [observe, hnext, hfetch, observeEvent]

/-! ### Progress (70_reset_and_hazards.md R243) -/

/-- The most moves that can follow in a phase with that `RND`: CHECK, SETUP, the rounds that FF1 has left, FINISH. -/
def movesLeftIn (rnd : Nat) : Phase → Nat
  | .idle => 0
  | .check => 3 + Config.roundsFF1
  | .setup => 2 + Config.roundsFF1
  | .round => 1 + (Config.roundsFF1 - rnd)
  | .finish => 1
  | .fatal => 0

/-- The most moves that can follow from a state before the engine is no longer busy. -/
def State.movesLeft (s : State) : Nat := movesLeftIn s.rnd s.ph

theorem movesLeft_le (s : State) : s.movesLeft ≤ 13 := by
  unfold State.movesLeft
  cases s.ph <;> simp only [movesLeftIn, Config.roundsFF1] <;> omega

theorem not_busy_of_movesLeft_eq_zero {s : State} (h : s.movesLeft = 0) : s.busy = false := by
  unfold State.movesLeft at h
  unfold State.busy
  cases hph : s.ph <;> simp only [hph, movesLeftIn] at h
  case idle => rfl
  case fatal => rfl
  all_goals omega

/-- What was done before a move does not count: only the phase transition does. -/
theorem movesLeft_engineMove_start (p : Params) (m : Move) :
    (engineMove p m).state.movesLeft = (engineMove p (Move.start m.state)).state.movesLeft := by
  have hrun := engineMove_inRun p (Move.start m.state) m.state.pending m.txns
  rw [Move.inRun_start] at hrun
  rw [hrun]
  rfl

/-- Each move of the engine is one of those left, by the table of the transitions (10_state.md R32, R33). -/
theorem movesLeft_engineMove {p : Params} (hp : p.wellFormed = true) {m : Move} (hinv : Inv p m.state) :
    (engineMove p m).state.movesLeft ≤ m.state.movesLeft - 1 := by
  rw [movesLeft_engineMove_start]
  have hmove := phaseTransitions p m.state _ hp hinv rfl
  generalize (engineMove p (Move.start m.state)).state = t at hmove
  unfold State.movesLeft
  cases hph : m.state.ph <;> rw [hph] at hmove
  case idle => rw [hmove, hph]; exact le_rfl
  case fatal => rw [hmove, hph]; exact le_rfl
  case check => rcases hmove with h | h | h <;> rw [h] <;> simp only [movesLeftIn] <;> omega
  case setup =>
    obtain ⟨hround, hrnd⟩ := hmove
    rw [hround, hrnd]
    exact le_rfl
  case round =>
    have hrounds : (if m.state.ctx.alg = .ff1 then 10 else 8) ≤ Config.roundsFF1 := by split <;> decide
    rcases hmove with ⟨hnext, hround, hrnd⟩ | ⟨hlast, hfinish⟩ | ⟨-, hfatal⟩
    · rw [hround, hrnd]
      simp only [movesLeftIn]
      omega
    · rw [hfinish]
      simp only [movesLeftIn]
      omega
    · rw [hfatal]
      exact Nat.zero_le _
  case finish => rw [hmove.1]; exact le_rfl

theorem movesLeft_runEngine {p : Params} (hp : p.wellFormed = true) (k : Nat) {m : Move} (hinv : Inv p m.state) :
    (runEngine p k m).state.movesLeft ≤ m.state.movesLeft - k := by
  induction k generalizing m with
  | zero => exact le_rfl
  | succ k ih =>
    calc (runEngine p k (engineMove p m)).state.movesLeft
        ≤ (engineMove p m).state.movesLeft - k := ih (inv_engineMove hp hinv)
      _ ≤ m.state.movesLeft - 1 - k := Nat.sub_le_sub_right (movesLeft_engineMove hp hinv) k
      _ = m.state.movesLeft - (k + 1) := by omega

/-- Settles O25: of the thirteen moves at most, none is left after thirteen. -/
theorem everyCommandEnds : Obligations.EveryCommandEnds := by
  intro p s hp hinv
  have hrun := movesLeft_runEngine hp 13 (m := Move.start s) hinv
  have hstart : (Move.start s).state.movesLeft ≤ 13 := movesLeft_le s
  exact not_busy_of_movesLeft_eq_zero (by omega)

end Sys2Proof.Machine
end
